-- ==== Sys2Proof/Word.lean ====
section
/-! DEFINITION. The words of the FHLC: the bit-vector widths its registers and formats use (spec/10_state.md,
spec/30_encoding.md).  Counts, indexes, tables and the `QW`-bit quality mask are naturals. -/

namespace Sys2Proof

/-- 8 bits: a transceiver register, a packet byte, a command byte, a counter of LinkRuntimeState (rule R7, rule R33). -/
abbrev Byte := BitVec 8

/-- 16 bits: a channel value, the AFC reading, the RSSI accumulator, a register number (rules R38, R47, R48, R51). -/
abbrev Half := BitVec 16

/-- `TW` = 32 bits: clock samples, timestamps, `interval`, the session magic (rule R8, decision D5; rule R21). -/
abbrev Word := BitVec 32

end Sys2Proof
end

