-- ==== Sys2Proof/Config.lean ====
section
/-! DEFINITION. The configuration record (rule R8 of spec/00_scope.md), its constraints, the test instantiation TC1
(spec/95_test_vectors.md Part 0), the constants the source fixes (rule R7), and the free values: what the outside
world supplies where the model's input lists have run out (rules R12, R65; spec/93_implementation_defined.md U8). -/

namespace Sys2Proof

/-- The parameters of rule R8, one field each.  `TW` is fixed to 32 (decision D5) and is the width of `Word`.
The record is an argument of the model: a field of `State` that no step changes (log entry 1). -/
structure Config where
  /-- `MAXHOPS`, the size of the hop list. -/
  maxHops : Nat
  /-- `PKTSIZE[0..7]`. -/
  pktsize : List Nat
  /-- `RESERVED_CFG`: the configuration whose packet size is 0. -/
  reservedCfg : BitVec 3
  /-- `NGROUPS[0..7]`. -/
  ngroups : List Nat
  /-- `PAYLOAD_OFF`: offset of the first channel byte in a packet. -/
  payloadOff : Nat
  /-- `TYPE_MASK`. -/
  typeMask : Byte
  /-- `TYPE_CHANNEL`. -/
  typeChannel : Byte
  /-- `DIVERSITY_MASK`. -/
  diversityMask : Byte
  /-- `TELEMETRY_MASK`. -/
  telemetryMask : Byte
  /-- `TELEMETRY_PACKETSIZE`. -/
  telemetryPacketsize : Nat
  /-- `NPROFILES`. -/
  nprofiles : Nat
  /-- `BITRATE[0..NPROFILES-1]`. -/
  bitrate : List Nat
  /-- `QW`, the width of the quality bitmask. -/
  qw : Nat
  /-- `AW`, the width of a transceiver register address. -/
  aw : Nat
  /-- `REG_CHSEL`. -/
  regChsel : Nat
  /-- `REG_TXHDR_LO`. -/
  regTxhdr : Nat
  /-- `REG_RXHDR_LO`. -/
  regRxhdr : Nat
  /-- `REG_HEALTH`. -/
  regHealth : Nat
  /-- `REG_RSSI`. -/
  regRssi : Nat
  /-- `RSSI_ONCE`. -/
  rssiOnce : Bool
  /-- `TX_FROM_RECEIVED`. -/
  txFromReceived : Bool
  /-- `POLL_PERIOD`: unconstrained, read by no rule (decision D40). -/
  pollPeriod : Nat
  /-- `RXBUF_LEN`. -/
  rxbufLen : Nat
  /-- `TXBUF_LEN`. -/
  txbufLen : Nat
  deriving DecidableEq, Repr

namespace Config

/-- `CFG_MASK` (rule R7): the low 3 bits of the flags byte. -/
def cfgMask : Byte := 0x07#8

/-- `K_BAUD` (rule R7). -/
def kBaud : Nat := 8200000

/-- `OVH_NODIV` and `OVH_DIV` (rule R7): the overhead bytes without and with diversity. -/
def overhead (diversity : Bool) : Nat := if diversity then 20 else 15

/-- `MARGIN_MAIN` (rule R7), microseconds. -/
def marginMain : Nat := 2000

/-- `MARGIN_TELEM` (rule R7), microseconds. -/
def marginTelem : Nat := 1000

/-- `RSSI_LEAD` (rule R7), microseconds. -/
def rssiLead : Nat := 1500

/-- `LOSS_MARGIN` (rule R7), microseconds. -/
def lossMargin : Nat := 1000

/-- `RSSI_LOSS_LIMIT` (rule R7). -/
def rssiLossLimit : Nat := 2

/-- `RSSI_NSAMP` (rule R7): samples per average. -/
def rssiNsamp : Nat := 9

/-- `TX_TIMEOUT_MS` (rule R7). -/
def txTimeoutMs : Nat := 100

/-- `HUNG_SENTINEL` (rule R7). -/
def hungSentinel : Byte := 0#8

/-- The bind request byte `'b'` (rule R7); its number is rule R101's, from general knowledge.  No operation reads it
(PRESUMED, log entry 25). -/
def bindRequest : Byte := 0x62#8

/-- The bind acknowledge byte `'B'` (rules R7, R101): the payload a host gives `SEND` (PRESUMED, log entry 25). -/
def bindAcknowledge : Byte := 0x42#8

/-- `PKTSIZE[c]` (rules R8, R121). -/
def pktsizeOf (cfg : Config) (c : BitVec 3) : Nat := cfg.pktsize.getD c.toNat 0

/-- `NGROUPS[c]` (rules R8, R122). -/
def ngroupsOf (cfg : Config) (c : BitVec 3) : Nat := cfg.ngroups.getD c.toNat 0

/-- `BITRATE[i]` (rules R8, R141). -/
def bitrateOf (cfg : Config) (i : Nat) : Nat := cfg.bitrate.getD i 0

/-- `c & 1`: whether configuration `c` carries the auxiliary byte (rule R91), as a number. -/
def auxOf (c : BitVec 3) : Nat := c.toNat % 2

/-- `5*NGROUPS[c] + c[0]`: the payload length of configuration `c` (rule R92). -/
def payloadLen (cfg : Config) (c : BitVec 3) : Nat := 5 * cfg.ngroupsOf c + auxOf c

/-- `4*NGROUPS[c] + 4*c[0]`: the number of channels of configuration `c` (rule R124 iv). -/
def channelCount (cfg : Config) (c : BitVec 3) : Nat := 4 * cfg.ngroupsOf c + 4 * auxOf c

/-- The five transceiver register addresses the FHLC names (rule R70). -/
def regs (cfg : Config) : List Nat :=
  [cfg.regChsel, cfg.regTxhdr, cfg.regRxhdr, cfg.regHealth, cfg.regRssi]

/-- The eight packing configurations. -/
def allCfgs : List (BitVec 3) := [0#3, 1#3, 2#3, 3#3, 4#3, 5#3, 6#3, 7#3]

/-- The table constraints of rule R8 on one packing configuration `c`. -/
def cfgOk (cfg : Config) (c : BitVec 3) : Bool :=
  cfg.pktsizeOf c ≤ 255 && cfg.pktsizeOf c ≤ cfg.rxbufLen &&
    (if c = cfg.reservedCfg then cfg.pktsizeOf c == 0
     else cfg.pktsizeOf c == cfg.payloadOff + cfg.payloadLen c && cfg.pktsizeOf c != 0 &&
       cfg.channelCount c ≤ 16)

/-- The mask constraints of rule R8. -/
def masksOk (cfg : Config) : Bool :=
  (List.range 8).any (fun k => cfg.diversityMask == 1#8 <<< k) && cfg.telemetryMask != 0#8 &&
    cfg.diversityMask &&& cfgMask == 0#8 && cfg.telemetryMask &&& cfgMask == 0#8 &&
    cfg.diversityMask &&& cfg.telemetryMask == 0#8

/-- Every constraint of rule R8.  "A configuration that breaks a constraint is refused by the model." -/
def valid (cfg : Config) : Bool :=
  1 ≤ cfg.maxHops && (cfg.maxHops ≤ 255 && (cfg.pktsize.length == 8 && (cfg.ngroups.length == 8 &&
    (allCfgs.all cfg.cfgOk && (1 ≤ cfg.payloadOff && (cfg.masksOk && (cfg.telemetryPacketsize ≤ 255 &&
    (1 ≤ cfg.nprofiles && (cfg.bitrate.length == cfg.nprofiles && (cfg.bitrate.all (1 ≤ ·) &&
    (1 ≤ cfg.qw && (cfg.regs.Nodup && (cfg.regs.all (· < 2 ^ cfg.aw) && 1 ≤ cfg.txbufLen)))))))))))))

/-- The test instantiation TC1 of spec/95_test_vectors.md Part 0.  It leaves the five register addresses symbolic ("any
five distinct addresses") and gives no `POLL_PERIOD` ("not used"): those numbers are chosen here.
DESIGN CHOICE (log entry 2): `State.reset` carries this instance; unsafe if read as a fact about a device. -/
def tc1 : Config where
  maxHops := 8
  pktsize := [6, 7, 11, 12, 16, 17, 21, 0]
  reservedCfg := 7#3
  ngroups := [1, 1, 2, 2, 3, 3, 4, 0]
  payloadOff := 1
  typeMask := 0x3E#8
  typeChannel := 0x00#8
  diversityMask := 0x80#8
  telemetryMask := 0x18#8
  telemetryPacketsize := 9
  nprofiles := 5
  bitrate := [4800, 9600, 19200, 57600, 125000]
  qw := 16
  aw := 8
  regChsel := 0x79
  regTxhdr := 0x3D
  regRxhdr := 0x42
  regHealth := 0x0C
  regRssi := 0x26
  rssiOnce := true
  txFromReceived := false
  pollPeriod := 0
  rxbufLen := 21
  txbufLen := 21

/-! The free values (log entry 3): what a port or a transport read yields where the state's input lists name no
value.  They are opaque, applied to the state's draw counter, so nothing can be proved of them. -/

/-- A sample of `CLK_US` that the input list does not name (rule R45). -/
opaque freeUs : Nat → Word

/-- A sample of `CLK_MS` that the input list does not name (rule R45). -/
opaque freeMs : Nat → Word

/-- A byte returned by `RegRead(REG_HEALTH)` that the input list does not name (rule R65). -/
opaque freeHealth : Nat → Byte

/-- A byte returned by `RegRead(REG_RSSI)` that the input list does not name (rule R65). -/
opaque freeRssi : Nat → Byte

/-- Byte `k` of a packet returned by `A_RXFIFO_READ` that the input list does not name (rule R65): the draw number,
then the byte's position. -/
opaque freePacket : Nat → Nat → Byte

/-- A value returned by `A_AFC_READ` that the input list does not name (rule R65). -/
opaque freeAfc : Nat → Half

/-- What `rxbuf[0]` reads as where it holds no value (rule R46): only a packet of length 0 asks for it, which no session
allows (log entry 9). -/
opaque freeType : Nat → Byte

end Config

end Sys2Proof
end

