-- ==== Sys2Proof/Machine/State.lean ====
section
/-! DEFINITION. The state of the FHLC as plain data (spec/10_state.md): every register of rule R51, the state the spec
implies (the latched poll clock of rule R190 c, the result of `TXWAIT`), and, because a step is a function of the state
alone, the configuration, the environment's inputs and the outputs.  Then the reasons a step can stop, and the state
after `RESET`. -/

namespace Sys2Proof.Machine

/-- The elements of one internal byte array that are listed: index and byte, indexes strictly rising, no element equal to
what an unlisted index reads as (`memWf`). -/
abbrev Memory := List Host.Cell

/-- The byte arrays of the FHLC (rule R60): `HOP`, `RXBUF`, `TXBUF`. -/
inductive Space where
  | hop
  | rxbuf
  | txbuf
  deriving DecidableEq, Repr

/-- What an unlisted element reads as: a hop-list entry is 0 (its reset value, rule R51), a buffer byte holds no value
(rules R46, R51). -/
def unlisted : Space → Option Byte
  | .hop => some 0#8
  | .rxbuf => none
  | .txbuf => none

/-- SessionParameters (rule R21). -/
structure SessionParams where
  /-- `sp_version`. -/
  version : Byte
  /-- `sp_serial_baud`. -/
  serialBaud : Word
  /-- `sp_rf_freq`. -/
  rfFreq : Word
  /-- `magic`. -/
  magic : Word
  /-- `sp_rf_power`. -/
  rfPower : Byte
  /-- `sp_ch_spacing`. -/
  chSpacing : Byte
  /-- `modem_idx`. -/
  modemIdx : Byte
  /-- `flags`. -/
  flags : Byte
  /-- `hop[0..MAXHOPS-1]` (rule R23). -/
  hop : Memory
  deriving DecidableEq, Repr

/-- RadioMode (rules R30, R97).  `available` is the reserved value no rule writes. -/
inductive RadioMode where
  | idle
  | transmitting
  | transmitted
  | receiving
  | received
  | available
  deriving DecidableEq, Repr

/-- The sequencer's position, the FHLC's program counter (rules R31, R98). -/
inductive Phase where
  | idle
  | health
  | rxproc
  | rssi
  | loss
  | hop
  | txwait
  deriving DecidableEq, Repr

/-- The result of a `SEND` (rule R202). -/
inductive TxResult where
  | sent
  | timeout
  deriving DecidableEq, Repr

/-- The refusal codes of rule R251. -/
inductive RefuseCode where
  | badOpcode
  | badReg
  | noValue
  | sessionLocked
  | noSession
  | badProfile
  | reservedCfg
  | badLength
  | badIndex
  | emptyHoplist
  | intervalRange
  | badMode
  | badValue
  | alreadyAttached
  | busy
  deriving DecidableEq, Repr

/-- The abstract transport actions of rule R64, with their arguments and results. -/
inductive Action where
  /-- `A_REINIT`, its argument the SessionParameters. -/
  | reinit (sp : SessionParams)
  /-- `A_RXFIFO_RESET`. -/
  | rxfifoReset
  /-- `A_IRQ_CLEAR`. -/
  | irqClear
  /-- `A_RXIRQ_EN`. -/
  | rxirqEn
  /-- `A_RXFIFO_READ` of `n` bytes and the bytes it returned. -/
  | rxfifoRead (n : Nat) (bytes : List Byte)
  /-- `A_AFC_READ` and the value it returned. -/
  | afcRead (v : Half)
  /-- `A_TXFIFO_WRITE` of the payload. -/
  | txfifoWrite (d : List Byte)
  /-- `A_TX_ON`. -/
  | txOn
  deriving DecidableEq, Repr

/-- One event of the transport trace `TT` (rule R66). -/
inductive TransportEvent where
  | claim
  | release
  | regWrite (a : Nat) (v : Byte)
  | regRead (a : Nat) (v : Byte)
  | act (a : Action)
  deriving DecidableEq, Repr

/-- The result byte of a command (rule R112): `SENT` is `OK`.  `ResultCode.code` gives the numbers. -/
inductive ResultCode where
  | ok
  | refused
  | timeout
  deriving DecidableEq, Repr

/-- One observable output (rule R18, rule R54), in the order they leave the block. -/
inductive Output where
  /-- A transport event (rule R66). -/
  | transport (e : TransportEvent)
  /-- The watchdog strobe `WDG_KICK` (rule R196). -/
  | wdgKick
  /-- The call `CONSUMER(cnt, values)` (rule R204). -/
  | consumer (cnt : BitVec 5) (values : List Half)
  /-- The answer to a command: its result byte and the value it returns (rules R103, R112). -/
  | reply (r : ResultCode) (value : List Byte)
  /-- "No wake needed": what `IRQ` returns to the interrupt source (rule R203). -/
  | noWake
  deriving DecidableEq, Repr

/-- What the environment presents between two operations. -/
inductive Presented where
  /-- The host presents bytes on the command port (rule R103). -/
  | cmd (frame : List Byte)
  /-- An edge on the `IRQ` pin (rule R254). -/
  | irq
  /-- The `RESET` pin (rule R290). -/
  | reset
  /-- The sequencer is made to run one micro-operation by its trace code: single-stepping through the UOP decomposition
  (rules R105, R274).  No host can do this. -/
  | uop (code : Byte)
  /-- Nothing is presented: the sequencer runs on by itself for one micro-operation. -/
  | tick
  deriving DecidableEq, Repr

/-- What may happen between two atomic steps inside an operation (rules R256, R258). -/
inductive Gap where
  | irq
  | reset
  /-- A command presented while an operation is in progress (`RC_BUSY`). -/
  | cmd (frame : List Byte)
  deriving DecidableEq, Repr

/-- The values the outside world will supply, in the order they are asked for: the clauses in braces of rule R110. -/
structure Inputs where
  /-- Samples of `CLK_US`. -/
  us : List Word
  /-- Samples of `CLK_MS`. -/
  ms : List Word
  /-- Bytes returned by `RegRead(REG_HEALTH)`. -/
  health : List Byte
  /-- Bytes returned by `RegRead(REG_RSSI)`. -/
  rssi : List Byte
  /-- Packets returned by `A_RXFIFO_READ`. -/
  pkt : List (List Byte)
  /-- Values returned by `A_AFC_READ`. -/
  afc : List Half
  deriving DecidableEq, Repr

/-- The state of the machine. -/
structure State where
  /-- The configuration parameters of rule R8; no step changes them (the MODEL's field, log entry 1). -/
  cfg : Config
  /-- SessionParameters (rule R21). -/
  sp : SessionParams
  /-- RadioMode (rule R30). -/
  mode : RadioMode
  /-- The sequencer's position (rule R31). -/
  phase : Phase
  /-- Current hop-table index (rule R33). -/
  idx : Byte
  /-- Number of valid hop-list entries (rule R34). -/
  hopcount : Byte
  /-- Count of consecutive lost packets (rule R35). -/
  lost : Byte
  /-- The quality bitmask, `QW` bits (rule R36): a natural below `2^QW`, since `QW` is a parameter. -/
  quality : Nat
  /-- Smoothed RSSI (rule R37). -/
  rssiSmooth : Byte
  /-- Raw RSSI accumulator (rule R38). -/
  rssiSum : Half
  /-- Raw RSSI count (rule R38). -/
  rssiCnt : Byte
  /-- Last-packet timestamp and baseline (rule R39). -/
  tLast : Word
  /-- The value `t_last` had at the last RSSI sample (rule R40). -/
  tRssi : Word
  /-- Loss-start timestamp (rule R41). -/
  tLoss : Word
  /-- Link-acquired flag (rule R42). -/
  acq : Bool
  /-- "Hop now" flag (rule R43). -/
  hopnow : Bool
  /-- A session is active (rules R24, R32). -/
  sessActive : Bool
  /-- A consumer is attached (rules R32, R179). -/
  consumerAttached : Bool
  /-- The cached expected interval in microseconds (rule R44). -/
  interval : Word
  /-- The last received packet (rule R46). -/
  rxbuf : Memory
  /-- The number of valid bytes of `rxbuf` (rule R46). -/
  rxLen : Byte
  /-- The payload of the last `TXSTART` (rule R46). -/
  txbuf : Memory
  /-- The number of valid bytes of `txbuf` (rule R46). -/
  txLen : Byte
  /-- The ChannelFrame's elements that hold a value (rule R47), signed 16-bit. -/
  frame : List Half
  /-- The number of channels of the last `UNPACK` (rule R47). -/
  frameCnt : BitVec 5
  /-- The last AFC reading (rule R48). -/
  afc : Half
  /-- `STATUS[0]`, `HANG` (rule R49). -/
  hang : Bool
  /-- `STATUS[1]`, `TXTO` (rule R49). -/
  txto : Bool
  /-- `STATUS[2]`, `REFUSED` (rule R49). -/
  refused : Bool
  /-- `REFUSE_CODE` (rule R49). -/
  refuseCode : Byte
  /-- `CLK_MS` at the start of the last `SEND` wait (rule R50). -/
  txT0 : Word
  /-- `now`: the clock value latched for the whole `POLL` (rules R190 c, R195). -/
  now : Word
  /-- What the last `TXWAIT` iteration returned, nothing while the wait goes on (rule R202). -/
  txRet : Option TxResult
  /-- The input values still to come (the MODEL's field, log entry 3). -/
  inputs : Inputs
  /-- How many free values have been drawn (the MODEL's field, log entry 3). -/
  draws : Nat
  /-- What the environment presents between operations, in order (the MODEL's field, log entry 4). -/
  agenda : List Presented
  /-- What happens before each coming atomic step inside operations, in order; past the list's end nothing happens (the
  MODEL's field, log entry 5). -/
  gaps : List (List Gap)
  /-- The outputs so far, oldest first (rule R18; the MODEL's field, log entry 6). -/
  out : List Output
  deriving DecidableEq, Repr

/-- Why a step stops the machine.  The FHLC itself has no trap (rule R250). -/
inductive Fault where
  /-- Raised by `step` when the bytes on the command port end before the frame their operation code and length operand
  fix (rule R103); the spec says nothing of such a string.  Safe: the model goes no further (log entry 8). -/
  | frameIncomplete
  deriving DecidableEq, Repr

/-- Why the model has no meaning for a step. -/
inductive Refusal where
  /-- Raised by `exec` for an operation without a meaning; no arm of this model uses it.  Safe. -/
  | notModelled (mnemonic : String)
  /-- Raised by `step` when the configuration breaks a constraint of rule R8 ("a configuration that breaks a constraint is
  refused by the model").  Safe. -/
  | badConfiguration
  deriving DecidableEq, Repr

/-- SessionParameters after `RESET`: every register 0 (rules R51, R52). -/
def SessionParams.zero : SessionParams where
  version := 0#8
  serialBaud := 0#32
  rfFreq := 0#32
  magic := 0#32
  rfPower := 0#8
  chSpacing := 0#8
  modemIdx := 0#8
  flags := 0#8
  hop := []

/-- No input value is named. -/
def Inputs.empty : Inputs where
  us := []
  ms := []
  health := []
  rssi := []
  pkt := []
  afc := []

/-- Every register at the value of rule R51's `reset` column, under the configuration `cfg`; nothing presented, nothing put
out. -/
def State.initial (cfg : Config) : State where
  cfg := cfg
  sp := SessionParams.zero
  mode := .idle
  phase := .idle
  idx := 0#8
  hopcount := 0#8
  lost := 0#8
  quality := 0
  rssiSmooth := 0#8
  rssiSum := 0#16
  rssiCnt := 0#8
  tLast := 0#32
  tRssi := 0#32
  tLoss := 0#32
  acq := false
  hopnow := false
  sessActive := false
  consumerAttached := false
  interval := 0#32
  rxbuf := []
  rxLen := 0#8
  txbuf := []
  txLen := 0#8
  frame := []
  frameCnt := 0#5
  afc := 0#16
  hang := false
  txto := false
  refused := false
  refuseCode := 0#8
  txT0 := 0#32
  now := 0#32
  txRet := none
  inputs := Inputs.empty
  draws := 0
  agenda := []
  gaps := []
  out := []

/-- The machine right after reset (rules R52, R290), as the instance TC1 (log entry 2). -/
def State.reset : State := State.initial Config.tc1

end Sys2Proof.Machine
end

