-- ==== Sys2Proof/Machine/Ops.lean ====
section
/-! DEFINITION. The named operations over the byte arrays, the outputs, the inputs and `mode`; atomic steps and what may
happen between them (rule R258); refusing an operation (rule R251), which is what this block has in place of taking an
exception; `IRQ` and `RESET` as the state changes they make.  There is no return from an exception: "There is no return
operation because nothing is entered" (rule R260). -/

namespace Sys2Proof.Machine

/-! ## The byte arrays (rule R60) -/

/-- The listed byte at an index. -/
def memGet : Memory → Nat → Option Byte
  | [], _ => none
  | (k, b) :: m, a => if k = a then some b else memGet m a

/-- List a byte at an index, keeping the indexes rising. -/
def memPut : Memory → Nat → Byte → Memory
  | [], a, v => [(a, v)]
  | (k, b) :: m, a, v =>
    if a < k then (a, v) :: (k, b) :: m
    else if a = k then (a, v) :: m
    else (k, b) :: memPut m a v

/-- List no byte at an index. -/
def memErase : Memory → Nat → Memory
  | [], _ => []
  | (k, b) :: m, a => if k = a then m else (k, b) :: memErase m a

/-- Reading one element: the listed byte, else what an unlisted element of the space reads as. -/
def memRead (sp : Space) (m : Memory) (a : Nat) : Option Byte := (memGet m a).or (unlisted sp)

/-- Writing one element, keeping the canonical form. -/
def memWrite (sp : Space) (m : Memory) (a : Nat) (v : Byte) : Memory :=
  if unlisted sp = some v then memErase m a else memPut m a v

/-- The bytes listed from index `k` on. -/
def memBlock : Nat → List Byte → Memory
  | _, [] => []
  | k, b :: r => (k, b) :: memBlock (k + 1) r

/-- The canonical form: indexes strictly rising, no element equal to what an unlisted one reads as. -/
def memWf (sp : Space) : Memory → Bool
  | [] => true
  | (k, b) :: m =>
    unlisted sp != some b && (match m with | [] => true | (k', _) :: _ => decide (k < k')) && memWf sp m

/-- `hop[i]` (rule R23). -/
def hopAt (hop : Memory) (i : Nat) : Byte := (memRead .hop hop i).getD 0#8

/-- Writing `hop[i]` (rule R176). -/
def hopPut (hop : Memory) (i : Nat) (v : Byte) : Memory := memWrite .hop hop i v

/-- A buffer after a block of bytes is written from index 0: the bytes beyond them hold no value (rule R46). -/
def bufferOf (bytes : List Byte) : Memory := memBlock 0 bytes

/-! ## Operations as sequences of atomic steps (rules R190 b, R258) -/

/-- How a sequence of steps ends: with a value, or abandoned by `RESET` (rule R290: "which is then abandoned without
result"). -/
inductive Ran (α : Type) where
  | done (a : α) (s : State)
  | abandoned (s : State)

/-- A sequence of steps of the poll sequencer. -/
abbrev Steps (α : Type) := State → Ran α

/-- The state a sequence leaves, whether it ended or was abandoned. -/
def final {α : Type} (m : Steps α) (s : State) : State :=
  match m s with
  | .done _ t => t
  | .abandoned t => t

/-- One sequence, then another that uses its value. -/
def andThen {α β : Type} (m : Steps α) (f : α → Steps β) : Steps β := fun s =>
  match m s with
  | .done a t => f a t
  | .abandoned t => .abandoned t

/-- Sequences one after another. -/
def inOrder : List (Steps Unit) → Steps Unit
  | [], s => .done () s
  | m :: ms, s =>
    match m s with
    | .done _ t => inOrder ms t
    | .abandoned t => .abandoned t

/-- A sequence that depends on the state as it stands. -/
def withState {α : Type} (f : State → Steps α) : Steps α := fun s => f s s

/-- A change of registers. -/
def update (f : State → State) : Steps Unit := fun s => .done () (f s)

/-- `steps` if the condition holds, else nothing. -/
def onlyIf (c : Bool) (steps : Steps Unit) : Steps Unit := fun s => if c then steps s else .done () s

/-- One more output. -/
def put (o : Output) (s : State) : State := { s with out := s.out ++ [o] }

/-- The numbers of the refusal codes (rule R251). -/
def RefuseCode.code : RefuseCode → Byte
  | .badOpcode => 0x01#8
  | .badReg => 0x02#8
  | .noValue => 0x03#8
  | .sessionLocked => 0x04#8
  | .noSession => 0x05#8
  | .badProfile => 0x06#8
  | .reservedCfg => 0x07#8
  | .badLength => 0x08#8
  | .badIndex => 0x09#8
  | .emptyHoplist => 0x0A#8
  | .intervalRange => 0x0B#8
  | .badMode => 0x0C#8
  | .badValue => 0x0D#8
  | .alreadyAttached => 0x0E#8
  | .busy => 0x0F#8

/-- The result byte of a command (rule R112): `SENT` is the byte of `OK`. -/
def ResultCode.code : ResultCode → Byte
  | .ok => 0x00#8
  | .refused => 0x01#8
  | .timeout => 0x02#8

/-- What every refusal records: `STATUS.REFUSED <- 1`, `REFUSE_CODE <- code` (rule R251). -/
def noteRefusal (c : RefuseCode) (s : State) : State :=
  { s with refused := true, refuseCode := c.code }

/-- The refusal of a command that is presented while an operation is in progress (rules R251, R256).  Within the instant in
which it stands its test, record and answer are one: an `IRQ` between them leaves what it leaves before them,
and a `RESET` between them what it leaves where the command is not presented at all (log entry 5). -/
def refuseBusy (s : State) : State := put (.reply .refused []) (noteRefusal .busy s)

/-- What an `IRQ` does to `mode` (rule R203). -/
def irqMode : RadioMode → RadioMode
  | .receiving => .received
  | .transmitting => .transmitted
  | .idle => .idle
  | .transmitted => .transmitted
  | .received => .received
  | .available => .available

/-- `IRQ`, one atomic step of the interrupt agent: `mode` only, and "no wake needed" to the interrupt source (rule R203). -/
def irqStep (s : State) : State := put .noWake { s with mode := irqMode s.mode }

/-- `RESET`: every register at its reset value.  What is no register stays: the configuration (rule R291), the inputs to
come, what the environment will present, and the outputs already made (rule R290: no transport call is made). -/
def resetRegisters (s : State) : State :=
  { State.initial s.cfg with
    inputs := s.inputs, draws := s.draws, agenda := s.agenda, gaps := s.gaps, out := s.out }

/-- What was to happen between two atomic steps, presented instead between operations. -/
def Gap.presented : Gap → Presented
  | .irq => .irq
  | .reset => .reset
  | .cmd frame => .cmd frame

/-- What happens between two atomic steps of an operation: `IRQ` edges are served; a command is refused (`RC_BUSY`);
`RESET` abandons the operation, and what was still to happen in this gap then stands between operations
(rules R251, R256, R258, R290).  DESIGN CHOICE (log entry 13): a presentation of no bytes, of which the spec says nothing, is
refused here as any other is. -/
def serveGap : List Gap → Steps Unit
  | [], s => .done () s
  | .irq :: g, s => serveGap g (irqStep s)
  | .cmd _ :: g, s => serveGap g (refuseBusy s)
  | .reset :: g, s => .abandoned { resetRegisters s with agenda := g.map Gap.presented ++ s.agenda }

/-- The instant before an atomic step: the gap that stands there is served (rule R258). -/
def atPoint : Steps Unit := fun s =>
  match s.gaps with
  | [] => .done () s
  | g :: rest => serveGap g { s with gaps := rest }

/-- One output, an atomic step. -/
def emit (o : Output) : Steps Unit := inOrder [atPoint, update (put o)]

/-- One transport event (rule R66). -/
def transport (e : TransportEvent) : Steps Unit := emit (.transport e)

/-- `RegWrite(a, v)` (rule R12). -/
def regWrite (a : Nat) (v : Byte) : Steps Unit := transport (.regWrite a v)

/-- `Act(name, args)` without a result (rule R64). -/
def act (a : Action) : Steps Unit := transport (.act a)

/-- `Act(A_REINIT, SessionParameters)` (rule R64). -/
def reinit : Steps Unit := withState fun s => act (.reinit s.sp)

/-- `WDG_KICK` (rule R196). -/
def wdgKick : Steps Unit := emit .wdgKick

/-- One atomic read of `mode` (rule R69). -/
def readMode : Steps RadioMode := andThen atPoint fun _ s => .done s.mode s

/-- One atomic write of `mode` (rule R69). -/
def writeMode (m : RadioMode) : Steps Unit := inOrder [atPoint, update fun s => { s with mode := m }]

/-- `phase <- p` (rule R13). -/
def setPhase (p : Phase) : Steps Unit := update fun s => { s with phase := p }

/-! ## Inputs: clock samples and read results (rules R14, R65) -/

/-- The next value of an input list, or the free value of this draw where the list names none: the value, the rest of
the list and the draw counter after it. -/
def supply {α : Type} (l : List α) (free : Nat → α) (n : Nat) : α × List α × Nat :=
  match l with
  | v :: r => (v, r, n)
  | [] => (free n, [], n + 1)

/-- A sample of `CLK_US` (rule R45). -/
def sampleUs : Steps Word := fun s =>
  let d := supply s.inputs.us Config.freeUs s.draws
  .done d.1 { s with inputs := { s.inputs with us := d.2.1 }, draws := d.2.2 }

/-- A sample of `CLK_MS` (rule R45). -/
def sampleMs : Steps Word := fun s =>
  let d := supply s.inputs.ms Config.freeMs s.draws
  .done d.1 { s with inputs := { s.inputs with ms := d.2.1 }, draws := d.2.2 }

/-- `RegRead(REG_HEALTH)` (rules R64, R65): the byte the transport returns, and the event. -/
def healthRead : Steps Byte := fun s =>
  let d := supply s.inputs.health Config.freeHealth s.draws
  .done d.1 (put (.transport (.regRead s.cfg.regHealth d.1))
    { s with inputs := { s.inputs with health := d.2.1 }, draws := d.2.2 })

/-- `RegRead(REG_RSSI)` (rules R64, R65). -/
def rssiRead : Steps Byte := fun s =>
  let d := supply s.inputs.rssi Config.freeRssi s.draws
  .done d.1 (put (.transport (.regRead s.cfg.regRssi d.1))
    { s with inputs := { s.inputs with rssi := d.2.1 }, draws := d.2.2 })

/-- `Act(A_AFC_READ)` (rules R64, R65). -/
def afcRead : Steps Half := fun s =>
  let d := supply s.inputs.afc Config.freeAfc s.draws
  .done d.1 (put (.transport (.act (.afcRead d.1)))
    { s with inputs := { s.inputs with afc := d.2.1 }, draws := d.2.2 })

/-- Exactly `n` bytes (rule R64: `A_RXFIFO_READ` returns `n` bytes): those given, the free ones of this draw past their
end, none beyond `n`. -/
def exactBytes (n draw : Nat) (bytes : List Byte) : List Byte :=
  (List.range n).map fun k => bytes.getD k (Config.freePacket draw k)

/-- `Act(A_RXFIFO_READ, n)` (rules R64, R65); each read is one draw. -/
def packetRead (n : Nat) : Steps (List Byte) := fun s =>
  let bytes := exactBytes n s.draws (s.inputs.pkt.headD [])
  .done bytes (put (.transport (.act (.rxfifoRead n bytes)))
    { s with inputs := { s.inputs with pkt := s.inputs.pkt.tail }, draws := s.draws + 1 })

/-- A read as an atomic step. -/
def reading {α : Type} (m : Steps α) : Steps α := andThen atPoint fun _ => m

/-- `elapsed(a, b) = (a - b) mod 2^TW` (rule R14). -/
def elapsed (a b : Word) : Word := a - b

/-! ## Commands and invoked operations -/

/-- The answer to a command: a result byte and the value it returns (rules R103, R112). -/
def reply (r : ResultCode) (value : State → List Byte) : Steps Unit :=
  withState fun s => emit (.reply r (value s))

/-- A command that returns no value. -/
def noValue (_ : State) : List Byte := []

/-- `refuse(code)` (rule R251): the record, then the result byte `REFUSED`; nothing else changes.  Each is an atomic step, so
an event can fall before either: a `RESET` takes the answer away (rules R256, R258, R290). -/
def refuse (c : RefuseCode) : Steps Unit := inOrder [atPoint, update (noteRefusal c), reply .refused noValue]

/-- A command's refusal tests, an atomic step since they read `mode` and the registers, then its refusal or its steps
(rules R251, R256, R258). -/
def tested (check : State → Option RefuseCode) (steps : Steps Unit) : Steps Unit := andThen atPoint fun _ s =>
  match check s with
  | some c => refuse c s
  | none => steps s

/-- A command: its refusal tests first (rule R256), then its steps, then its answer `OK` with the value it returns; before
the tests, before each step and before the answer stands an instant in which an event can fall (log entry 5). -/
def command (check : State → Option RefuseCode) (steps : List (Steps Unit)) (value : State → List Byte) (s : State) :
    State :=
  final (tested check (inOrder (steps ++ [reply .ok value]))) s

/-- A command that has no refusal test. -/
def neverRefused (_ : State) : Option RefuseCode := none

/-- An operation invoked in place by another (rule R190 d).  On the paths of the rules its tests never fail; in a state
that no run reaches, a failing test ends the invoked operation alone and is recorded (log entry 10). -/
def inPlace (check : State → Option RefuseCode) (steps : Steps Unit) : Steps Unit := fun s =>
  match check s with
  | some c => .done () (noteRefusal c s)
  | none => steps s

end Sys2Proof.Machine
end

