-- ==== Sys2Proof/Machine/Events.lean ====
section
/-! DEFINITION. The pin events: `IRQ` (rule R203 of spec/44_link_fsm.md) and `RESET` (rule R290 of
spec/70_reset_and_hazards.md). -/

namespace Sys2Proof.Machine

/-- `IRQ` (rule R203). -/
def execIrq (s : State) : Host.Outcome State Fault Refusal := .next (irqStep s)

/-- `RESET` (rule R290). -/
def execReset (s : State) : Host.Outcome State Fault Refusal := .next (resetRegisters s)

end Sys2Proof.Machine
end

