-- ==== Sys2Proof/Syntax.lean ====
section
/-! DEFINITION. The operations of the FHLC as syntax: one constructor for each row of spec/opcode_table.json
(rule R107 of spec/30_encoding.md), operands in the order of the command frame.  A length byte of a frame is the
length of the list operand it counts. -/

namespace Sys2Proof

/-- The 30 operations (rule R9): CMD, then EVT, then UOP. -/
inductive Instr where
  /-- `NOP` (R181). -/
  | nop
  /-- `WRREG rn, n, v` (R176): a register number and the value bytes, low byte first. -/
  | wrreg (rn : Half) (v : List Byte)
  /-- `RDREG rn` (R177). -/
  | rdreg (rn : Half)
  /-- `ATTACH` (R179). -/
  | attach
  /-- `PKTSIZE flags` (R121). -/
  | pktsize (flags : Byte)
  /-- `UNPACK cfg, L, p` (R122). -/
  | unpack (cfg : BitVec 3) (p : List Byte)
  /-- `PACK cfg, N, ch` (R123). -/
  | pack (cfg : BitVec 3) (ch : List Half)
  /-- `INTERVAL` (R141). -/
  | interval
  /-- `HOPCNT` (R151). -/
  | hopcnt
  /-- `ADVANCE` (R152). -/
  | advance
  /-- `PROGCH i` (R153). -/
  | progch (i : Byte)
  /-- `SETUP` (R191). -/
  | setup
  /-- `RXENTER` (R192). -/
  | rxenter
  /-- `TXSTART n, d` (R193). -/
  | txstart (d : List Byte)
  /-- `SEND n, d` (R194). -/
  | send (d : List Byte)
  /-- `POLL` (R195). -/
  | poll
  /-- `ENDSESS` (R180). -/
  | endsess
  /-- `IRQ` (R203). -/
  | irq
  /-- `RESET` (R290). -/
  | reset
  /-- `P1_HEALTH` (R197). -/
  | p1Health
  /-- `P2_RXPROC` (R198). -/
  | p2Rxproc
  /-- `P3_RSSI` (R199). -/
  | p3Rssi
  /-- `P4_LOSS` (R200). -/
  | p4Loss
  /-- `P5_HOP` (R201). -/
  | p5Hop
  /-- `TXWAIT` (R202). -/
  | txwait
  /-- `QHIT` (R230). -/
  | qhit
  /-- `QMISS` (R231). -/
  | qmiss
  /-- `QCLR` (R232). -/
  | qclr
  /-- `RSSISAMP` (R233). -/
  | rssisamp
  /-- `RSSICLR` (R234). -/
  | rssiclr
  deriving DecidableEq, Repr

/-- The three classes of operations (rule R9). -/
inductive OpClass where
  /-- A command the host presents on the command port. -/
  | cmd
  /-- An asynchronous event on a pin. -/
  | evt
  /-- An internal micro-operation. -/
  | uop
  deriving DecidableEq, Repr

end Sys2Proof
end

