-- ==== Sys2Proof/WellFormed.lean ====
section
/-! DEFINITION. Which terms of `Instr` a command frame can carry (rule R103): the length operand of `WRREG`, `UNPACK`,
`PACK`, `TXSTART` and `SEND` is one byte, so the list it counts has at most 255 elements. -/

namespace Sys2Proof

/-- The longest list a one-byte length operand can count (rule R103). -/
def maxCount : Nat := 255

/-- Whether the operation has a frame: every counted operand fits its length byte. -/
def Instr.wellFormed : Instr → Bool
  | .nop => true
  | .wrreg _ v => v.length ≤ maxCount
  | .rdreg _ => true
  | .attach => true
  | .pktsize _ => true
  | .unpack _ p => p.length ≤ maxCount
  | .pack _ ch => ch.length ≤ maxCount
  | .interval => true
  | .hopcnt => true
  | .advance => true
  | .progch _ => true
  | .setup => true
  | .rxenter => true
  | .txstart d => d.length ≤ maxCount
  | .send d => d.length ≤ maxCount
  | .poll => true
  | .endsess => true
  | .irq => true
  | .reset => true
  | .p1Health => true
  | .p2Rxproc => true
  | .p3Rssi => true
  | .p4Loss => true
  | .p5Hop => true
  | .txwait => true
  | .qhit => true
  | .qmiss => true
  | .qclr => true
  | .rssisamp => true
  | .rssiclr => true

end Sys2Proof
end

