-- ==== Sys2Proof/Decode.lean ====
section
/-! DEFINITION. The decoder of the operation formats, total on any bytes and rejecting by name, and after it the encoder,
both from rules R103 to R107 of spec/30_encoding.md.  The decoder reads every code of rule R107; whether a code may
stand on the command port is the command decode's business (rules R104, R105, R108; `Machine/Fetch.lean`). -/

namespace Sys2Proof

/-- Why bytes are not an operation. -/
inductive DecodeError where
  /-- No byte at all. -/
  | empty
  /-- Byte 0 is not a code of rule R107 (rule R108 a). -/
  | badOpcode
  /-- The operation code is known and the bytes end before its frame does (rule R103 fixes the length). -/
  | truncated
  deriving DecidableEq, Repr

/-- Two bytes, low byte first, as 16 bits (rule R106). -/
def half (lo hi : Byte) : Half := hi ++ lo

/-- The low byte of 16 bits. -/
def loByte (h : Half) : Byte := h.extractLsb' 0 8

/-- The high byte of 16 bits. -/
def hiByte (h : Half) : Byte := h.extractLsb' 8 8

/-- The `cfg` operand: bits 2:0 of its byte, bits 7:3 ignored (rule R106). -/
def cfgField (b : Byte) : BitVec 3 := b.extractLsb' 0 3

/-- The first `n` bytes and what follows them, or nothing where there are fewer. -/
def takeBytes : Nat → List Byte → Option (List Byte × List Byte)
  | 0, r => some ([], r)
  | _ + 1, [] => none
  | n + 1, b :: r => (takeBytes n r).map fun x => (b :: x.1, x.2)

/-- The first `n` two-byte values, low byte first, and what follows them. -/
def takeHalves : Nat → List Byte → Option (List Half × List Byte)
  | 0, r => some ([], r)
  | n + 1, lo :: hi :: r => (takeHalves n r).map fun x => (half lo hi :: x.1, x.2)
  | _ + 1, _ => none

/-- What the decoder answers: the operation and the bytes after its frame, or the reason there is none. -/
abbrev Decoded := Except DecodeError (Instr × List Byte)

/-- `WRREG rn_lo, rn_hi, n, v[0..n-1]` (rule R107). -/
def decodeWrreg : List Byte → Decoded
  | lo :: hi :: n :: r =>
    match takeBytes n.toNat r with
    | some (v, rest) => .ok (.wrreg (half lo hi) v, rest)
    | none => .error .truncated
  | _ => .error .truncated

/-- `RDREG rn_lo, rn_hi` (rule R107). -/
def decodeRdreg : List Byte → Decoded
  | lo :: hi :: rest => .ok (.rdreg (half lo hi), rest)
  | _ => .error .truncated

/-- `PKTSIZE flags` (rule R107). -/
def decodePktsize : List Byte → Decoded
  | f :: rest => .ok (.pktsize f, rest)
  | [] => .error .truncated

/-- `UNPACK cfg, L, p[0..L-1]` (rule R107). -/
def decodeUnpack : List Byte → Decoded
  | c :: n :: r =>
    match takeBytes n.toNat r with
    | some (p, rest) => .ok (.unpack (cfgField c) p, rest)
    | none => .error .truncated
  | _ => .error .truncated

/-- `PACK cfg, N, ch[0..N-1]`, two bytes each (rule R107). -/
def decodePack : List Byte → Decoded
  | c :: n :: r =>
    match takeHalves n.toNat r with
    | some (ch, rest) => .ok (.pack (cfgField c) ch, rest)
    | none => .error .truncated
  | _ => .error .truncated

/-- `PROGCH i` (rule R107). -/
def decodeProgch : List Byte → Decoded
  | i :: rest => .ok (.progch i, rest)
  | [] => .error .truncated

/-- `TXSTART n, d[0..n-1]` and `SEND n, d[0..n-1]` (rule R107), the operation given. -/
def decodePayload (op : List Byte → Instr) : List Byte → Decoded
  | n :: r =>
    match takeBytes n.toNat r with
    | some (d, rest) => .ok (op d, rest)
    | none => .error .truncated
  | [] => .error .truncated

/-- The operation map of rule R107: the code, then the operand bytes after it. -/
def decodeOp (code : Nat) (r : List Byte) : Decoded :=
  match code with
  | 0x00 => .ok (.nop, r)
  | 0x01 => decodeWrreg r
  | 0x02 => decodeRdreg r
  | 0x03 => .ok (.attach, r)
  | 0x10 => decodePktsize r
  | 0x11 => decodeUnpack r
  | 0x12 => decodePack r
  | 0x20 => .ok (.interval, r)
  | 0x30 => .ok (.hopcnt, r)
  | 0x31 => .ok (.advance, r)
  | 0x32 => decodeProgch r
  | 0x40 => .ok (.setup, r)
  | 0x41 => .ok (.rxenter, r)
  | 0x42 => decodePayload .txstart r
  | 0x43 => decodePayload .send r
  | 0x44 => .ok (.poll, r)
  | 0x45 => .ok (.endsess, r)
  | 0x80 => .ok (.irq, r)
  | 0x81 => .ok (.reset, r)
  | 0x90 => .ok (.p1Health, r)
  | 0x91 => .ok (.p2Rxproc, r)
  | 0x92 => .ok (.p3Rssi, r)
  | 0x93 => .ok (.p4Loss, r)
  | 0x94 => .ok (.p5Hop, r)
  | 0x95 => .ok (.txwait, r)
  | 0xA0 => .ok (.qhit, r)
  | 0xA1 => .ok (.qmiss, r)
  | 0xA2 => .ok (.qclr, r)
  | 0xA3 => .ok (.rssisamp, r)
  | 0xA4 => .ok (.rssiclr, r)
  | _ => .error .badOpcode

/-- The decoder: the operation at the front of the bytes, and the bytes after its frame (rules R103, R107). -/
def decode : List Byte → Decoded
  | [] => .error .empty
  | c :: r => decodeOp c.toNat r

/-- The class of each operation (rule R107's column). -/
def opClass : Instr → OpClass
  | .irq | .reset => .evt
  | .p1Health | .p2Rxproc | .p3Rssi | .p4Loss | .p5Hop | .txwait => .uop
  | .qhit | .qmiss | .qclr | .rssisamp | .rssiclr => .uop
  | .nop | .wrreg .. | .rdreg _ | .attach | .pktsize _ | .unpack .. | .pack .. | .interval => .cmd
  | .hopcnt | .advance | .progch _ | .setup | .rxenter | .txstart _ | .send _ | .poll | .endsess => .cmd

/-- The operation code (rule R107's first column). -/
def opcode : Instr → Byte
  | .nop => 0x00#8
  | .wrreg .. => 0x01#8
  | .rdreg _ => 0x02#8
  | .attach => 0x03#8
  | .pktsize _ => 0x10#8
  | .unpack .. => 0x11#8
  | .pack .. => 0x12#8
  | .interval => 0x20#8
  | .hopcnt => 0x30#8
  | .advance => 0x31#8
  | .progch _ => 0x32#8
  | .setup => 0x40#8
  | .rxenter => 0x41#8
  | .txstart _ => 0x42#8
  | .send _ => 0x43#8
  | .poll => 0x44#8
  | .endsess => 0x45#8
  | .irq => 0x80#8
  | .reset => 0x81#8
  | .p1Health => 0x90#8
  | .p2Rxproc => 0x91#8
  | .p3Rssi => 0x92#8
  | .p4Loss => 0x93#8
  | .p5Hop => 0x94#8
  | .txwait => 0x95#8
  | .qhit => 0xA0#8
  | .qmiss => 0xA1#8
  | .qclr => 0xA2#8
  | .rssisamp => 0xA3#8
  | .rssiclr => 0xA4#8

/-- A length operand: one byte (rule R103). -/
def countByte {α : Type} (l : List α) : Byte := BitVec.ofNat 8 l.length

/-- Channel values as bytes, low byte first (rule R106). -/
def halvesBytes : List Half → List Byte
  | [] => []
  | h :: r => loByte h :: hiByte h :: halvesBytes r

/-- The operand bytes after the code (rule R107's column); the unused bits 7:3 of a `cfg` byte are written 0. -/
def operands : Instr → List Byte
  | .wrreg rn v => loByte rn :: hiByte rn :: countByte v :: v
  | .rdreg rn => [loByte rn, hiByte rn]
  | .pktsize f => [f]
  | .unpack c p => c.setWidth 8 :: countByte p :: p
  | .pack c ch => c.setWidth 8 :: countByte ch :: halvesBytes ch
  | .progch i => [i]
  | .txstart d => countByte d :: d
  | .send d => countByte d :: d
  | .nop | .attach | .interval | .hopcnt | .advance | .setup | .rxenter | .poll | .endsess => []
  | .irq | .reset | .p1Health | .p2Rxproc | .p3Rssi | .p4Loss | .p5Hop | .txwait => []
  | .qhit | .qmiss | .qclr | .rssisamp | .rssiclr => []

/-- The frame of an operation: its code, then its operand bytes (rule R103). -/
def encode (i : Instr) : List Byte := opcode i :: operands i

/-- The longest frame in bytes: `PACK` with 255 channels (rule R107). -/
def maxFrame : Nat := 513

/-- The bytes of a table word: `nbits / 8` of them, byte 0 from bits 7:0, then zeros up to the longest frame. -/
def tableBytes (nbits w : Nat) : List Byte :=
  (List.range (nbits / 8)).map (fun k => BitVec.ofNat 8 (w / 2 ^ (8 * k))) ++
    List.replicate (maxFrame - nbits / 8) 0#8

/-- The operation this decoder reads from a table word, every bit above `nbits` being 0. -/
def decodeTableWord (nbits w : Nat) : Option Instr :=
  match decode (tableBytes nbits w) with
  | .ok (i, _) => some i
  | .error _ => none

/-- The bytes of a table word that are the frame itself: those the decoder consumed, or all of them where it refuses. -/
def tableFrame (nbits w : Nat) : List Byte :=
  match decode (tableBytes nbits w) with
  | .ok (_, rest) => (tableBytes nbits w).take ((tableBytes nbits w).length - rest.length)
  | .error _ => tableBytes nbits w

end Sys2Proof
end

