-- ==== Sys2Proof/Machine/Flags.lean ====
section
/-! DEFINITION. Every flag of the FHLC: the fields of the flags byte (rules R22, R91), `STATUS` and `LINKFLAGS` as the host
reads them (rules R49, R51), and the shifts of the quality bitmask (rules R99, R230 to R232).  There are no arithmetic
condition codes (rule R32). -/

namespace Sys2Proof.Machine

/-- `flags[2:0]`, the packing configuration `cfg` (rule R22). -/
def cfgOf (flags : Byte) : BitVec 3 := cfgField flags

/-- `div_en` (rule R22). -/
def divEn (cfg : Config) (flags : Byte) : Bool := flags &&& cfg.diversityMask != 0#8

/-- `tel_en` (rule R22): the telemetry field is not 0. -/
def telEn (cfg : Config) (flags : Byte) : Bool := flags &&& cfg.telemetryMask != 0#8

/-- A flag as bit `k` of a byte. -/
def flagBit (b : Bool) (k : Nat) : Byte := (BitVec.ofBool b).setWidth 8 <<< k

/-- `STATUS` (rule R49): bit 0 `HANG`, bit 1 `TXTO`, bit 2 `REFUSED`, bits 7:3 read 0. -/
def statusWord (s : State) : Byte := flagBit s.hang 0 ||| flagBit s.txto 1 ||| flagBit s.refused 2

/-- `LINKFLAGS` (rule R51): bit 0 `acq`, bit 1 `hopnow`, bit 2 `sess_active`, bit 3 `consumer_attached`, bits 7:4 read 0. -/
def linkFlagsWord (s : State) : Byte :=
  flagBit s.acq 0 ||| flagBit s.hopnow 1 ||| flagBit s.sessActive 2 ||| flagBit s.consumerAttached 3

/-- The quality mask after one more outcome: shifted left, the outcome in bit 0, `QW` bits kept (rules R99, R230, R231). -/
def qualityShift (qw quality : Nat) (received : Bool) : Nat := (2 * quality + received.toNat) % 2 ^ qw

end Sys2Proof.Machine
end

