-- ==== Sys2Proof/Machine/Operands.lean ====
section
/-! DEFINITION. The operand forms: register numbers (the register map, rule R51), register values as bytes low byte first
(rules R106, R176, R177). -/

namespace Sys2Proof.Machine

/-- RadioMode codes (rule R97). -/
def RadioMode.code : RadioMode → Nat
  | .idle => 0
  | .transmitting => 1
  | .transmitted => 2
  | .receiving => 3
  | .received => 4
  | .available => 5

/-- Phase codes (rule R98). -/
def Phase.code : Phase → Nat
  | .idle => 0
  | .health => 1
  | .rxproc => 2
  | .rssi => 3
  | .loss => 4
  | .hop => 5
  | .txwait => 6

/-- The registers of rule R51. -/
inductive Reg where
  | version
  | serialBaud
  | rfFreq
  | magic
  | rfPower
  | chSpacing
  | modemIdx
  | flags
  | mode
  | phase
  | idx
  | hopcount
  | lost
  | quality
  | rssiSmooth
  | rssiSum
  | rssiCnt
  | tLast
  | tRssi
  | tLoss
  | linkFlags
  | interval
  | afc
  | status
  | refuseCode
  | frameCnt
  | txT0
  | rxLen
  | txLen
  | hop (i : Nat)
  | frame (i : Nat)
  | rxbuf (i : Nat)
  | txbuf (i : Nat)
  deriving DecidableEq, Repr

/-- The registers with numbers below 0x0100 (rule R51). -/
def scalarReg (rn : Nat) : Option Reg :=
  match rn with
  | 0x0000 => some .version
  | 0x0001 => some .serialBaud
  | 0x0002 => some .rfFreq
  | 0x0003 => some .magic
  | 0x0004 => some .rfPower
  | 0x0005 => some .chSpacing
  | 0x0006 => some .modemIdx
  | 0x0007 => some .flags
  | 0x0010 => some .mode
  | 0x0011 => some .phase
  | 0x0012 => some .idx
  | 0x0013 => some .hopcount
  | 0x0014 => some .lost
  | 0x0015 => some .quality
  | 0x0016 => some .rssiSmooth
  | 0x0017 => some .rssiSum
  | 0x0018 => some .rssiCnt
  | 0x0019 => some .tLast
  | 0x001A => some .tRssi
  | 0x001B => some .tLoss
  | 0x001C => some .linkFlags
  | 0x001D => some .interval
  | 0x001E => some .afc
  | 0x001F => some .status
  | 0x0020 => some .refuseCode
  | 0x0021 => some .frameCnt
  | 0x0022 => some .txT0
  | 0x0023 => some .rxLen
  | 0x0024 => some .txLen
  | _ => none

/-- The element of an array range of the register map that starts at `base` and has `len` elements. -/
def elementAt (base len rn : Nat) (f : Nat → Reg) : Option Reg :=
  if base ≤ rn ∧ rn - base < len then some (f (rn - base)) else none

/-- The register a number names, if any (rule R51).  Where `RXBUF_LEN > 256` makes a number name both an `rxbuf` and a
`txbuf` element, it names the `txbuf` one (log entry 11). -/
def regOf (cfg : Config) (rn : Nat) : Option Reg :=
  (scalarReg rn).or ((elementAt 0x0100 cfg.maxHops rn .hop).or ((elementAt 0x0200 16 rn .frame).or
    ((elementAt 0x0400 cfg.txbufLen rn .txbuf).or (elementAt 0x0300 cfg.rxbufLen rn .rxbuf))))

/-- The width of a register in bits (rule R51). -/
def regWidth (cfg : Config) : Reg → Nat
  | .version | .rfPower | .chSpacing | .modemIdx | .flags => 8
  | .serialBaud | .rfFreq | .magic => 32
  | .mode | .phase => 3
  | .idx | .hopcount | .lost | .rssiSmooth | .rssiCnt | .linkFlags | .status | .refuseCode => 8
  | .rxLen | .txLen => 8
  | .quality => cfg.qw
  | .rssiSum | .afc => 16
  | .tLast | .tRssi | .tLoss | .interval | .txT0 => 32
  | .frameCnt => 5
  | .hop _ => 8
  | .frame _ => 16
  | .rxbuf _ => 8
  | .txbuf _ => 8

/-- Whether a register is marked RW* (rule R51): the SessionParameters. -/
def regWritable : Reg → Bool
  | .version | .serialBaud | .rfFreq | .magic | .rfPower | .chSpacing | .modemIdx | .flags | .hop _ => true
  | .mode | .phase | .idx | .hopcount | .lost | .quality | .rssiSmooth | .rssiSum | .rssiCnt => false
  | .tLast | .tRssi | .tLoss | .linkFlags | .interval | .afc | .status | .refuseCode | .frameCnt => false
  | .txT0 | .rxLen | .txLen | .frame _ | .rxbuf _ | .txbuf _ => false

/-- The value a register holds, if it holds one (rules R46, R47, R177). -/
def regValue (s : State) : Reg → Option Nat
  | .version => some s.sp.version.toNat
  | .serialBaud => some s.sp.serialBaud.toNat
  | .rfFreq => some s.sp.rfFreq.toNat
  | .magic => some s.sp.magic.toNat
  | .rfPower => some s.sp.rfPower.toNat
  | .chSpacing => some s.sp.chSpacing.toNat
  | .modemIdx => some s.sp.modemIdx.toNat
  | .flags => some s.sp.flags.toNat
  | .mode => some s.mode.code
  | .phase => some s.phase.code
  | .idx => some s.idx.toNat
  | .hopcount => some s.hopcount.toNat
  | .lost => some s.lost.toNat
  | .quality => some s.quality
  | .rssiSmooth => some s.rssiSmooth.toNat
  | .rssiSum => some s.rssiSum.toNat
  | .rssiCnt => some s.rssiCnt.toNat
  | .tLast => some s.tLast.toNat
  | .tRssi => some s.tRssi.toNat
  | .tLoss => some s.tLoss.toNat
  | .linkFlags => some (linkFlagsWord s).toNat
  | .interval => some s.interval.toNat
  | .afc => some s.afc.toNat
  | .status => some (statusWord s).toNat
  | .refuseCode => some s.refuseCode.toNat
  | .frameCnt => some s.frameCnt.toNat
  | .txT0 => some s.txT0.toNat
  | .rxLen => some s.rxLen.toNat
  | .txLen => some s.txLen.toNat
  | .hop i => some (hopAt s.sp.hop i).toNat
  | .frame i => if i < s.frameCnt.toNat then s.frame[i]?.map BitVec.toNat else none
  | .rxbuf i => if i < s.rxLen.toNat then (memRead .rxbuf s.rxbuf i).map BitVec.toNat else none
  | .txbuf i => if i < s.txLen.toNat then (memRead .txbuf s.txbuf i).map BitVec.toNat else none

/-- The SessionParameters after a write of `v` to a register of theirs, each value taken modulo its width (rules R11,
R176); no other register is host-writable. -/
def writeReg (sp : SessionParams) (v : Nat) : Reg → SessionParams
  | .version => { sp with version := BitVec.ofNat 8 v }
  | .serialBaud => { sp with serialBaud := BitVec.ofNat 32 v }
  | .rfFreq => { sp with rfFreq := BitVec.ofNat 32 v }
  | .magic => { sp with magic := BitVec.ofNat 32 v }
  | .rfPower => { sp with rfPower := BitVec.ofNat 8 v }
  | .chSpacing => { sp with chSpacing := BitVec.ofNat 8 v }
  | .modemIdx => { sp with modemIdx := BitVec.ofNat 8 v }
  | .flags => { sp with flags := BitVec.ofNat 8 v }
  | .hop i => { sp with hop := hopPut sp.hop i (BitVec.ofNat 8 v) }
  | .mode | .phase | .idx | .hopcount | .lost | .quality | .rssiSmooth | .rssiSum | .rssiCnt => sp
  | .tLast | .tRssi | .tLoss | .linkFlags | .interval | .afc | .status | .refuseCode | .frameCnt => sp
  | .txT0 | .rxLen | .txLen | .frame _ | .rxbuf _ | .txbuf _ => sp

/-- `ceil(width / 8)`: the bytes of a register value (rule R106). -/
def byteCount (width : Nat) : Nat := (width + 7) / 8

/-- The value of bytes, low byte first (rule R106). -/
def leValue : List Byte → Nat
  | [] => 0
  | b :: r => b.toNat + 256 * leValue r

/-- A value as `n` bytes, low byte first (rule R177). -/
def leBytes : Nat → Nat → List Byte
  | 0, _ => []
  | n + 1, v => BitVec.ofNat 8 v :: leBytes n (v / 256)

end Sys2Proof.Machine
end

