-- ==== Sys2Proof/Machine/HostPort.lean ====
section
/-! DEFINITION. The host-facing operations: `NOP`, `WRREG`, `RDREG`, `ATTACH`, `ENDSESS`
(spec/43_binding_boundary.md). -/

namespace Sys2Proof.Machine

/-- `NOP` (rule R181): no state change, result `OK`. -/
def execNop (s : State) : Host.Outcome State Fault Refusal :=
  .next (command neverRefused [] noValue s)

/-- The refusal tests of `WRREG` (rule R176), in its order. -/
def wrregCheck (rn : Half) (n : Nat) (s : State) : Option RefuseCode :=
  match regOf s.cfg rn.toNat with
  | none => some .badReg
  | some r =>
    if regWritable r = false then some .badReg
    else if s.sessActive then some .sessionLocked
    else if n ≠ byteCount (regWidth s.cfg r) then some .badLength
    else none

/-- The write of `WRREG` (rule R176). -/
def wrregWrite (rn : Half) (v : List Byte) (s : State) : State :=
  match regOf s.cfg rn.toNat with
  | none => s
  | some r => { s with sp := writeReg s.sp (leValue v) r }

/-- `WRREG rn, n, v` (rule R176). -/
def execWrreg (rn : Half) (v : List Byte) (s : State) : Host.Outcome State Fault Refusal :=
  .next (command (wrregCheck rn v.length) [update (wrregWrite rn v)] noValue s)

/-- The refusal tests of `RDREG` (rule R177). -/
def rdregCheck (rn : Half) (s : State) : Option RefuseCode :=
  match regOf s.cfg rn.toNat with
  | none => some .badReg
  | some r => if regValue s r = none then some .noValue else none

/-- The bytes `RDREG` returns (rule R177): the value at one instant, `ceil(width / 8)` bytes low byte first. -/
def rdregBytes (rn : Half) (s : State) : List Byte :=
  match regOf s.cfg rn.toNat with
  | none => []
  | some r => leBytes (byteCount (regWidth s.cfg r)) ((regValue s r).getD 0)

/-- `RDREG rn` (rule R177). -/
def execRdreg (rn : Half) (s : State) : Host.Outcome State Fault Refusal :=
  .next (command (rdregCheck rn) [] (rdregBytes rn) s)

/-- The refusal test of `ATTACH` (rule R179). -/
def attachCheck (s : State) : Option RefuseCode :=
  if s.consumerAttached then some .alreadyAttached else none

/-- `ATTACH` (rule R179). -/
def execAttach (s : State) : Host.Outcome State Fault Refusal :=
  .next (command attachCheck [update fun t => { t with consumerAttached := true }] noValue s)

/-- `ENDSESS` (rule R180): nothing changes but the two flags. -/
def execEndsess (s : State) : Host.Outcome State Fault Refusal :=
  .next (command neverRefused
    [update fun t => { t with sessActive := false, consumerAttached := false }] noValue s)

end Sys2Proof.Machine
end

