-- ==== Sys2Proof/Machine/Codec.lean ====
section
/-! DEFINITION. The Packet Codec: `PKTSIZE`, `UNPACK`, `PACK` (spec/40_packet_codec.md; formats G10 and AUX, rules R93 and
R94 of spec/30_encoding.md). -/

namespace Sys2Proof.Machine

/-- Field `k` of a byte of four 2-bit fields, field 0 in bits 1:0 (rule R93). -/
def field2 (b : Byte) (k : Nat) : BitVec 2 := b.extractLsb' (2 * k) 2

/-- One 10-bit channel: the 2-bit field above the low byte (rule R93), as a 16-bit value (rule R122). -/
def joinChannel (hi : BitVec 2) (lo : Byte) : Half := (hi ++ lo).setWidth 16

/-- The four channels of one 5-byte group (rule R93). -/
def unpackGroup (q0 q1 q2 q3 q4 : Byte) : List Half :=
  [joinChannel (field2 q4 0) q0, joinChannel (field2 q4 1) q1, joinChannel (field2 q4 2) q2,
    joinChannel (field2 q4 3) q3]

/-- The channels of the first `g` groups of a payload (rule R122). -/
def unpackGroups : Nat → List Byte → List Half
  | g + 1, q0 :: q1 :: q2 :: q3 :: q4 :: r => unpackGroup q0 q1 q2 q3 q4 ++ unpackGroups g r
  | _, _ => []

/-- The auxiliary channel law `s * 333 + 12` (rules R7, R94). -/
def auxChannel (s : BitVec 2) : Half := BitVec.ofNat 16 (333 * s.toNat + 12)

/-- The four channels of the auxiliary byte, the first in bits 7:6 (rule R94). -/
def unpackAux (a : Byte) : List Half :=
  [auxChannel (field2 a 3), auxChannel (field2 a 2), auxChannel (field2 a 1), auxChannel (field2 a 0)]

/-- The channels of a payload of configuration `c` (rule R122). -/
def unpackChannels (cfg : Config) (c : BitVec 3) (p : List Byte) : List Half :=
  let g := cfg.ngroupsOf c
  unpackGroups g p ++ (if Config.auxOf c = 1 then unpackAux ((p.drop (5 * g)).headD 0#8) else [])

/-- The refusal tests of `UNPACK` (rule R122). -/
def unpackCheck (cfg : Config) (c : BitVec 3) (len : Nat) : Option RefuseCode :=
  if c = cfg.reservedCfg then some .reservedCfg
  else if len ≠ cfg.payloadLen c then some .badLength
  else none

/-- The writes of `UNPACK`: `frame` and `frame_cnt`; elements at or beyond `frame_cnt` hold no value (rules R47, R122). -/
def unpackWrite (c : BitVec 3) (p : List Byte) (s : State) : State :=
  { s with frame := unpackChannels s.cfg c p, frameCnt := BitVec.ofNat 5 (s.cfg.channelCount c) }

/-- The 2-bit field of a channel value, bits 9:8 (rule R123). -/
def topBits (ch : Half) : BitVec 2 := ch.extractLsb' 8 2

/-- The 5 bytes of one group of four channels (rule R123). -/
def packGroup (c0 c1 c2 c3 : Half) : List Byte :=
  [loByte c0, loByte c1, loByte c2, loByte c3, topBits c3 ++ topBits c2 ++ topBits c1 ++ topBits c0]

/-- The bytes of the first `g` groups of channels (rule R123). -/
def packGroups : Nat → List Half → List Byte
  | g + 1, c0 :: c1 :: c2 :: c3 :: r => packGroup c0 c1 c2 c3 ++ packGroups g r
  | _, _ => []

/-- The quantiser `Q` of rule R123. -/
def quantise (v : Half) : BitVec 2 :=
  if v.toNat ≤ 178 then 0#2
  else if v.toNat ≤ 511 then 1#2
  else if v.toNat ≤ 844 then 2#2
  else 3#2

/-- The auxiliary byte of four channel values (rule R123). -/
def packAux : List Half → List Byte
  | a0 :: a1 :: a2 :: a3 :: _ => [quantise a0 ++ quantise a1 ++ quantise a2 ++ quantise a3]
  | _ => []

/-- The payload of a list of channels of configuration `c` (rule R123). -/
def packPayload (cfg : Config) (c : BitVec 3) (ch : List Half) : List Byte :=
  let g := cfg.ngroupsOf c
  packGroups g ch ++ (if Config.auxOf c = 1 then packAux (ch.drop (4 * g)) else [])

/-- The refusal tests of `PACK` (rule R123): only the 10-bit channels are range checked. -/
def packCheck (cfg : Config) (c : BitVec 3) (ch : List Half) : Option RefuseCode :=
  if c = cfg.reservedCfg then some .reservedCfg
  else if ch.length ≠ cfg.channelCount c then some .badLength
  else if (ch.take (4 * cfg.ngroupsOf c)).any (fun v => 1023 < v.toNat) then some .badValue
  else none

/-- `PKTSIZE flags` (rule R121). -/
def execPktsize (flags : Byte) (s : State) : Host.Outcome State Fault Refusal :=
  .next (command neverRefused [] (fun t => [BitVec.ofNat 8 (t.cfg.pktsizeOf (cfgOf flags))]) s)

/-- `UNPACK cfg, L, p` (rule R122): it returns `frame_cnt`. -/
def execUnpack (c : BitVec 3) (p : List Byte) (s : State) : Host.Outcome State Fault Refusal :=
  .next (command (fun t => unpackCheck t.cfg c p.length) [update (unpackWrite c p)]
    (fun t => [t.frameCnt.setWidth 8]) s)

/-- What `PACK` returns: `L`, then the payload bytes (rule R123). -/
def packReply (cfg : Config) (c : BitVec 3) (ch : List Half) : List Byte :=
  let p := packPayload cfg c ch
  countByte p :: p

/-- `PACK cfg, N, ch` (rule R123). -/
def execPack (c : BitVec 3) (ch : List Half) (s : State) : Host.Outcome State Fault Refusal :=
  .next (command (fun t => packCheck t.cfg c ch) [] (fun t => packReply t.cfg c ch) s)

end Sys2Proof.Machine
end

