-- ==== Sys2Proof/Machine/Hop.lean ====
section
/-! DEFINITION. The Hop Sequencer: `HOPCNT`, `ADVANCE`, `PROGCH` (spec/42_hop_sequencer.md). -/

namespace Sys2Proof.Machine

/-- The scan of rule R151 from index `c`, with at most `fuel` entries still to look at. -/
def hopScan (hop : Memory) (c : Nat) : Nat → Nat
  | 0 => c
  | fuel + 1 => if hopAt hop c = 0#8 then c else hopScan hop (c + 1) fuel

/-- The number of entries before the first zero or `MAXHOPS` (rule R151). -/
def hopCount (hop : Memory) (maxHops : Nat) : Nat := hopScan hop 0 maxHops

/-- The write of `HOPCNT` (rule R151). -/
def hopcntWrite (s : State) : State :=
  { s with hopcount := BitVec.ofNat 8 (hopCount s.sp.hop s.cfg.maxHops) }

/-- The index after `idx` (rule R152): it wraps at `hopcount`, at `MAXHOPS` and at the zero sentinel. -/
def nextIndex (cfg : Config) (hop : Memory) (hopcount idx : Byte) : Byte :=
  let n := idx.toNat + 1
  if n = hopcount.toNat ∨ n = cfg.maxHops ∨ hopAt hop n = 0#8 then 0#8 else BitVec.ofNat 8 n

/-- The write of `ADVANCE` (rule R152). -/
def advanceWrite (s : State) : State :=
  { s with idx := nextIndex s.cfg s.sp.hop s.hopcount s.idx }

/-- The header byte `magic[7:0] ^ i` (rule R95). -/
def headerByte (magic : Word) (i : Byte) : Byte := magic.extractLsb' 0 8 ^^^ i

/-- The refusal test of `PROGCH` (rule R153). -/
def progchCheck (i : Byte) (s : State) : Option RefuseCode :=
  if s.cfg.maxHops ≤ i.toNat then some .badIndex else none

/-- The transport events of `PROGCH i` (rule R153). -/
def progchSteps (i : Byte) : Steps Unit := withState fun s =>
  inOrder [
    transport .claim,
    regWrite s.cfg.regChsel (hopAt s.sp.hop i.toNat),
    regWrite s.cfg.regTxhdr (headerByte s.sp.magic i),
    regWrite s.cfg.regRxhdr (headerByte s.sp.magic i),
    transport .release]

/-- `PROGCH(i)` invoked by another operation (rule R190 d). -/
def progch (i : Byte) : Steps Unit := inPlace (progchCheck i) (progchSteps i)

/-- `HOPCNT` (rule R151): it returns `hopcount`. -/
def execHopcnt (s : State) : Host.Outcome State Fault Refusal :=
  .next (command neverRefused [update hopcntWrite] (fun t => [t.hopcount]) s)

/-- `ADVANCE` (rule R152): it returns `idx`. -/
def execAdvance (s : State) : Host.Outcome State Fault Refusal :=
  .next (command neverRefused [update advanceWrite] (fun t => [t.idx]) s)

/-- `PROGCH i` (rule R153). -/
def execProgch (i : Byte) (s : State) : Host.Outcome State Fault Refusal :=
  .next (command (progchCheck i) [progchSteps i] noValue s)

end Sys2Proof.Machine
end

