-- ==== Sys2Proof/Machine/Quality.lean ====
section
/-! DEFINITION. The quality bitmask and the RSSI filter: `QHIT`, `QMISS`, `QCLR`, `RSSISAMP`, `RSSICLR`
(spec/45_rssi_quality.md). -/

namespace Sys2Proof.Machine

/-- `quality <- ((quality << 1) | 1) mod 2^QW` (rule R230). -/
def qhit (s : State) : State := { s with quality := qualityShift s.cfg.qw s.quality true }

/-- `quality <- (quality << 1) mod 2^QW` (rule R231). -/
def qmiss (s : State) : State := { s with quality := qualityShift s.cfg.qw s.quality false }

/-- `quality <- 0` (rule R232). -/
def qclr (s : State) : State := { s with quality := 0 }

/-- The average of nine samples (rule R233): floor division. -/
def rssiAverage (sum : Half) : Nat := sum.toNat / Config.rssiNsamp

/-- The smoothing update `(smoothed*3 + avg) div 4` (rule R233). -/
def rssiSmoothed (smooth : Byte) (avg : Nat) : Byte := BitVec.ofNat 8 ((3 * smooth.toNat + avg) / 4)

/-- Accumulating one sample and, on the ninth, the smoothing update (rule R233). -/
def rssiAccumulate (v : Byte) (s : State) : State :=
  let sum := s.rssiSum + v.setWidth 16
  let cnt := s.rssiCnt + 1#8
  if cnt.toNat = Config.rssiNsamp then
    { s with rssiSum := 0#16, rssiCnt := 0#8, rssiSmooth := rssiSmoothed s.rssiSmooth (rssiAverage sum) }
  else { s with rssiSum := sum, rssiCnt := cnt }

/-- `RSSISAMP` invoked by `P3_RSSI` (rule R233). -/
def rssisamp : Steps Unit := andThen (reading rssiRead) fun v => update (rssiAccumulate v)

/-- `rssi_smooth <- 0`; the accumulator is not touched (rule R234). -/
def rssiclr (s : State) : State := { s with rssiSmooth := 0#8 }

/-- `QHIT` (rule R230). -/
def execQhit (s : State) : Host.Outcome State Fault Refusal := .next (qhit s)

/-- `QMISS` (rule R231). -/
def execQmiss (s : State) : Host.Outcome State Fault Refusal := .next (qmiss s)

/-- `QCLR` (rule R232). -/
def execQclr (s : State) : Host.Outcome State Fault Refusal := .next (qclr s)

/-- `RSSISAMP` (rule R233). -/
def execRssisamp (s : State) : Host.Outcome State Fault Refusal := .next (final rssisamp s)

/-- `RSSICLR` (rule R234). -/
def execRssiclr (s : State) : Host.Outcome State Fault Refusal := .next (rssiclr s)

end Sys2Proof.Machine
end

