-- ==== Sys2Proof/Machine/Timing.lean ====
section
/-! DEFINITION. The Timing Model: `INTERVAL` (spec/41_timing_model.md). -/

namespace Sys2Proof.Machine

/-- The air-time function `B(n, d, br)` of rule R140, in microseconds: one floor division of naturals. -/
def airTime (n : Nat) (diversity : Bool) (br : Nat) : Nat :=
  Config.kBaud * (n + Config.overhead diversity) / br

/-- The sum of rule R141 before rounding. -/
def intervalSum (cfg : Config) (flags : Byte) (br : Nat) : Nat :=
  airTime (cfg.pktsizeOf (cfgOf flags)) (divEn cfg flags) br + Config.marginMain +
    (if telEn cfg flags then
      airTime cfg.telemetryPacketsize (divEn cfg flags) br + Config.marginTelem
    else 0)

/-- Rounding up to a whole millisecond (rule R141). -/
def ceilMs (r : Nat) : Nat := 1000 * ((r + 999) / 1000)

/-- `expectedIntervalMicros` of the SessionParameters (rule R141). -/
def intervalOf (cfg : Config) (sp : SessionParams) : Nat :=
  ceilMs (intervalSum cfg sp.flags (cfg.bitrateOf sp.modemIdx.toNat))

/-- The refusal tests of `INTERVAL` (rule R141). -/
def intervalCheck (s : State) : Option RefuseCode :=
  if s.cfg.nprofiles ≤ s.sp.modemIdx.toNat then some .badProfile
  else if 2 ^ 31 ≤ intervalOf s.cfg s.sp then some .intervalRange
  else none

/-- The write of `INTERVAL` (rule R141). -/
def intervalWrite (s : State) : State := { s with interval := BitVec.ofNat 32 (intervalOf s.cfg s.sp) }

/-- `INTERVAL` (rule R141): it returns `interval`, low byte first (log entry 12). -/
def execInterval (s : State) : Host.Outcome State Fault Refusal :=
  .next (command intervalCheck [update intervalWrite] (fun t => leBytes 4 t.interval.toNat) s)

end Sys2Proof.Machine
end

