-- ==== Sys2Proof/Machine/Link.lean ====
section
/-! DEFINITION. The Link State Machine: `SETUP`, `RXENTER`, `TXSTART`, `SEND`, `POLL`, its five phases and `TXWAIT`
(spec/44_link_fsm.md). -/

namespace Sys2Proof.Machine

/-! ## Mode operations -/

/-- `RXENTER` (rule R192): `mode` first, then the three actions. -/
def rxenter : Steps Unit :=
  inOrder [writeMode .receiving, act .rxfifoReset, act .irqClear, act .rxirqEn]

/-- The modes a transmission may start from (rule R193). -/
def txAllowed (cfg : Config) (m : RadioMode) : Bool :=
  m == .idle || m == .receiving || (cfg.txFromReceived && m == .received)

/-- The refusal tests of `TXSTART` and `SEND` (rule R193): the mode, then the length. -/
def txCheck (n : Nat) (s : State) : Option RefuseCode :=
  if txAllowed s.cfg s.mode = false then some .badMode
  else if n = 0 ∨ s.cfg.txbufLen < n then some .badLength
  else none

/-- `txbuf[0..n-1] <- d; tx_len <- n` (rule R193). -/
def txLoad (d : List Byte) (s : State) : State :=
  { s with txbuf := bufferOf d, txLen := BitVec.ofNat 8 d.length }

/-- The steps of `TXSTART` after its tests (rule R193). -/
def txstartSteps (d : List Byte) : Steps Unit :=
  inOrder [update (txLoad d), act (.txfifoWrite d), writeMode .transmitting, act .txOn]

/-- The steps of `SEND` up to its wait (rule R194): the wait itself is one `TXWAIT` after another, each a step of the
sequencer while `phase = PH_TXWAIT` (log entry 7). -/
def sendSteps (d : List Byte) : Steps Unit :=
  inOrder [
    txstartSteps d,
    andThen (reading sampleMs) fun t => update fun s => { s with txT0 := t, txRet := none, phase := .txwait }]

/-- What one iteration of the wait decides from `mode` and `CLK_MS` (rule R202): completion before the deadline. -/
def txDecide (m : RadioMode) (t t0 : Word) : Option TxResult :=
  if m = .transmitted then some .sent
  else if Config.txTimeoutMs ≤ (elapsed t t0).toNat then some .timeout
  else none

/-- The registers an iteration writes: its result, and `STATUS.TXTO` on a timeout (rule R202). -/
def txwaitWrite (m : RadioMode) (t : Word) (s : State) : State :=
  { s with
    txRet := txDecide m t s.txT0
    txto := s.txto || txDecide m t s.txT0 == some .timeout }

/-- `TXWAIT` (rule R202): one iteration; no result is "sleep; stay in PH_TXWAIT". -/
def txwait : Steps Unit :=
  inOrder [wdgKick, andThen readMode fun m => andThen (reading sampleMs) fun t => update (txwaitWrite m t)]

/-! ## Session setup -/

/-- The refusal tests of `SETUP` (rule R191), in its order. -/
def setupCheck (s : State) : Option RefuseCode :=
  if cfgOf s.sp.flags = s.cfg.reservedCfg then some .reservedCfg
  else if s.cfg.nprofiles ≤ s.sp.modemIdx.toNat then some .badProfile
  else if hopAt s.sp.hop 0 = 0#8 then some .emptyHoplist
  else if intervalCheck s ≠ none then some .intervalRange
  else none

/-- The register writes of `SETUP` (rule R191) after `HOPCNT` and `INTERVAL`, `now` the clock sample. -/
def setupInit (now : Word) (s : State) : State :=
  { s with
    idx := 0#8, lost := 0#8, quality := 0,
    rssiSmooth := 0#8, rssiSum := 0#16, rssiCnt := 0#8,
    tLast := now, tRssi := now, tLoss := 0#32,
    acq := false, hopnow := false, sessActive := true }

/-- The steps of `SETUP` after its tests (rule R191). -/
def setupSteps : Steps Unit :=
  inOrder [
    update hopcntWrite,
    update intervalWrite,
    andThen (reading sampleUs) fun now => update (setupInit now),
    reinit,
    progch 0#8,
    rxenter]

/-! ## The poll cycle -/

/-- `P1_HEALTH` (rule R197). -/
def p1Health : Steps Unit :=
  andThen (reading healthRead) fun v => onlyIf (v == Config.hungSentinel) (inOrder [
    update fun s => { s with hang := true },
    reinit,
    withState fun s => progch s.idx,
    rxenter])

/-- Whether a packet is channel data (rule R92): `(rxbuf[0] & TYPE_MASK) = TYPE_CHANNEL`. -/
def isChannelData (cfg : Config) (type : Byte) : Bool := type &&& cfg.typeMask == cfg.typeChannel

/-- The registers `P2_RXPROC` writes when the packet and the AFC value are in (rule R198). -/
def rxRecord (s : State) : State := qhit { s with tLast := s.now, lost := 0#8 }

/-- `rxbuf[0..n-1] <- bytes; rx_len <- n` (rule R198). -/
def rxStore (bytes : List Byte) (s : State) : State :=
  { s with rxbuf := bufferOf bytes, rxLen := BitVec.ofNat 8 bytes.length }

/-- The type byte of a packet, `rxbuf[0]`; a free value where `rxbuf` holds no byte (log entry 9). -/
def typeByte (bytes : List Byte) : Steps Byte := fun s =>
  match bytes with
  | b :: _ => .done b s
  | [] => .done (Config.freeType s.draws) { s with draws := s.draws + 1 }

/-- `UNPACK` in place (rule R198). -/
def unpackInPlace (c : BitVec 3) (p : List Byte) : Steps Unit :=
  inPlace (fun s => unpackCheck s.cfg c p.length) (update (unpackWrite c p))

/-- The call of the consumer, if one is attached (rules R198, R204). -/
def consumerCall : Steps Unit := withState fun s =>
  onlyIf s.consumerAttached (emit (.consumer s.frameCnt s.frame))

/-- Decoding a packet that is channel data and handing the channels over (rules R198, R204). -/
def rxDecode (bytes : List Byte) : Steps Unit := withState fun s =>
  andThen (typeByte bytes) fun ty => onlyIf (isChannelData s.cfg ty) (inOrder [
    unpackInPlace (cfgOf s.sp.flags) (bytes.drop s.cfg.payloadOff),
    consumerCall])

/-- The body of `P2_RXPROC` when `mode = Received` (rule R198). -/
def rxPacket : Steps Unit := withState fun s =>
  andThen (reading (packetRead (s.cfg.pktsizeOf (cfgOf s.sp.flags)))) fun bytes => inOrder [
    update (rxStore bytes),
    andThen (reading afcRead) fun v => update fun t => { t with afc := v },
    update rxRecord,
    rxDecode bytes,
    update fun t => { t with acq := true },
    rxenter,
    update fun t => { t with hopnow := true }]

/-- `P2_RXPROC` (rule R198). -/
def p2Rxproc : Steps Unit := andThen readMode fun m => onlyIf (m == .received) rxPacket

/-- The condition of `P3_RSSI` (rule R199); `e ≥ interval - 1500` over the integers. -/
def rssiDue (s : State) : Bool :=
  decide (s.lost.toNat < Config.rssiLossLimit) &&
    decide (s.interval.toNat ≤ (elapsed s.now s.tLast).toNat + Config.rssiLead) &&
    (!s.cfg.rssiOnce || s.tRssi != s.tLast)

/-- `P3_RSSI` (rule R199). -/
def p3Rssi : Steps Unit := withState fun s =>
  onlyIf (rssiDue s) (inOrder [update fun t => { t with tRssi := t.tLast }, rssisamp])

/-- A missed packet (rule R200, first case). -/
def lossMiss (s : State) : State :=
  { qmiss s with
    tLoss := if s.lost = 0#8 then s.now else s.tLoss,
    lost := s.lost + 1#8, tLast := s.tLast + s.interval, hopnow := true }

/-- The full resync (rule R200, second case). -/
def lossResync (s : State) : State :=
  { rssiclr (qclr s) with hopnow := true, tLast := s.now }

/-- The scanning hop (rule R200, third case). -/
def lossScan (s : State) : State := { s with tLast := s.now, hopnow := true }

/-- `P4_LOSS` (rule R200), the comparisons in the naturals (rule R144). -/
def lossPolicy (s : State) : State :=
  let e := (elapsed s.now s.tLast).toNat
  if s.acq then
    if s.lost.toNat < s.hopcount.toNat ∧ s.interval.toNat + Config.lossMargin < e then lossMiss s
    else if s.lost = s.hopcount ∧ s.interval.toNat * s.hopcount.toNat < e then lossResync s
    else s
  else if s.interval.toNat * s.hopcount.toNat < e then lossScan s
  else s

/-- `P5_HOP` (rule R201). -/
def p5Hop : Steps Unit := withState fun s =>
  onlyIf s.hopnow (inOrder [
    update advanceWrite,
    withState fun t => progch t.idx,
    update fun t => { t with hopnow := false }])

/-- The refusal test of `POLL` (rule R195). -/
def pollCheck (s : State) : Option RefuseCode := if s.sessActive then none else some .noSession

/-- The steps of `POLL` (rule R195): the watchdog, one clock sample latched for the whole poll, the five phases in order. -/
def pollSteps : Steps Unit :=
  inOrder [
    wdgKick,
    andThen (reading sampleUs) fun now => update fun s => { s with now := now },
    setPhase .health, p1Health,
    setPhase .rxproc, p2Rxproc,
    setPhase .rssi, p3Rssi,
    setPhase .loss, update lossPolicy,
    setPhase .hop, p5Hop,
    setPhase .idle]

/-! ## The meanings -/

/-- `SETUP` (rule R191). -/
def execSetup (s : State) : Host.Outcome State Fault Refusal :=
  .next (command setupCheck [setupSteps] noValue s)

/-- `RXENTER` (rule R192). -/
def execRxenter (s : State) : Host.Outcome State Fault Refusal :=
  .next (command neverRefused [rxenter] noValue s)

/-- `TXSTART n, d` (rule R193). -/
def execTxstart (d : List Byte) (s : State) : Host.Outcome State Fault Refusal :=
  .next (command (txCheck d.length) [txstartSteps d] noValue s)

/-- `SEND n, d` (rule R194): it starts the transmission and the wait; the answer comes when a `TXWAIT` iteration returns
(`resume`, log entry 7). -/
def execSend (d : List Byte) (s : State) : Host.Outcome State Fault Refusal :=
  .next (final (tested (txCheck d.length) (sendSteps d)) s)

/-- `POLL` (rule R195). -/
def execPoll (s : State) : Host.Outcome State Fault Refusal :=
  .next (command pollCheck [pollSteps] noValue s)

/-- `P1_HEALTH` (rule R197). -/
def execP1Health (s : State) : Host.Outcome State Fault Refusal := .next (final p1Health s)

/-- `P2_RXPROC` (rule R198). -/
def execP2Rxproc (s : State) : Host.Outcome State Fault Refusal := .next (final p2Rxproc s)

/-- `P3_RSSI` (rule R199). -/
def execP3Rssi (s : State) : Host.Outcome State Fault Refusal := .next (final p3Rssi s)

/-- `P4_LOSS` (rule R200). -/
def execP4Loss (s : State) : Host.Outcome State Fault Refusal := .next (lossPolicy s)

/-- `P5_HOP` (rule R201). -/
def execP5Hop (s : State) : Host.Outcome State Fault Refusal := .next (final p5Hop s)

/-- `TXWAIT` (rule R202). -/
def execTxwait (s : State) : Host.Outcome State Fault Refusal := .next (final txwait s)

end Sys2Proof.Machine
end

