-- ==== Sys2Proof/Machine/Dispatch.lean ====
section
/-! DEFINITION. The meaning of every operation: one arm per row of spec/opcode_table.json, each a call of its own
definition. -/

namespace Sys2Proof.Machine

def exec (i : Instr) (s : State) : Host.Outcome State Fault Refusal :=
  match i with
  | .nop => Sys2Proof.Machine.execNop s
  | .wrreg rn v => Sys2Proof.Machine.execWrreg rn v s
  | .rdreg rn => Sys2Proof.Machine.execRdreg rn s
  | .attach => Sys2Proof.Machine.execAttach s
  | .pktsize flags => Sys2Proof.Machine.execPktsize flags s
  | .unpack c p => Sys2Proof.Machine.execUnpack c p s
  | .pack c ch => Sys2Proof.Machine.execPack c ch s
  | .interval => Sys2Proof.Machine.execInterval s
  | .hopcnt => Sys2Proof.Machine.execHopcnt s
  | .advance => Sys2Proof.Machine.execAdvance s
  | .progch k => Sys2Proof.Machine.execProgch k s
  | .setup => Sys2Proof.Machine.execSetup s
  | .rxenter => Sys2Proof.Machine.execRxenter s
  | .txstart d => Sys2Proof.Machine.execTxstart d s
  | .send d => Sys2Proof.Machine.execSend d s
  | .poll => Sys2Proof.Machine.execPoll s
  | .endsess => Sys2Proof.Machine.execEndsess s
  | .irq => Sys2Proof.Machine.execIrq s
  | .reset => Sys2Proof.Machine.execReset s
  | .p1Health => Sys2Proof.Machine.execP1Health s
  | .p2Rxproc => Sys2Proof.Machine.execP2Rxproc s
  | .p3Rssi => Sys2Proof.Machine.execP3Rssi s
  | .p4Loss => Sys2Proof.Machine.execP4Loss s
  | .p5Hop => Sys2Proof.Machine.execP5Hop s
  | .txwait => Sys2Proof.Machine.execTxwait s
  | .qhit => Sys2Proof.Machine.execQhit s
  | .qmiss => Sys2Proof.Machine.execQmiss s
  | .qclr => Sys2Proof.Machine.execQclr s
  | .rssisamp => Sys2Proof.Machine.execRssisamp s
  | .rssiclr => Sys2Proof.Machine.execRssiclr s

end Sys2Proof.Machine
end

