-- ==== Sys2Proof/Machine/Fetch.lean ====
section
/-! DEFINITION. What the sequencer takes up next: command decode on the command port (rules R103 to R105, R108, R256), the
pins, and the sequencer's own next micro-operation by `phase` (rules R31, R194, R195). -/

namespace Sys2Proof.Machine

/-- What stands to be done in a state. -/
inductive Fetched where
  /-- Nothing: the FHLC waits (rule R52). -/
  | idle (s : State)
  /-- A command is refused by command decode. -/
  | refuse (c : RefuseCode) (s : State)
  /-- The command port holds the beginning of a frame and no more. -/
  | stuck
  /-- An operation that was presented. -/
  | run (i : Instr) (s : State)
  /-- The sequencer's own next micro-operation of a `SEND` or `POLL` in progress. -/
  | own (i : Instr) (s : State)
  deriving DecidableEq, Repr

/-- The micro-operation that stands at a phase (rules R195, R202). -/
def phaseUop : Phase → Option Instr
  | .idle => none
  | .health => some .p1Health
  | .rxproc => some .p2Rxproc
  | .rssi => some .p3Rssi
  | .loss => some .p4Loss
  | .hop => some .p5Hop
  | .txwait => some .txwait

/-- The sequencer left to itself. -/
def fetchOwn (s : State) : Fetched :=
  match phaseUop s.phase with
  | none => .idle s
  | some i => .own i s

/-- The agenda with the bytes after a frame presented next. -/
def requeue (rest : List Byte) (agenda : List Presented) : List Presented :=
  if rest = [] then agenda else .cmd rest :: agenda

/-- Command decode (rules R103, R108, R256): `RC_BUSY` first, then `RC_BAD_OPCODE` for codes that are unassigned or not of
class CMD.  DESIGN CHOICE (log entry 13): a refused presentation is dropped whole; bytes after an accepted frame are the next
frame; a presentation of no bytes, of which the spec says nothing, is nothing while `phase = PH_IDLE` and is refused with
`RC_BUSY`, as any other is, in every other phase. -/
def fetchCommand (bytes : List Byte) (s : State) : Fetched :=
  if s.phase ≠ .idle then .refuse .busy s
  else
    match decode bytes with
    | .ok (i, rest) =>
      if opClass i = .cmd then .run i { s with agenda := requeue rest s.agenda } else .refuse .badOpcode s
    | .error .empty => .idle s
    | .error .badOpcode => .refuse .badOpcode s
    | .error .truncated => .stuck

/-- A micro-operation named by its trace code (rule R105); no other code names one. -/
def fetchUop (code : Byte) (s : State) : Fetched :=
  match decode [code] with
  | .ok (i, _) => if opClass i = .uop then .run i s else .refuse .badOpcode s
  | .error _ => .refuse .badOpcode s

/-- What the next step takes up. -/
def fetch (s : State) : Fetched :=
  match s.agenda with
  | [] => fetchOwn s
  | .tick :: r => fetchOwn { s with agenda := r }
  | .irq :: r => .run .irq { s with agenda := r }
  | .reset :: r => .run .reset { s with agenda := r }
  | .uop code :: r => fetchUop code { s with agenda := r }
  | .cmd bytes :: r => fetchCommand bytes { s with agenda := r }

/-- The result byte of a `SEND` (rule R112). -/
def TxResult.result : TxResult → ResultCode
  | .sent => .ok
  | .timeout => .timeout

/-- `phase <- PH_IDLE` and the answer to the operation in progress (rules R194, R195). -/
def finish (r : ResultCode) : Steps Unit := inOrder [setPhase .idle, reply r noValue]

/-- What the operation in progress does after a micro-operation of its own: `SEND` ends when `TXWAIT` returned a result
(rule R194), `POLL` goes on to its next phase (rule R195).  A `RESET` meanwhile left `PH_IDLE`: nothing. -/
def resume (s : State) : State :=
  match s.phase with
  | .idle => s
  | .health => { s with phase := .rxproc }
  | .rxproc => { s with phase := .rssi }
  | .rssi => { s with phase := .loss }
  | .loss => { s with phase := .hop }
  | .hop => final (finish .ok) s
  | .txwait =>
    match s.txRet with
    | none => s
    | some r => final (finish r.result) s

/-- Presenting a table word where the next step takes up what is presented: a command frame on the command port (with the
sequencer idle, so that it is accepted), an edge on a pin, or a micro-operation. -/
def presentWord (nbits w : Nat) (s : State) : State :=
  match decodeTableWord nbits w with
  | some .irq => { s with agenda := .irq :: s.agenda }
  | some .reset => { s with agenda := .reset :: s.agenda }
  | some i =>
    if opClass i = .uop then { s with agenda := .uop (opcode i) :: s.agenda }
    else { s with agenda := .cmd (tableFrame nbits w) :: s.agenda, phase := .idle }
  | none => { s with agenda := .cmd (tableFrame nbits w) :: s.agenda, phase := .idle }

end Sys2Proof.Machine
end

