-- ==== Sys2Proof/Machine/Step.lean ====
section
/-! DEFINITION. One step of the machine: what `fetch` takes up is done.  An operation is one step, but for `SEND`, whose
wait is one step for each `TXWAIT` iteration (rule R194). -/

namespace Sys2Proof.Machine

/-- One step.  A configuration that breaks a constraint of rule R8 is refused; a command that command decode refuses gets
its refusal; an operation presented runs; a micro-operation of an operation in progress runs, and then the operation goes
on. -/
def step (s : State) : Host.Outcome State Fault Refusal :=
  if s.cfg.valid then
    match fetch s with
    | .idle t => .next t
    | .refuse c t => .next (final (refuse c) t)
    | .stuck => .fault .frameIncomplete
    | .run i t => exec i t
    | .own i t =>
      match exec i t with
      | .next u => .next (resume u)
      | .fault f => .fault f
      | .refused r => .refused r
  else .refused .badConfiguration

/-- `s` with a table word presented, so that the next step takes it up (`presentWord`). -/
def State.withFetchWord (s : State) (nbits w : Nat) : State := presentWord nbits w s

end Sys2Proof.Machine
end

