-- ==== Sys2Proof/Safety.lean ====
section
/-! DEFINITION. The terms statements about the FHLC use: the transport trace (rule R66), a shadow of the transceiver
registers computed from it (rule R55), what a refusal leaves
(rule R251), the register map written out (rule R51), what an operation takes from the inputs (rules R14, R65), the events of `PROGCH`
and `RXENTER` (rules R153, R192), the invariants of rules R53 and R235, the canonical form of the byte arrays, which
elements hold a value (rules R46, R47), and the four link conditions of rule R207 (e). -/

namespace Sys2Proof.Machine

/-- Nothing happens inside operations: no `IRQ` edge, no `RESET`, no command between two atomic steps. -/
abbrev Quiet (s : State) : Prop := s.gaps = []

/-- The transport event of an output, if it is one. -/
def Output.transportEvent : Output → Option TransportEvent
  | .transport e => some e
  | .wdgKick => none
  | .consumer _ _ => none
  | .reply _ _ => none
  | .noWake => none

/-- The transport trace `TT` (rule R66). -/
def transportTrace (s : State) : List TransportEvent := s.out.filterMap Output.transportEvent

/-- What one transport event does to what is known of a transceiver register: a write sets it, a re-initialisation
makes it unknown (rule R55; spec/93_implementation_defined.md U18). -/
def shadowStep (a : Nat) (known : Option Byte) : TransportEvent → Option Byte
  | .regWrite a' v => if a' = a then some v else known
  | .act (.reinit _) => none
  | .act _ => known
  | .claim => known
  | .release => known
  | .regRead _ _ => known

/-- What is known of the transceiver register at address `a` after a transport trace (rule R55). -/
def xcvrShadow (tt : List TransportEvent) (a : Nat) : Option Byte := tt.foldl (shadowStep a) none

/-- The transceiver is tuned to hop `idx`: its channel-select register holds `hop[idx]` and both header registers the
header byte of `idx` (rules R95, R153, R310). -/
structure Tuned (s : State) : Prop where
  chsel : xcvrShadow (transportTrace s) s.cfg.regChsel = some (hopAt s.sp.hop s.idx.toNat)
  txhdr : xcvrShadow (transportTrace s) s.cfg.regTxhdr = some (headerByte s.sp.magic s.idx)
  rxhdr : xcvrShadow (transportTrace s) s.cfg.regRxhdr = some (headerByte s.sp.magic s.idx)

/-! ## What an operation takes from the inputs -/

/-- The next sample of `CLK_US`. -/
def usInput (s : State) : Word := (supply s.inputs.us Config.freeUs s.draws).1

/-- The state once that sample is taken. -/
def tookUs (s : State) : State :=
  { s with
    inputs := { s.inputs with us := (supply s.inputs.us Config.freeUs s.draws).2.1 }
    draws := (supply s.inputs.us Config.freeUs s.draws).2.2 }

/-- The next sample of `CLK_MS`. -/
def msInput (s : State) : Word := (supply s.inputs.ms Config.freeMs s.draws).1

/-- The state once that sample is taken. -/
def tookMs (s : State) : State :=
  { s with
    inputs := { s.inputs with ms := (supply s.inputs.ms Config.freeMs s.draws).2.1 }
    draws := (supply s.inputs.ms Config.freeMs s.draws).2.2 }

/-- The byte the next `RegRead(REG_HEALTH)` returns. -/
def healthInput (s : State) : Byte := (supply s.inputs.health Config.freeHealth s.draws).1

/-- The state once that byte is taken. -/
def tookHealth (s : State) : State :=
  { s with
    inputs := { s.inputs with health := (supply s.inputs.health Config.freeHealth s.draws).2.1 }
    draws := (supply s.inputs.health Config.freeHealth s.draws).2.2 }

/-- The byte the next `RegRead(REG_RSSI)` returns. -/
def rssiInput (s : State) : Byte := (supply s.inputs.rssi Config.freeRssi s.draws).1

/-- The state once that byte is taken. -/
def tookRssi (s : State) : State :=
  { s with
    inputs := { s.inputs with rssi := (supply s.inputs.rssi Config.freeRssi s.draws).2.1 }
    draws := (supply s.inputs.rssi Config.freeRssi s.draws).2.2 }

/-- The value the next `A_AFC_READ` returns. -/
def afcInput (s : State) : Half := (supply s.inputs.afc Config.freeAfc s.draws).1

/-- The state once that value is taken. -/
def tookAfc (s : State) : State :=
  { s with
    inputs := { s.inputs with afc := (supply s.inputs.afc Config.freeAfc s.draws).2.1 }
    draws := (supply s.inputs.afc Config.freeAfc s.draws).2.2 }

/-- The bytes the next `A_RXFIFO_READ` of `n` bytes returns. -/
def packetInput (n : Nat) (s : State) : List Byte := exactBytes n s.draws (s.inputs.pkt.headD [])

/-- The state once those bytes are taken. -/
def tookPacket (s : State) : State :=
  { s with inputs := { s.inputs with pkt := s.inputs.pkt.tail }, draws := s.draws + 1 }

/-- The packet `P2_RXPROC` reads: `PKTSIZE[flags[2:0]]` bytes (rule R198). -/
def packetIn (s : State) : List Byte := packetInput (s.cfg.pktsizeOf (cfgOf s.sp.flags)) s

/-- The AFC value `P2_RXPROC` reads after the packet (rule R198). -/
def afcIn (s : State) : Half := afcInput (tookPacket s)

/-- What `P2_RXPROC` does for a packet of any type, but for its events, the decoding and the consumer (rule R198). -/
def packetCounted (s : State) : State :=
  { tookAfc (tookPacket s) with
    rxbuf := bufferOf (packetIn s), rxLen := BitVec.ofNat 8 (s.cfg.pktsizeOf (cfgOf s.sp.flags)), afc := afcIn s,
    tLast := s.now, lost := 0#8, quality := qualityShift s.cfg.qw s.quality true,
    acq := true, mode := .receiving, hopnow := true }

/-- The two reads of `P2_RXPROC` (rule R198). -/
def packetEvents (s : State) : List Output :=
  [.transport (.act (.rxfifoRead (s.cfg.pktsizeOf (cfgOf s.sp.flags)) (packetIn s))),
    .transport (.act (.afcRead (afcIn s)))]

/-- The channels of the packet that stands to be read, where it is channel data (rules R122, R198). -/
def channelsIn (s : State) : List Half :=
  unpackChannels s.cfg (cfgOf s.sp.flags) ((packetIn s).drop s.cfg.payloadOff)

/-- The number of channels of the session's configuration, as `frame_cnt` holds it (rules R47, R122). -/
def channelCountIn (s : State) : BitVec 5 := BitVec.ofNat 5 (s.cfg.channelCount (cfgOf s.sp.flags))

/-- The call of the consumer, if one is attached (rule R204). -/
def consumerEvents (s : State) : List Output :=
  if s.consumerAttached then [.consumer (channelCountIn s) (channelsIn s)] else []

/-! ## Refusals -/

/-- What a refusal with the code numbered `n` leaves (rule R251): `STATUS.REFUSED`, `REFUSE_CODE` and the answer `REFUSED`,
and nothing else. -/
def refusedWith (n : Byte) (s : State) : State :=
  { s with refused := true, refuseCode := n, out := s.out ++ [.reply .refused []] }

/-- What a `RESET` leaves that stands in the coming instant after the events `before`, all of them `IRQ` edges: every register
at its reset value, no answer to the operation in which it stands (rules R256, R290), and what was to follow in that instant, the
events `after`, presented between operations (log entry 17). -/
def abandonedIn (before after : List Gap) (later : List (List Gap)) (s : State) : State :=
  { State.initial s.cfg with
    inputs := s.inputs, draws := s.draws, agenda := after.map Gap.presented ++ s.agenda, gaps := later
    out := s.out ++ List.replicate before.length .noWake }

/-- Whether an output is the answer to a command (rules R103, R112). -/
def Output.isAnswer : Output → Bool
  | .reply _ _ => true
  | .transport _ => false
  | .wdgKick => false
  | .consumer _ _ => false
  | .noWake => false

/-- Whether a command is presented, among the events inside an operation. -/
def Gap.isCommand : Gap → Bool
  | .cmd _ => true
  | .irq => false
  | .reset => false

/-- What a `RESET` leaves in `t` of an operation begun in `s` (rules R256, R290), after the whole instants `earlier` and, in its
own instant, the events `before`: every register at its reset value; of answers among the outputs added no others than the
refusals of commands presented inside it; the events `after`, still to follow in that instant, presented before the agenda `rest`
(log entry 17). -/
def AbandonedAfter (earlier : List (List Gap)) (before after : List Gap) (later : List (List Gap)) (rest : List Presented)
    (s t : State) : Prop :=
  ∃ added, t = { State.initial s.cfg with
      inputs := t.inputs, draws := t.draws, agenda := after.map Gap.presented ++ rest, gaps := later
      out := s.out ++ added } ∧
    added.filter Output.isAnswer =
      List.replicate ((earlier.flatten ++ before).countP Gap.isCommand) (.reply .refused [])

/-! ## The register map -/

/-- One row of the register map: a number, the register it names, its width, whether the host may write it (RW*), and the
value it holds. -/
structure RegisterRow where
  number : Nat
  reg : Reg
  width : Nat
  writable : Bool
  value : Nat
  deriving DecidableEq, Repr

/-- The rows of rule R51 below number 0x0100, each with the value it holds in `s`; `LINKFLAGS` and `STATUS` by their bits
(rules R49, R51), `mode` and `phase` by their codes (rules R97, R98). -/
def registerMap (s : State) : List RegisterRow := [
  ⟨0x0000, .version, 8, true, s.sp.version.toNat⟩,
  ⟨0x0001, .serialBaud, 32, true, s.sp.serialBaud.toNat⟩,
  ⟨0x0002, .rfFreq, 32, true, s.sp.rfFreq.toNat⟩,
  ⟨0x0003, .magic, 32, true, s.sp.magic.toNat⟩,
  ⟨0x0004, .rfPower, 8, true, s.sp.rfPower.toNat⟩,
  ⟨0x0005, .chSpacing, 8, true, s.sp.chSpacing.toNat⟩,
  ⟨0x0006, .modemIdx, 8, true, s.sp.modemIdx.toNat⟩,
  ⟨0x0007, .flags, 8, true, s.sp.flags.toNat⟩,
  ⟨0x0010, .mode, 3, false, match s.mode with
    | .idle => 0 | .transmitting => 1 | .transmitted => 2 | .receiving => 3 | .received => 4 | .available => 5⟩,
  ⟨0x0011, .phase, 3, false, match s.phase with
    | .idle => 0 | .health => 1 | .rxproc => 2 | .rssi => 3 | .loss => 4 | .hop => 5 | .txwait => 6⟩,
  ⟨0x0012, .idx, 8, false, s.idx.toNat⟩,
  ⟨0x0013, .hopcount, 8, false, s.hopcount.toNat⟩,
  ⟨0x0014, .lost, 8, false, s.lost.toNat⟩,
  ⟨0x0015, .quality, s.cfg.qw, false, s.quality⟩,
  ⟨0x0016, .rssiSmooth, 8, false, s.rssiSmooth.toNat⟩,
  ⟨0x0017, .rssiSum, 16, false, s.rssiSum.toNat⟩,
  ⟨0x0018, .rssiCnt, 8, false, s.rssiCnt.toNat⟩,
  ⟨0x0019, .tLast, 32, false, s.tLast.toNat⟩,
  ⟨0x001A, .tRssi, 32, false, s.tRssi.toNat⟩,
  ⟨0x001B, .tLoss, 32, false, s.tLoss.toNat⟩,
  ⟨0x001C, .linkFlags, 8, false,
    s.acq.toNat + 2 * s.hopnow.toNat + 4 * s.sessActive.toNat + 8 * s.consumerAttached.toNat⟩,
  ⟨0x001D, .interval, 32, false, s.interval.toNat⟩,
  ⟨0x001E, .afc, 16, false, s.afc.toNat⟩,
  ⟨0x001F, .status, 8, false, s.hang.toNat + 2 * s.txto.toNat + 4 * s.refused.toNat⟩,
  ⟨0x0020, .refuseCode, 8, false, s.refuseCode.toNat⟩,
  ⟨0x0021, .frameCnt, 5, false, s.frameCnt.toNat⟩,
  ⟨0x0022, .txT0, 32, false, s.txT0.toNat⟩,
  ⟨0x0023, .rxLen, 8, false, s.rxLen.toNat⟩,
  ⟨0x0024, .txLen, 8, false, s.txLen.toNat⟩]

/-! ## The interval formula -/

/-- The expected interval as a function of the packet size, the two enables, the telemetry packet size and the bitrate
(rules R140, R141). -/
def intervalMicros (n : Nat) (div tel : Bool) (telSize br : Nat) : Nat :=
  1000 * ((8200000 * (n + (if div then 20 else 15)) / br + 2000 +
    (if tel then 8200000 * (telSize + (if div then 20 else 15)) / br + 1000 else 0) + 999) / 1000)

/-! ## The events of the shared sequences -/

/-- The three actions of `RXENTER` (rule R192). -/
def rxenterEvents : List Output :=
  [.transport (.act .rxfifoReset), .transport (.act .irqClear), .transport (.act .rxirqEn)]

/-- The write group of `PROGCH i` (rule R153). -/
def progchEvents (i : Byte) (s : State) : List Output :=
  [.transport .claim, .transport (.regWrite s.cfg.regChsel (hopAt s.sp.hop i.toNat)),
    .transport (.regWrite s.cfg.regTxhdr (headerByte s.sp.magic i)),
    .transport (.regWrite s.cfg.regRxhdr (headerByte s.sp.magic i)), .transport .release]

/-- No `RESET` stands to happen between two atomic steps. -/
def noResetInside (s : State) : Bool := s.gaps.all fun g => g.all fun e => e != .reset

/-! ## Invariants -/

/-- Every byte array is in canonical form. -/
def canonical (s : State) : Bool :=
  memWf .hop s.sp.hop && memWf .rxbuf s.rxbuf && memWf .txbuf s.txbuf

/-- What a host or a pin can present: no micro-operation by its trace code. -/
def Presented.fromOutside : Presented → Bool
  | .cmd _ => true
  | .irq => true
  | .reset => true
  | .uop _ => false
  | .tick => true

/-- Rule R53 (iii), what holds while a session is active, with the cached values named as what they cache. -/
structure SessionInv (s : State) : Prop where
  cfg_ok : cfgOf s.sp.flags ≠ s.cfg.reservedCfg
  profile_ok : s.sp.modemIdx.toNat < s.cfg.nprofiles
  hopcount_cached : s.hopcount.toNat = hopCount s.sp.hop s.cfg.maxHops
  hopcount_pos : 1 ≤ s.hopcount.toNat
  idx_lt : s.idx.toNat < s.hopcount.toNat
  hop_ne : hopAt s.sp.hop s.idx.toNat ≠ 0#8
  lost_le : s.lost.toNat ≤ s.hopcount.toNat
  interval_cached : s.interval.toNat = intervalOf s.cfg s.sp
  interval_whole : s.interval.toNat % 1000 = 0
  interval_low : 2000 ≤ s.interval.toNat
  interval_high : s.interval.toNat < 2 ^ 31

/-- The invariants of rule R53, in the form every step keeps: between two steps the sequencer is idle or waits in a
`SEND` (rule R31), and no micro-operation stands to be run by itself. -/
structure LinkInv (s : State) : Prop where
  agenda : s.agenda.all Presented.fromOutside = true
  phase : s.phase = .idle ∨ s.phase = .txwait
  hopnow : s.hopnow = false
  mode : s.mode ≠ .available
  idx_lt : s.idx.toNat < s.cfg.maxHops
  hopcount_le : s.hopcount.toNat ≤ s.cfg.maxHops
  session : s.sessActive = true → SessionInv s
  rssi_cnt : s.rssiCnt.toNat ≤ 8
  rssi_sum : s.rssiSum.toNat ≤ 255 * s.rssiCnt.toNat
  not_acq : s.acq = false → s.quality = 0 ∧ s.lost = 0#8
  quality_lt : s.quality < 2 ^ s.cfg.qw

/-- Which elements of a buffer hold a value: those below its length register, and no others (rule R46). -/
abbrev BufferHeld (sp : Space) (m : Memory) (len : Byte) : Prop :=
  ∀ i : Nat, memRead sp m i = none ↔ len.toNat ≤ i

/-- Which elements hold a value, and which values a channel can have (rules R46, R47). -/
structure HeldInv (s : State) : Prop where
  rx : BufferHeld .rxbuf s.rxbuf s.rxLen
  tx : BufferHeld .txbuf s.txbuf s.txLen
  frame_len : s.frame.length = s.frameCnt.toNat
  frame_max : s.frameCnt.toNat ≤ 16
  frame_val : ∀ v ∈ s.frame, v.toNat ≤ 1023

/-- What the quality bitmask says during a session once the link is acquired (rule R235 ii, iii): while fewer slots than
`hopcount` have been lost in a row, the outcomes of those slots are 0 and the one before them is 1. -/
structure QualityInv (s : State) : Prop where
  missed : s.sessActive = true → s.acq = true → s.lost.toNat < s.hopcount.toNat →
    ∀ k < s.lost.toNat, s.quality.testBit k = false
  received : s.sessActive = true → s.acq = true → s.lost.toNat < s.hopcount.toNat → s.lost.toNat < s.cfg.qw →
    s.quality.testBit s.lost.toNat = true

/-- The four conditions of the link (rule R207 e). -/
inductive LinkCondition where
  | scanning
  | tracking
  | fastRecovery
  | slowResync
  deriving DecidableEq, Repr

/-- The condition the link is in, a function of the state (rule R207 e).  DESIGN CHOICE (log entry 27), in two kinds of state that
rule leaves open and no session has: `acq` with `lost > hopcount`, to which it gives no condition, counts as slow resync; `acq`
with `lost = hopcount = 0`, which fits tracking and slow resync both, counts as tracking. -/
def linkCondition (s : State) : LinkCondition :=
  if s.acq = false then .scanning
  else if s.lost = 0#8 then .tracking
  else if s.lost.toNat < s.hopcount.toNat then .fastRecovery
  else .slowResync

end Sys2Proof.Machine
end

