-- ==== Sys2Proof/Certificates/Slice0/Obligations.lean ====
section
/-! DEFINITION. The statements for the provers: what the numbered rules of spec/ say the operations and the machine do.
`s.gaps = []` says that nothing happens inside the operation (rule R258 allows it to); `noResetInside` that no `RESET` does;
statements without either hold whatever happens inside (log entry 5).  ResetInsideAbandonsTheOperation and
EventsInsideOperations say what events inside operations do, refused ones included.  What a clock or a transport read yields is
the next value of an input list, or a free value where the list has run out (`usInput` and its like, log entry 3). -/

section Statements

open Sys2Proof Sys2Proof.Machine

/-! ## Encodings -/

/-- Rules R103, R106, R107: decoding the frame of a well-formed operation gives the operation back, and leaves the bytes
that follow. -/
def Obligations.DecodeInvertsEncode : Prop :=
  ∀ (i : Instr) (rest : List Byte), i.wellFormed = true → decode (encode i ++ rest) = .ok (i, rest)

/-- Rule R103: the operation code and the length operand fix the frame.  What the decoder accepts is a frame of that code
and length at the front of the bytes, whatever follows. -/
def Obligations.FrameIsDelimitedByCodeAndLength : Prop :=
  ∀ (bytes : List Byte) (i : Instr) (rest : List Byte), decode bytes = .ok (i, rest) →
    i.wellFormed = true ∧ ∃ frame, bytes = frame ++ rest ∧ frame.head? = some (opcode i) ∧
      frame.length = (encode i).length ∧ ∀ rest', decode (frame ++ rest') = .ok (i, rest')

/-- Rule R107: exactly the codes of no operation are rejected as unassigned. -/
def Obligations.UnassignedCodesAreRejected : Prop :=
  ∀ (c : Byte) (r : List Byte), decode (c :: r) = .error .badOpcode ↔ ∀ i, opcode i ≠ c

/-- Rule R106: `cfg` operands use bits 2:0 of their byte and ignore bits 7:3. -/
def Obligations.CfgOperandsIgnoreBitsSevenToThree : Prop :=
  ∀ (b : Byte) (r : List Byte), decode (0x11#8 :: b :: r) = decode (0x11#8 :: (b &&& 0x07#8) :: r) ∧
    decode (0x12#8 :: b :: r) = decode (0x12#8 :: (b &&& 0x07#8) :: r)

/-- Frames written out from rules R107, R176, R177 and the examples of rules R122, R194. -/
def Obligations.WrittenOutFramesDecode : Prop :=
  decode [0x01#8, 0x03#8, 0x00#8, 0x04#8, 0xEF#8, 0xBE#8, 0xAD#8, 0xDE#8] =
      .ok (.wrreg 0x0003#16 [0xEF#8, 0xBE#8, 0xAD#8, 0xDE#8], []) ∧
    decode [0x02#8, 0x10#8, 0x00#8] = .ok (.rdreg 0x0010#16, []) ∧
    decode [0x11#8, 0x01#8, 0x06#8, 0x12#8, 0x34#8, 0x56#8, 0x78#8, 0xE4#8, 0x1B#8] =
      .ok (.unpack 1#3 [0x12#8, 0x34#8, 0x56#8, 0x78#8, 0xE4#8, 0x1B#8], []) ∧
    decode [0x43#8, 0x01#8, 0x42#8] = .ok (.send [0x42#8], []) ∧
    decode [0x44#8] = .ok (.poll, []) ∧ decode [0x80#8] = .ok (.irq, []) ∧ decode [0x93#8] = .ok (.p4Loss, [])

/-! ## The step -/

/-- A step runs the command that is presented: with the sequencer idle, the operation its bytes decode to; bytes after the
frame stand next (rules R103, R170; that they do is the model's choice, log entry 13). -/
def Obligations.StepRunsThePresentedCommand : Prop :=
  ∀ (s : State) (bytes : List Byte) (r : List Presented) (i : Instr) (rest : List Byte),
    s.cfg.valid = true → s.phase = .idle → s.agenda = .cmd bytes :: r → decode bytes = .ok (i, rest) → opClass i = .cmd →
      step s = exec i { s with agenda := requeue rest r }

/-- A step serves an edge on a pin, in any phase (rules R104, R254), and runs a micro-operation presented by its trace code.
The second is the model's choice (DESIGN CHOICE, log entry 15): rule R105 gives the codes for traces only, and rule R274 says
that a model can single-step the sequencer through the micro-operations, which is "not a hardware feature". -/
def Obligations.StepServesPinsAndMicroOperations : Prop :=
  ∀ (s : State) (r : List Presented), s.cfg.valid = true →
    (s.agenda = .irq :: r → step s = exec .irq { s with agenda := r }) ∧
    (s.agenda = .reset :: r → step s = exec .reset { s with agenda := r }) ∧
    ∀ i, opClass i = .uop → s.agenda = .uop (opcode i) :: r → step s = exec i { s with agenda := r }

/-- With nothing presented the sequencer waits in `PH_IDLE` (rule R52), and a `SEND` that waits runs its next `TXWAIT`
(rules R31, R194).  What is the model's choice (DESIGN CHOICE): the agenda (log entry 4); the item `tick` (log entry 15); and that
a state which stands in a phase of `POLL` between two steps, as no run does, goes on phase by phase (log entry 16). -/
def Obligations.StepRunsTheSequencerOnItsOwn : Prop :=
  ∀ s : State, s.cfg.valid = true → (s.agenda = [] ∨ s.agenda.head? = some .tick) →
    (phaseUop s.phase = none → step s = .next { s with agenda := s.agenda.tail }) ∧
    ∀ i u, phaseUop s.phase = some i → exec i { s with agenda := s.agenda.tail } = .next u →
      step s = .next (resume u)

/-- Rule R256: command decode refuses with `RC_BUSY` first, then with `RC_BAD_OPCODE` every code that is not of class CMD;
rule R251: a refusal records itself, answers `REFUSED` and changes nothing else.  That the refused bytes are dropped whole, and
that no bytes at all are refused with `RC_BUSY` as any bytes are, is the model's choice (DESIGN CHOICE, log entry 13). -/
def Obligations.CommandDecodeRefuses : Prop :=
  ∀ (s : State) (bytes : List Byte) (r : List Presented), s.cfg.valid = true → s.gaps = [] → s.agenda = .cmd bytes :: r →
    (s.phase ≠ .idle → step s = .next { s with
      agenda := r, refused := true, refuseCode := 0x0F#8, out := s.out ++ [.reply .refused []] }) ∧
    ∀ c operands, s.phase = .idle → bytes = c :: operands → (∀ i, opClass i = .cmd → opcode i ≠ c) →
      step s = .next { s with
        agenda := r, refused := true, refuseCode := 0x01#8, out := s.out ++ [.reply .refused []] }

/-- Rule R250 (no trap, no handler) and rule R8 (a configuration that breaks a constraint is refused): every operation
answers a next state; a step stops only on a bad configuration, or on a command frame that ends too early (log entry 8). -/
def Obligations.NothingElseStopsTheMachine : Prop :=
  (∀ i s, ∃ t, exec i s = .next t) ∧
    (∀ s f, step s = .fault f → s.cfg.valid = true ∧ s.phase = .idle ∧
      ∃ bytes r, s.agenda = .cmd bytes :: r ∧ decode bytes = .error .truncated) ∧
    ∀ s r, step s = .refused r ↔ s.cfg.valid = false ∧ r = .badConfiguration

/-! ## Host-facing operations -/

/-- Rule R176: `WRREG` gives the register it names the value of its bytes, low byte first, modulo the register's width;
every other register, and so every other entry of the hop list, reads as before, and nothing else changes. -/
def Obligations.WrregWritesItsRegister : Prop :=
  ∀ (s : State) (rn : Half) (v : List Byte) (r : Reg), s.gaps = [] → memWf .hop s.sp.hop = true →
    regOf s.cfg rn.toNat = some r → regWritable r = true → s.sessActive = false →
    v.length = byteCount (regWidth s.cfg r) →
      ∃ t, exec (.wrreg rn v) s = .next t ∧ regValue t r = some (leValue v % 2 ^ regWidth s.cfg r) ∧
        (∀ r', r' ≠ r → regValue t r' = regValue s r') ∧
        t = { s with sp := t.sp, out := s.out ++ [.reply .ok []] }

/-- Rules R176, R177, R179: the refusal tests of `WRREG`, `RDREG` and `ATTACH`, in their order, with the codes 0x02, 0x03,
0x04, 0x08 and 0x0E of rule R251. -/
def Obligations.HostPortRefusals : Prop :=
  ∀ (s : State) (rn : Half) (v : List Byte), s.gaps = [] →
    (regOf s.cfg rn.toNat = none → exec (.wrreg rn v) s = .next (refusedWith 0x02#8 s) ∧
      exec (.rdreg rn) s = .next (refusedWith 0x02#8 s)) ∧
    (∀ r, regOf s.cfg rn.toNat = some r →
      (regWritable r = false → exec (.wrreg rn v) s = .next (refusedWith 0x02#8 s)) ∧
      (regWritable r = true → s.sessActive = true → exec (.wrreg rn v) s = .next (refusedWith 0x04#8 s)) ∧
      (regWritable r = true → s.sessActive = false → v.length ≠ byteCount (regWidth s.cfg r) →
        exec (.wrreg rn v) s = .next (refusedWith 0x08#8 s)) ∧
      (regValue s r = none → exec (.rdreg rn) s = .next (refusedWith 0x03#8 s))) ∧
    (s.consumerAttached = true → exec .attach s = .next (refusedWith 0x0E#8 s))

/-- Rule R177: `RDREG` returns the register's value in `ceil(width/8)` bytes, low byte first, and changes nothing; rule R51:
the registers are those of its table (`registerMap`), with the numbers, widths, host rights and values written out there, and
its four arrays; every other number is unassigned.  Where `RXBUF_LEN > 256` makes numbers overlap, the spec is silent and the
clause of `rxbuf` does not speak (log entry 11). -/
def Obligations.RdregReturnsTheRegister : Prop :=
  (∀ (s : State) (rn : Half) (r : Reg) (v : Nat), s.gaps = [] → regOf s.cfg rn.toNat = some r →
    regValue s r = some v → s.quality < 2 ^ s.cfg.qw →
      ∃ bytes, exec (.rdreg rn) s = .next { s with out := s.out ++ [.reply .ok bytes] } ∧
        bytes.length = (regWidth s.cfg r + 7) / 8 ∧ leValue bytes = v) ∧
  ∀ s : State, s.cfg.valid = true →
    (∀ row ∈ registerMap s, regOf s.cfg row.number = some row.reg ∧ regWidth s.cfg row.reg = row.width ∧
      regWritable row.reg = row.writable ∧ regValue s row.reg = some row.value) ∧
    (∀ i < s.cfg.maxHops, regOf s.cfg (0x0100 + i) = some (.hop i) ∧ regWidth s.cfg (.hop i) = 8 ∧
      regWritable (.hop i) = true ∧ regValue s (.hop i) = some (hopAt s.sp.hop i).toNat) ∧
    (∀ i < 16, regOf s.cfg (0x0200 + i) = some (.frame i) ∧ regWidth s.cfg (.frame i) = 16 ∧
      regWritable (.frame i) = false) ∧
    (∀ i < s.cfg.rxbufLen, i < 256 → regOf s.cfg (0x0300 + i) = some (.rxbuf i) ∧ regWidth s.cfg (.rxbuf i) = 8 ∧
      regWritable (.rxbuf i) = false) ∧
    (∀ i < s.cfg.txbufLen, regOf s.cfg (0x0400 + i) = some (.txbuf i) ∧ regWidth s.cfg (.txbuf i) = 8 ∧
      regWritable (.txbuf i) = false) ∧
    ∀ rn, (∀ row ∈ registerMap s, row.number ≠ rn) → ¬ (0x0100 ≤ rn ∧ rn < 0x0100 + s.cfg.maxHops) →
      ¬ (0x0200 ≤ rn ∧ rn < 0x0210) → ¬ (0x0300 ≤ rn ∧ rn < 0x0300 + s.cfg.rxbufLen) →
      ¬ (0x0400 ≤ rn ∧ rn < 0x0400 + s.cfg.txbufLen) → regOf s.cfg rn = none

/-- Rules R179, R180, R181: `ATTACH` sets `consumer_attached`; `ENDSESS` clears it and `sess_active`; `NOP` does neither; none
changes anything else. -/
def Obligations.AttachEndSessionAndNop : Prop :=
  ∀ s : State, s.gaps = [] →
    exec .nop s = .next { s with out := s.out ++ [.reply .ok []] } ∧
    (s.consumerAttached = false →
      exec .attach s = .next { s with consumerAttached := true, out := s.out ++ [.reply .ok []] }) ∧
    exec .endsess s = .next { s with
      sessActive := false, consumerAttached := false, out := s.out ++ [.reply .ok []] }

/-! ## Packet codec -/

/-- Rule R121: `PKTSIZE` returns the table entry of the low 3 bits of its operand, 0 for the reserved configuration and only
for it, whatever bits 7:3 are; it writes nothing. -/
def Obligations.PktsizeReturnsTheTableEntry : Prop :=
  ∀ (s : State) (flags : Byte), s.cfg.valid = true → s.gaps = [] →
    exec (.pktsize flags) s = .next { s with
      out := s.out ++ [.reply .ok [BitVec.ofNat 8 (s.cfg.pktsize.getD (flags.toNat % 8) 0)]] } ∧
    (s.cfg.pktsize.getD (flags.toNat % 8) 0 = 0 ↔ flags.toNat % 8 = s.cfg.reservedCfg.toNat) ∧
    s.cfg.pktsize.getD (flags.toNat % 8) 0 < 256

/-- Rule R122: `UNPACK` writes the channels of its payload to `frame` and their number to `frame_cnt`, and nothing else;
elements at or beyond `frame_cnt` hold no value. -/
def Obligations.UnpackWritesTheChannels : Prop :=
  ∀ (s : State) (c : BitVec 3) (p : List Byte), s.cfg.valid = true → s.gaps = [] → c ≠ s.cfg.reservedCfg →
    p.length = 5 * s.cfg.ngroupsOf c + c.toNat % 2 →
      ∃ t, exec (.unpack c p) s = .next t ∧
        t.frameCnt.toNat = 4 * s.cfg.ngroupsOf c + 4 * (c.toNat % 2) ∧
        (∀ g < s.cfg.ngroupsOf c, ∀ k < 4, regValue t (.frame (4 * g + k)) =
          some (256 * ((p.getD (5 * g + 4) 0#8).toNat / 4 ^ k % 4) + (p.getD (5 * g + k) 0#8).toNat)) ∧
        (c.toNat % 2 = 1 → ∀ j < 4, regValue t (.frame (4 * s.cfg.ngroupsOf c + j)) =
          some ((p.getD (5 * s.cfg.ngroupsOf c) 0#8).toNat / 4 ^ (3 - j) % 4 * 333 + 12)) ∧
        (∀ k, t.frameCnt.toNat ≤ k → regValue t (.frame k) = none) ∧
        t = { s with
          frame := t.frame, frameCnt := t.frameCnt, out := s.out ++ [.reply .ok [t.frameCnt.setWidth 8]] }

/-- Rule R123: `PACK` returns `L` and the payload of its channels, the auxiliary ones through the quantiser `Q`, and writes
nothing. -/
def Obligations.PackReturnsThePayload : Prop :=
  ∀ (s : State) (c : BitVec 3) (ch : List Half), s.cfg.valid = true → s.gaps = [] → c ≠ s.cfg.reservedCfg →
    ch.length = 4 * s.cfg.ngroupsOf c + 4 * (c.toNat % 2) →
    (∀ k < 4 * s.cfg.ngroupsOf c, (ch.getD k 0#16).toNat ≤ 1023) →
      ∃ p : List Byte, exec (.pack c ch) s = .next { s with
          out := s.out ++ [.reply .ok (BitVec.ofNat 8 (5 * s.cfg.ngroupsOf c + c.toNat % 2) :: p)] } ∧
        p.length = 5 * s.cfg.ngroupsOf c + c.toNat % 2 ∧
        (∀ g < s.cfg.ngroupsOf c,
          (∀ k < 4, (p.getD (5 * g + k) 0#8).toNat = (ch.getD (4 * g + k) 0#16).toNat % 256) ∧
          ∀ k < 4, (p.getD (5 * g + 4) 0#8).toNat / 4 ^ k % 4 = (ch.getD (4 * g + k) 0#16).toNat / 256) ∧
        (c.toNat % 2 = 1 → ∀ j < 4, ∀ v, v = (ch.getD (4 * s.cfg.ngroupsOf c + j) 0#16).toNat →
          (p.getD (5 * s.cfg.ngroupsOf c) 0#8).toNat / 4 ^ (3 - j) % 4 =
            if v ≤ 178 then 0 else if v ≤ 511 then 1 else if v ≤ 844 then 2 else 3)

/-- Rules R122, R123: the refusal tests of `UNPACK` and `PACK`, in their order, with the codes 0x07, 0x08 and 0x0D of rule
R251. -/
def Obligations.CodecRefusals : Prop :=
  ∀ (s : State) (c : BitVec 3) (p : List Byte) (ch : List Half), s.gaps = [] →
    (c = s.cfg.reservedCfg → exec (.unpack c p) s = .next (refusedWith 0x07#8 s) ∧
      exec (.pack c ch) s = .next (refusedWith 0x07#8 s)) ∧
    (c ≠ s.cfg.reservedCfg →
      (p.length ≠ 5 * s.cfg.ngroupsOf c + c.toNat % 2 → exec (.unpack c p) s = .next (refusedWith 0x08#8 s)) ∧
      (ch.length ≠ 4 * s.cfg.ngroupsOf c + 4 * (c.toNat % 2) → exec (.pack c ch) s = .next (refusedWith 0x08#8 s)) ∧
      (ch.length = 4 * s.cfg.ngroupsOf c + 4 * (c.toNat % 2) →
        (∃ k < 4 * s.cfg.ngroupsOf c, 1023 < (ch.getD k 0#16).toNat) →
          exec (.pack c ch) s = .next (refusedWith 0x0D#8 s)))

/-- Rule R124, the four codec laws: unpacking a packed payload gives back the 10-bit channels (i) and the quantised auxiliary
channels (ii); packing the channels of a payload gives back the payload (iii); a configuration has at most 16 channels
(iv). -/
def Obligations.CodecLaws : Prop :=
  ∀ (cfg : Config) (c : BitVec 3), cfg.valid = true → c ≠ cfg.reservedCfg →
    (∀ ch : List Half, ch.length = cfg.channelCount c →
      (∀ k < 4 * cfg.ngroupsOf c, (ch.getD k 0#16).toNat ≤ 1023) →
        (∀ k < 4 * cfg.ngroupsOf c, (unpackChannels cfg c (packPayload cfg c ch))[k]? = ch[k]?) ∧
        (c.toNat % 2 = 1 → ∀ j < 4, (unpackChannels cfg c (packPayload cfg c ch))[4 * cfg.ngroupsOf c + j]? =
          some (BitVec.ofNat 16
            ((quantise (ch.getD (4 * cfg.ngroupsOf c + j) 0#16)).toNat * 333 + 12)))) ∧
    (∀ p : List Byte, p.length = 5 * cfg.ngroupsOf c + c.toNat % 2 →
      packPayload cfg c (unpackChannels cfg c p) = p) ∧
    cfg.channelCount c = 4 * cfg.ngroupsOf c + 4 * (c.toNat % 2) ∧ cfg.channelCount c ≤ 16

/-! ## Timing -/

/-- Rule R141: `INTERVAL` writes the value of the formula to `interval`, returns it (low byte first: log entry 12), and
changes nothing else. -/
def Obligations.IntervalFollowsTheFormula : Prop :=
  ∀ (s : State) (r : Nat), s.gaps = [] → s.sp.modemIdx.toNat < s.cfg.nprofiles →
    r = intervalMicros (s.cfg.pktsizeOf (cfgOf s.sp.flags)) (divEn s.cfg s.sp.flags) (telEn s.cfg s.sp.flags)
      s.cfg.telemetryPacketsize (s.cfg.bitrate.getD s.sp.modemIdx.toNat 0) →
    r < 2 ^ 31 →
      ∃ bytes, exec .interval s = .next { s with
          interval := BitVec.ofNat 32 r, out := s.out ++ [.reply .ok bytes] } ∧
        bytes.length = 4 ∧ leValue bytes = r

/-- Rule R142, of the value `INTERVAL` and `SETUP` write: it is a multiple of 1000 (ii) and at least 2000 (iii); and of two
SessionParameters under one configuration, it is non-decreasing in the packet size, all else equal (i), non-increasing in the
bitrate, all else equal (iv), and not decreased by enabling telemetry or diversity, all else equal (v). -/
def Obligations.IntervalProperties : Prop :=
  ∀ (cfg : Config) (sp sp' : SessionParams) (n n' br br' : Nat) (div div' tel tel' : Bool),
    n = cfg.pktsizeOf (cfgOf sp.flags) → n' = cfg.pktsizeOf (cfgOf sp'.flags) →
    br = cfg.bitrateOf sp.modemIdx.toNat → br' = cfg.bitrateOf sp'.modemIdx.toNat → 1 ≤ br →
    div = divEn cfg sp.flags → div' = divEn cfg sp'.flags → tel = telEn cfg sp.flags → tel' = telEn cfg sp'.flags →
      (n ≤ n' → br = br' → div = div' → tel = tel' → intervalOf cfg sp ≤ intervalOf cfg sp') ∧
      intervalOf cfg sp % 1000 = 0 ∧
      2000 ≤ intervalOf cfg sp ∧
      (br ≤ br' → n = n' → div = div' → tel = tel' → intervalOf cfg sp' ≤ intervalOf cfg sp) ∧
      (tel = false → tel' = true → n = n' → br = br' → div = div' → intervalOf cfg sp ≤ intervalOf cfg sp') ∧
      (div = false → div' = true → n = n' → br = br' → tel = tel' → intervalOf cfg sp ≤ intervalOf cfg sp')

/-- Rules R141, R153: the refusal tests of `INTERVAL`, in their order, and of `PROGCH`, with the codes 0x06, 0x0B and 0x09 of
rule R251. -/
def Obligations.TimingAndHopRefusals : Prop :=
  ∀ (s : State) (i : Byte), s.gaps = [] →
    (s.cfg.nprofiles ≤ s.sp.modemIdx.toNat → exec .interval s = .next (refusedWith 0x06#8 s)) ∧
    (s.sp.modemIdx.toNat < s.cfg.nprofiles → 2 ^ 31 ≤ intervalOf s.cfg s.sp →
      exec .interval s = .next (refusedWith 0x0B#8 s)) ∧
    (s.cfg.maxHops ≤ i.toNat → exec (.progch i) s = .next (refusedWith 0x09#8 s))

/-! ## Hop sequencer -/

/-- Rule R151: `HOPCNT` writes and returns the length of the hop list before its first zero entry, at most `MAXHOPS`. -/
def Obligations.HopcntCountsThePrefix : Prop :=
  ∀ s : State, s.cfg.valid = true → s.gaps = [] →
    ∃ n : Byte, exec .hopcnt s = .next { s with hopcount := n, out := s.out ++ [.reply .ok [n]] } ∧
      n.toNat ≤ s.cfg.maxHops ∧ (∀ k < n.toNat, hopAt s.sp.hop k ≠ 0#8) ∧
      (n.toNat = s.cfg.maxHops ∨ hopAt s.sp.hop n.toNat = 0#8)

/-- Rule R152: `ADVANCE` writes and returns the next index, 0 where it reaches `hopcount`, `MAXHOPS` or a zero entry.  For an
`idx` at or above `MAXHOPS`, which rule R33 excludes and no run reaches, what it does is the model's choice (DESIGN CHOICE, log
entry 18): an entry beyond the list reads 0. -/
def Obligations.AdvanceStepsTheIndex : Prop :=
  ∀ s : State, s.gaps = [] →
    ((s.idx.toNat + 1 = s.hopcount.toNat ∨ s.idx.toNat + 1 = s.cfg.maxHops ∨ hopAt s.sp.hop (s.idx.toNat + 1) = 0#8) →
      exec .advance s = .next { s with idx := 0#8, out := s.out ++ [.reply .ok [0#8]] }) ∧
    (s.idx.toNat + 1 ≠ s.hopcount.toNat → s.idx.toNat + 1 ≠ s.cfg.maxHops → hopAt s.sp.hop (s.idx.toNat + 1) ≠ 0#8 →
      exec .advance s = .next { s with idx := s.idx + 1#8, out := s.out ++ [.reply .ok [s.idx + 1#8]] })

/-- Rule R154: with `hopcount ≥ 1` as `HOPCNT` computes it, `hopcount` advances from index 0 return to 0 (i), no index whose
entry is the sentinel is yielded (ii), the indices visited are 0, 1, … in order, each once per cycle (iii), and an index
below `hopcount` stays below it (iv). -/
def Obligations.AdvanceCyclesThroughTheHopList : Prop :=
  ∀ (cfg : Config) (hop : Memory) (hopcount : Byte), cfg.valid = true → hopcount.toNat = hopCount hop cfg.maxHops →
    1 ≤ hopcount.toNat →
      (nextIndex cfg hop hopcount)^[hopcount.toNat] 0#8 = 0#8 ∧
      (∀ idx : Byte, idx.toNat < hopcount.toNat → hopAt hop (nextIndex cfg hop hopcount idx).toNat ≠ 0#8) ∧
      (∀ k < hopcount.toNat, ((nextIndex cfg hop hopcount)^[k] 0#8).toNat = k) ∧
      ∀ idx : Byte, idx.toNat < hopcount.toNat → (nextIndex cfg hop hopcount idx).toNat < hopcount.toNat

/-- Rule R153: `PROGCH i` writes the hop-list entry and twice the header byte `magic[7:0] ^ i`, inside one claim, and changes
no register. -/
def Obligations.ProgchWritesOneGroup : Prop :=
  ∀ (s : State) (i : Byte), s.gaps = [] → i.toNat < s.cfg.maxHops →
    exec (.progch i) s = .next { s with
      out := s.out ++ [.transport .claim, .transport (.regWrite s.cfg.regChsel (hopAt s.sp.hop i.toNat)),
        .transport (.regWrite s.cfg.regTxhdr (BitVec.setWidth 8 s.sp.magic ^^^ i)),
        .transport (.regWrite s.cfg.regRxhdr (BitVec.setWidth 8 s.sp.magic ^^^ i)), .transport .release,
        .reply .ok []] }

/-- Rules R95, R153: two hop indices always give different header bytes, and the upper 24 bits of `magic` have no effect. -/
def Obligations.HeaderBytesAreDistinct : Prop :=
  ∀ (magic magic' : Word) (i j : Byte),
    (i ≠ j → headerByte magic i ≠ headerByte magic j) ∧
    (magic.toNat % 256 = magic'.toNat % 256 → headerByte magic i = headerByte magic' i)

/-! ## Link state machine: session and mode operations -/

/-- Rule R191: `SETUP` computes `hopcount` and `interval`, initialises LinkRuntimeState from one clock sample, configures the
transceiver, programs hop 0 and enters receive; nothing else changes. -/
def Obligations.SetupStartsTheSession : Prop :=
  ∀ s : State, s.cfg.valid = true → s.gaps = [] → cfgOf s.sp.flags ≠ s.cfg.reservedCfg →
    s.sp.modemIdx.toNat < s.cfg.nprofiles → hopAt s.sp.hop 0 ≠ 0#8 → intervalOf s.cfg s.sp < 2 ^ 31 →
      exec .setup s = .next { tookUs s with
        hopcount := BitVec.ofNat 8 (hopCount s.sp.hop s.cfg.maxHops)
        interval := BitVec.ofNat 32 (intervalOf s.cfg s.sp)
        idx := 0#8, lost := 0#8, quality := 0, rssiSmooth := 0#8, rssiSum := 0#16, rssiCnt := 0#8
        tLast := usInput s, tRssi := usInput s, tLoss := 0#32, acq := false, hopnow := false
        sessActive := true, mode := .receiving
        out := s.out ++ [.transport (.act (.reinit s.sp))] ++ progchEvents 0#8 s ++ rxenterEvents ++
          [.reply .ok []] }

/-- Rules R191, R193, R195: the refusal tests of `SETUP`, of `TXSTART` and `SEND`, and of `POLL`, in their order, with the codes
0x05, 0x06, 0x07, 0x08, 0x0A, 0x0B and 0x0C of rule R251. -/
def Obligations.LinkRefusals : Prop :=
  ∀ (s : State) (d : List Byte), s.gaps = [] →
    (cfgOf s.sp.flags = s.cfg.reservedCfg → exec .setup s = .next (refusedWith 0x07#8 s)) ∧
    (cfgOf s.sp.flags ≠ s.cfg.reservedCfg →
      (s.cfg.nprofiles ≤ s.sp.modemIdx.toNat → exec .setup s = .next (refusedWith 0x06#8 s)) ∧
      (s.sp.modemIdx.toNat < s.cfg.nprofiles →
        (hopAt s.sp.hop 0 = 0#8 → exec .setup s = .next (refusedWith 0x0A#8 s)) ∧
        (hopAt s.sp.hop 0 ≠ 0#8 → 2 ^ 31 ≤ intervalOf s.cfg s.sp →
          exec .setup s = .next (refusedWith 0x0B#8 s)))) ∧
    (s.mode ≠ .idle → s.mode ≠ .receiving → (s.cfg.txFromReceived = false ∨ s.mode ≠ .received) →
      exec (.txstart d) s = .next (refusedWith 0x0C#8 s) ∧ exec (.send d) s = .next (refusedWith 0x0C#8 s)) ∧
    ((s.mode = .idle ∨ s.mode = .receiving ∨ s.cfg.txFromReceived = true ∧ s.mode = .received) →
      (d.length = 0 ∨ s.cfg.txbufLen < d.length) →
        exec (.txstart d) s = .next (refusedWith 0x08#8 s) ∧ exec (.send d) s = .next (refusedWith 0x08#8 s)) ∧
    (s.sessActive = false → exec .poll s = .next (refusedWith 0x05#8 s))

/-- Rule R192: `RXENTER` is accepted in every mode, writes `mode` and makes its three actions in order. -/
def Obligations.RxenterEntersReceive : Prop :=
  ∀ s : State, s.gaps = [] → exec .rxenter s = .next { s with
    mode := .receiving
    out := s.out ++ [.transport (.act .rxfifoReset), .transport (.act .irqClear), .transport (.act .rxirqEn),
      .reply .ok []] }

/-- Rule R193: `TXSTART` stores the payload, writes it to the transceiver, and switches to `Transmitting` before `A_TX_ON`: an
`IRQ` in the instant before `A_TX_ON` finds `Transmitting`, and completes it. -/
def Obligations.TxstartStartsATransmission : Prop :=
  ∀ (s : State) (d : List Byte),
    (s.mode = .idle ∨ s.mode = .receiving ∨ s.cfg.txFromReceived = true ∧ s.mode = .received) →
    1 ≤ d.length → d.length ≤ s.cfg.txbufLen →
      (s.gaps = [] → ∃ t, exec (.txstart d) s = .next t ∧
        t = { s with
          txbuf := t.txbuf, txLen := BitVec.ofNat 8 d.length, mode := .transmitting
          out := s.out ++ [.transport (.act (.txfifoWrite d)), .transport (.act .txOn), .reply .ok []] } ∧
        ∀ k, memRead .txbuf t.txbuf k = d[k]?) ∧
      (s.gaps = [[], [], [], [.irq]] → ∃ t, exec (.txstart d) s = .next t ∧
        t = { s with
          gaps := [], txbuf := t.txbuf, txLen := BitVec.ofNat 8 d.length, mode := .transmitted
          out := s.out ++ [.transport (.act (.txfifoWrite d)), .noWake, .transport (.act .txOn), .reply .ok []] } ∧
        ∀ k, memRead .txbuf t.txbuf k = d[k]?)

/-- Rule R194: `SEND` does what `TXSTART` does, samples `CLK_MS` and waits in `PH_TXWAIT`; its answer is still to come
(log entry 7). -/
def Obligations.SendStartsItsWait : Prop :=
  ∀ (s : State) (d : List Byte), s.gaps = [] →
    (s.mode = .idle ∨ s.mode = .receiving ∨ s.cfg.txFromReceived = true ∧ s.mode = .received) →
    1 ≤ d.length → d.length ≤ s.cfg.txbufLen →
      ∃ t, exec (.send d) s = .next t ∧
        t = { tookMs s with
          txbuf := t.txbuf, txLen := BitVec.ofNat 8 d.length, mode := .transmitting
          txT0 := msInput s, txRet := none, phase := .txwait
          out := s.out ++ [.transport (.act (.txfifoWrite d)), .transport (.act .txOn)] } ∧
        ∀ k, memRead .txbuf t.txbuf k = d[k]?

/-- Rule R202: an iteration of the wait kicks the watchdog, then decides from `mode`, then from the time elapsed. -/
def Obligations.TxwaitDecides : Prop :=
  ∀ s : State, s.gaps = [] →
    (s.mode = .transmitted →
      exec .txwait s = .next { tookMs s with txRet := some .sent, out := s.out ++ [.wdgKick] }) ∧
    (s.mode ≠ .transmitted → 100 ≤ (msInput s - s.txT0).toNat →
      exec .txwait s = .next { tookMs s with txRet := some .timeout, txto := true, out := s.out ++ [.wdgKick] }) ∧
    (s.mode ≠ .transmitted → (msInput s - s.txT0).toNat < 100 →
      exec .txwait s = .next { tookMs s with txRet := none, out := s.out ++ [.wdgKick] })

/-- Rule R194: a step of a waiting `SEND` ends it in `PH_IDLE` with the answer `SENT` or `TIMEOUT`, or leaves it waiting (log
entry 7); rule R112: `OK`, and so `SENT`, is the byte 0x00, `REFUSED` 0x01, `TIMEOUT` 0x02. -/
def Obligations.SendEndsWithItsWait : Prop :=
  (ResultCode.ok.code = 0x00#8 ∧ ResultCode.refused.code = 0x01#8 ∧ ResultCode.timeout.code = 0x02#8) ∧
  ∀ s : State, s.cfg.valid = true → s.gaps = [] → s.agenda = [] → s.phase = .txwait →
    (s.mode = .transmitted → step s = .next { tookMs s with
      txRet := some .sent, phase := .idle, out := s.out ++ [.wdgKick, .reply .ok []] }) ∧
    (s.mode ≠ .transmitted → 100 ≤ (msInput s - s.txT0).toNat → step s = .next { tookMs s with
      txRet := some .timeout, txto := true, phase := .idle, out := s.out ++ [.wdgKick, .reply .timeout []] }) ∧
    (s.mode ≠ .transmitted → (msInput s - s.txT0).toNat < 100 → step s = .next { tookMs s with
      txRet := none, out := s.out ++ [.wdgKick] })

/-- Rule R203: `IRQ` completes the operation `mode` says is pending, changes nothing in any other mode, and answers "no wake
needed". -/
def Obligations.IrqCompletesThePendingOperation : Prop :=
  ∀ s : State,
    (s.mode = .receiving → exec .irq s = .next { s with mode := .received, out := s.out ++ [.noWake] }) ∧
    (s.mode = .transmitting → exec .irq s = .next { s with mode := .transmitted, out := s.out ++ [.noWake] }) ∧
    (s.mode ≠ .receiving → s.mode ≠ .transmitting → exec .irq s = .next { s with out := s.out ++ [.noWake] })

/-! ## Link state machine: the poll cycle -/

/-- Rule R195: `POLL` kicks the watchdog, latches one clock sample, runs the five phases in order and ends in `PH_IDLE`. -/
def Obligations.PollRunsTheFivePhases : Prop :=
  ∀ s : State, s.gaps = [] → s.sessActive = true →
    ∃ s1 s2 s3 s4 s5 : State,
      exec .p1Health { tookUs s with out := s.out ++ [.wdgKick], now := usInput s, phase := .health } = .next s1 ∧
      exec .p2Rxproc { s1 with phase := .rxproc } = .next s2 ∧
      exec .p3Rssi { s2 with phase := .rssi } = .next s3 ∧
      exec .p4Loss { s3 with phase := .loss } = .next s4 ∧
      exec .p5Hop { s4 with phase := .hop } = .next s5 ∧
      exec .poll s = .next { s5 with phase := .idle, out := s5.out ++ [.reply .ok []] }

/-- Rule R197: `P1_HEALTH` reads the health register; only on a 0 does it set `HANG`, re-initialise the transceiver, restore
the current hop and enter receive. -/
def Obligations.HealthCheckRecovers : Prop :=
  ∀ s : State, s.gaps = [] → s.idx.toNat < s.cfg.maxHops →
    (healthInput s ≠ 0#8 → exec .p1Health s = .next { tookHealth s with
      out := s.out ++ [.transport (.regRead s.cfg.regHealth (healthInput s))] }) ∧
    (healthInput s = 0#8 → exec .p1Health s = .next { tookHealth s with
      hang := true, mode := .receiving
      out := s.out ++ [.transport (.regRead s.cfg.regHealth 0#8), .transport (.act (.reinit s.sp))] ++
        progchEvents s.idx s ++ rxenterEvents })

/-- Rule R198: `P2_RXPROC` does nothing unless `mode` is `Received`; a packet of any type is read, counted as received and
acknowledged by re-entering receive; one of channel data is decoded into `frame` and handed to an attached consumer. -/
def Obligations.ReceptionOfAPacket : Prop :=
  ∀ s : State, s.cfg.valid = true → s.gaps = [] → cfgOf s.sp.flags ≠ s.cfg.reservedCfg →
    (s.mode ≠ .received → exec .p2Rxproc s = .next s) ∧
    (s.mode = .received → (packetIn s).length = s.cfg.pktsizeOf (cfgOf s.sp.flags) ∧
      ∃ type rest, packetIn s = type :: rest ∧
        (type &&& s.cfg.typeMask ≠ s.cfg.typeChannel → exec .p2Rxproc s = .next { packetCounted s with
          out := s.out ++ packetEvents s ++ rxenterEvents }) ∧
        (type &&& s.cfg.typeMask = s.cfg.typeChannel → exec .p2Rxproc s = .next { packetCounted s with
          frame := channelsIn s, frameCnt := channelCountIn s
          out := s.out ++ packetEvents s ++ consumerEvents s ++ rxenterEvents }))

/-- Rule R199: `P3_RSSI` samples exactly when fewer than two packets in a row are lost, the sampling point is reached and,
with `RSSI_ONCE`, this baseline has not been sampled; it then records the baseline and runs `RSSISAMP`.  That the sampling
point is compared over the integers concerns only an interval below 1500, which rule R141 excludes in a session, and is the
model's inference (DEDUCED, log entry 20). -/
def Obligations.RssiSamplingPoint : Prop :=
  ∀ s : State, s.gaps = [] →
    ((s.lost.toNat < 2 ∧ (s.interval.toNat : Int) - 1500 ≤ ((s.now - s.tLast).toNat : Int) ∧
        (s.cfg.rssiOnce = false ∨ s.tRssi ≠ s.tLast)) →
      ∃ t, exec .rssisamp { s with tRssi := s.tLast } = .next t ∧ exec .p3Rssi s = .next t) ∧
    (¬ (s.lost.toNat < 2 ∧ (s.interval.toNat : Int) - 1500 ≤ ((s.now - s.tLast).toNat : Int) ∧
        (s.cfg.rssiOnce = false ∨ s.tRssi ≠ s.tLast)) → exec .p3Rssi s = .next s)

/-- Rule R200: the three cases of `P4_LOSS`, the comparisons in the naturals; where none fires nothing changes. -/
def Obligations.LossPolicy : Prop :=
  ∀ (s : State) (e : Nat), e = (s.now - s.tLast).toNat →
    (s.acq = true → s.lost.toNat < s.hopcount.toNat → s.interval.toNat + 1000 < e →
      exec .p4Loss s = .next { s with
        quality := 2 * s.quality % 2 ^ s.cfg.qw, tLoss := if s.lost = 0#8 then s.now else s.tLoss
        lost := s.lost + 1#8, tLast := s.tLast + s.interval, hopnow := true }) ∧
    (s.acq = true → s.lost = s.hopcount → s.interval.toNat * s.hopcount.toNat < e →
      exec .p4Loss s = .next { s with quality := 0, rssiSmooth := 0#8, hopnow := true, tLast := s.now }) ∧
    (s.acq = false → s.interval.toNat * s.hopcount.toNat < e →
      exec .p4Loss s = .next { s with tLast := s.now, hopnow := true }) ∧
    (¬ (s.acq = true ∧ s.lost.toNat < s.hopcount.toNat ∧ s.interval.toNat + 1000 < e) →
      ¬ (s.acq = true ∧ s.lost = s.hopcount ∧ s.interval.toNat * s.hopcount.toNat < e) →
      ¬ (s.acq = false ∧ s.interval.toNat * s.hopcount.toNat < e) → exec .p4Loss s = .next s)

/-- Rule R201: `P5_HOP` advances the index, programs the new hop and clears `hopnow`; with `hopnow` clear it does nothing. -/
def Obligations.HopPhase : Prop :=
  ∀ s : State, s.cfg.valid = true → s.gaps = [] → s.idx.toNat < s.cfg.maxHops →
    (s.hopnow = false → exec .p5Hop s = .next s) ∧
    (s.hopnow = true → exec .p5Hop s = .next { s with
      idx := nextIndex s.cfg s.sp.hop s.hopcount s.idx, hopnow := false
      out := s.out ++ progchEvents (nextIndex s.cfg s.sp.hop s.hopcount s.idx) s })

/-- Rule R207 (a): receive beats the deadlines.  In a `POLL` that processes a packet no RSSI sample is taken, no case of the
loss policy fires, and the hop sequencer hops once. -/
def Obligations.ReceiveBeatsTheDeadlines : Prop :=
  ∀ s : State, s.cfg.valid = true → LinkInv s → s.gaps = [] → s.sessActive = true → s.mode = .received →
    healthInput (tookUs s) ≠ 0#8 →
      ∃ t bytes v, exec .poll s = .next t ∧
        t.rssiSum = s.rssiSum ∧ t.rssiCnt = s.rssiCnt ∧ t.rssiSmooth = s.rssiSmooth ∧ t.tRssi = s.tRssi ∧
        t.tLast = usInput s ∧ t.lost = 0#8 ∧ t.tLoss = s.tLoss ∧ t.acq = true ∧
        t.quality = (2 * s.quality + 1) % 2 ^ s.cfg.qw ∧
        t.idx = nextIndex s.cfg s.sp.hop s.hopcount s.idx ∧ t.hopnow = false ∧ t.mode = .receiving ∧
        transportTrace t = transportTrace s ++ [.regRead s.cfg.regHealth (healthInput (tookUs s)),
          .act (.rxfifoRead (s.cfg.pktsizeOf (cfgOf s.sp.flags)) bytes), .act (.afcRead v)] ++
          (rxenterEvents ++ progchEvents t.idx s).filterMap Output.transportEvent

/-- Rules R72, R143, R205: a `POLL` leaves SessionParameters, the session, the cached `hopcount` and `interval` and the transmit
side as they are, whatever happens inside it short of a `RESET`. -/
def Obligations.PollLeavesTheSessionAlone : Prop :=
  ∀ s t : State, exec .poll s = .next t → noResetInside s = true →
    t.cfg = s.cfg ∧ t.sp = s.sp ∧ t.sessActive = s.sessActive ∧ t.consumerAttached = s.consumerAttached ∧
      t.hopcount = s.hopcount ∧ t.interval = s.interval ∧ t.txbuf = s.txbuf ∧ t.txLen = s.txLen ∧ t.txT0 = s.txT0 ∧
      t.txto = s.txto

/-- Rule R205: every write of `mode` that an operation makes, when nothing happens inside it; none leads to
`Available`. -/
def Obligations.WritesOfMode : Prop :=
  ∀ (i : Instr) (s t : State), s.gaps = [] → exec i s = .next t →
    t.mode = s.mode ∨ (i = .reset ∧ t.mode = .idle) ∨
      ((i = .rxenter ∨ i = .setup ∨ i = .p1Health ∨ i = .p2Rxproc ∨ i = .poll) ∧ t.mode = .receiving) ∨
      (i = .irq ∧ (s.mode = .receiving ∧ t.mode = .received ∨ s.mode = .transmitting ∧ t.mode = .transmitted)) ∨
      ((∃ d, (i = .txstart d ∨ i = .send d) ∧ 1 ≤ d.length ∧ d.length ≤ s.cfg.txbufLen) ∧
        (s.mode = .idle ∨ s.mode = .receiving ∨ s.cfg.txFromReceived = true ∧ s.mode = .received) ∧
        t.mode = .transmitting)

/-- Rules R153, R191, R197, R201: after an accepted `SETUP` the transceiver is tuned to hop 0, and a `POLL` keeps it tuned to
hop `idx`, whatever happens inside them short of a `RESET`. -/
def Obligations.SetupAndPollTuneTheTransceiver : Prop :=
  (∀ s t : State, s.cfg.valid = true → setupCheck s = none → noResetInside s = true → exec .setup s = .next t →
    Tuned t ∧ t.idx = 0#8 ∧ t.sessActive = true) ∧
  ∀ s t : State, s.cfg.valid = true → LinkInv s → Tuned s → noResetInside s = true → exec .poll s = .next t → Tuned t

/-- Rules R191, R197, R201, R310: every step keeps the transceiver tuned to hop `idx` while a session is active, whatever is
presented and whatever happens inside operations, unless the host presents an `ADVANCE` (0x31) or a `PROGCH` (0x32). -/
def Obligations.StepKeepsTheTransceiverTuned : Prop :=
  ∀ s t : State, LinkInv s → (s.sessActive = true → Tuned s) →
    (∀ bytes r, s.agenda = .cmd bytes :: r → bytes.head? ≠ some 0x31#8 ∧ bytes.head? ≠ some 0x32#8) →
    step s = .next t → t.sessActive = true → Tuned t

/-! ## Quality and RSSI -/

/-- Rules R230, R231, R232, R234: the quality updates and the clearing of the smoothed value; the accumulator stays. -/
def Obligations.QualityUpdatesAndRssiClear : Prop :=
  ∀ s : State,
    exec .qhit s = .next { s with quality := (2 * s.quality + 1) % 2 ^ s.cfg.qw } ∧
    exec .qmiss s = .next { s with quality := 2 * s.quality % 2 ^ s.cfg.qw } ∧
    exec .qclr s = .next { s with quality := 0 } ∧
    exec .rssiclr s = .next { s with rssiSmooth := 0#8 }

/-- Rule R235 (i): bit `k` of the mask is the outcome `k` slots ago. -/
def Obligations.QualityBitsAreOutcomes : Prop :=
  ∀ (qw start : Nat) (outcomes : List Bool) (k : Nat), k < outcomes.length → k < qw →
    (outcomes.foldl (qualityShift qw) start).testBit k = outcomes.reverse.getD k false

/-- Rule R233: `RSSISAMP` accumulates one read of the RSSI register and, on the ninth, updates the smoothed value and empties
the accumulator. -/
def Obligations.RssiFilter : Prop :=
  ∀ s : State, s.gaps = [] → s.rssiCnt.toNat ≤ 8 → s.rssiSum.toNat ≤ 255 * s.rssiCnt.toNat →
    (s.rssiCnt.toNat < 8 → ∃ t, exec .rssisamp s = .next t ∧
      t.rssiSum.toNat = s.rssiSum.toNat + (rssiInput s).toNat ∧ t.rssiCnt.toNat = s.rssiCnt.toNat + 1 ∧
      t = { tookRssi s with
        rssiSum := t.rssiSum, rssiCnt := t.rssiCnt
        out := s.out ++ [.transport (.regRead s.cfg.regRssi (rssiInput s))] }) ∧
    (s.rssiCnt.toNat = 8 → ∃ t, exec .rssisamp s = .next t ∧
      t.rssiSmooth.toNat = (s.rssiSmooth.toNat * 3 + (s.rssiSum.toNat + (rssiInput s).toNat) / 9) / 4 ∧
      t = { tookRssi s with
        rssiSum := 0#16, rssiCnt := 0#8, rssiSmooth := t.rssiSmooth
        out := s.out ++ [.transport (.regRead s.cfg.regRssi (rssiInput s))] })

/-- Rule R235 (v): the filter never overshoots. -/
def Obligations.FilterNeverOvershoots : Prop :=
  ∀ (smooth : Byte) (avg : Nat), avg ≤ 255 →
    min smooth.toNat avg ≤ (rssiSmoothed smooth avg).toNat ∧ (rssiSmoothed smooth avg).toNat ≤ max smooth.toNat avg

/-! ## Reset, and what happens inside operations -/

/-- Rules R51, R52, R290, R291: `RESET` puts every register at its reset value and makes no transport call; what is no
register stays (the model's fields: log entries 3, 4, 5, 6).  Every register then reads 0, and the elements of `frame`,
`rxbuf`, `txbuf` hold no value. -/
def Obligations.ResetPutsEveryRegisterAtItsValue : Prop :=
  ∀ s : State, ∃ t, exec .reset s = .next t ∧ t.mode = .idle ∧ t.phase = .idle ∧ t.acq = false ∧ t.hopnow = false ∧
    t.sessActive = false ∧ t.consumerAttached = false ∧ t.cfg = s.cfg ∧ t.inputs = s.inputs ∧ t.draws = s.draws ∧
    t.agenda = s.agenda ∧ t.gaps = s.gaps ∧ t.out = s.out ∧
    ∀ r : Reg, regValue t r = match r with
      | .frame _ | .rxbuf _ | .txbuf _ => none
      | _ => some 0

/-- Rules R256, R258, R290: a `RESET` inside an operation abandons it without result.  Wherever an operation, or a step with the
answer that ends it, comes to an instant in which a `RESET` stands, it ends there: every register at its reset value, and no
answer but the refusals of commands presented inside it before the `RESET` (log entry 14).  A `RESET` is come to before the first
atomic step of every command and of the micro-operations that begin with one; at each of the three instants of a command that its
tests refuse (before the tests, before the record, before the answer); and at both of one that command decode refuses (before the
record, before the answer).  What was to follow in that instant is then presented between operations (the model's choice, log
entry 17); that a command with no bytes is refused while `phase` is not `PH_IDLE` is log entry 13. -/
def Obligations.ResetInsideAbandonsTheOperation : Prop :=
  (∀ (s t : State) (earlier : List (List Gap)) (before after : List Gap) (later : List (List Gap)),
    s.gaps = earlier ++ (before ++ .reset :: after) :: later → (∀ g ∈ earlier, .reset ∉ g) → .reset ∉ before →
    t.gaps.length ≤ later.length →
      (∀ i, exec i s = .next t → AbandonedAfter earlier before after later s.agenda s t) ∧
      (step s = .next t →
        ∃ extra, AbandonedAfter earlier before after later (requeue extra s.agenda.tail) s t)) ∧
  ∀ (s : State) (before after : List Gap) (later : List (List Gap)), (∀ e ∈ before, e = .irq) →
    (∀ i, (opClass i = .cmd ∨ i = .p1Health ∨ i = .p2Rxproc ∨ i = .txwait ∨ i = .rssisamp) →
      s.gaps = (before ++ .reset :: after) :: later → exec i s = .next (abandonedIn before after later s)) ∧
    (∀ i n k, opClass i = .cmd → exec i { s with gaps := [] } = .next (refusedWith n { s with gaps := [] }) → k ≤ 2 →
      s.gaps = List.replicate k [] ++ (before ++ .reset :: after) :: later →
        exec i s = .next (abandonedIn before after later s)) ∧
    ∀ bytes r k, s.cfg.valid = true → s.agenda = .cmd bytes :: r → k ≤ 1 →
      (s.phase ≠ .idle ∨ ∃ c operands, bytes = c :: operands ∧ ∀ i, opClass i = .cmd → opcode i ≠ c) →
      s.gaps = List.replicate k [] ++ (before ++ .reset :: after) :: later →
        step s = .next (abandonedIn before after later { s with agenda := r })

/-- Rule R258, its consequences (a), (c) and (d), rule R303 and rule R316: an `IRQ` before the `mode` read of `P2_RXPROC` counts
in this poll; one after `RXENTER` has written `mode` makes a false `Received`; one before `TXSTART` tests `mode` counts in that
test, one between the test and the write of `mode` is overwritten; one before the record or the answer of a refusal changes
`mode` and nothing of the refusal; a command inside an operation is refused with `RC_BUSY` (log entry 14), whatever its bytes, no
bytes included (log entry 13), and the operation goes on. -/
def Obligations.EventsInsideOperations : Prop :=
  ∀ (s : State) (d f : List Byte),
    (s.gaps = [[.irq]] → s.mode = .receiving → exec .p2Rxproc s = exec .p2Rxproc { s with
      gaps := [], mode := .received, out := s.out ++ [.noWake] }) ∧
    (s.gaps = [[], [], [.irq]] → exec .rxenter s = .next { s with
      gaps := [], mode := .received, out := s.out ++ [.noWake] ++ rxenterEvents ++ [.reply .ok []] }) ∧
    (s.gaps = [[.irq]] → s.mode = .receiving → s.cfg.txFromReceived = false → exec (.txstart d) s =
      .next (refusedWith 0x0C#8 { s with gaps := [], mode := .received, out := s.out ++ [.noWake] })) ∧
    ((s.gaps = [[], [.irq]] ∨ s.gaps = [[], [], [.irq]]) → s.mode = .receiving → 1 ≤ d.length → d.length ≤ s.cfg.txbufLen →
      ∃ t, exec (.txstart d) s = .next t ∧ t.mode = .transmitting) ∧
    ((s.gaps = [[], [.irq]] ∨ s.gaps = [[], [], [.irq]]) → s.mode = .receiving → s.sessActive = false → exec .poll s =
      .next (refusedWith 0x05#8 { s with gaps := [], mode := .received, out := s.out ++ [.noWake] })) ∧
    (s.gaps = [[.cmd f]] → exec .rxenter s = .next { s with
      gaps := [], mode := .receiving, refused := true, refuseCode := 0x0F#8
      out := s.out ++ [.reply .refused []] ++ rxenterEvents ++ [.reply .ok []] })

/-! ## Invariants -/

/-- The reset state meets every invariant below (rules R8, R52, R53). -/
def Obligations.ResetMeetsTheInvariants : Prop :=
  State.reset.cfg.valid = true ∧ LinkInv State.reset ∧ QualityInv State.reset ∧ HeldInv State.reset ∧
    canonical State.reset = true

/-- Rule R53: every step keeps the invariants, whatever is presented and whatever happens inside operations, as long as no
micro-operation is run by itself. -/
def Obligations.StepKeepsTheLinkInvariants : Prop :=
  ∀ s t : State, LinkInv s → step s = .next t → LinkInv t

/-- Rule R235 (ii, iii): every step keeps what the quality bitmask says of the last slots. -/
def Obligations.StepKeepsTheQualityHistory : Prop :=
  ∀ s t : State, LinkInv s → QualityInv s → step s = .next t → QualityInv t

/-- Rules R46, R47: every step keeps exactly the valid elements of `rxbuf`, `txbuf` and `frame` holding values, and channel
values in 0 to 1023. -/
def Obligations.StepKeepsWhichElementsHoldValues : Prop :=
  ∀ s t : State, HeldInv s → step s = .next t → HeldInv t

/-- Every step keeps the byte arrays in canonical form: equal arrays are equal data (the model's form, log entry 22). -/
def Obligations.StepKeepsTheArraysCanonical : Prop :=
  ∀ s t : State, canonical s = true → step s = .next t → canonical t = true

/-- Rules R66, R291: no step changes the configuration, and outputs are only ever added at the end. -/
def Obligations.StepKeepsConfigurationAndHistory : Prop :=
  ∀ s t : State, step s = .next t → t.cfg = s.cfg ∧ s.out <+: t.out

/-- Rules R24, R49, R253: while a session is active no step but a `RESET` writes SessionParameters, and none clears a sticky
`STATUS` bit. -/
def Obligations.OnlyResetClearsStatusOrWritesALockedSession : Prop :=
  ∀ s t : State, step s = .next t → noResetInside s = true → s.agenda.head? ≠ some .reset →
    (s.sessActive = true → t.sp = s.sp) ∧ (s.hang = true → t.hang = true) ∧ (s.txto = true → t.txto = true) ∧
      (s.refused = true → t.refused = true)

end Statements
end

