-- ==== Sys2Proof/Laws/State.lean ====
section
/-! SUPPORT. One lemma per field for each named update of the state, true by `rfl`: no later proof unfolds an update. -/

namespace Sys2Proof.Machine

/-! ### One more output -/

@[simp] theorem put_cfg (o : Output) (s : State) : (put o s).cfg = s.cfg := rfl
@[simp] theorem put_sp (o : Output) (s : State) : (put o s).sp = s.sp := rfl
@[simp] theorem put_mode (o : Output) (s : State) : (put o s).mode = s.mode := rfl
@[simp] theorem put_phase (o : Output) (s : State) : (put o s).phase = s.phase := rfl
@[simp] theorem put_idx (o : Output) (s : State) : (put o s).idx = s.idx := rfl
@[simp] theorem put_hopcount (o : Output) (s : State) : (put o s).hopcount = s.hopcount := rfl
@[simp] theorem put_lost (o : Output) (s : State) : (put o s).lost = s.lost := rfl
@[simp] theorem put_quality (o : Output) (s : State) : (put o s).quality = s.quality := rfl
@[simp] theorem put_rssiSmooth (o : Output) (s : State) : (put o s).rssiSmooth = s.rssiSmooth := rfl
@[simp] theorem put_rssiSum (o : Output) (s : State) : (put o s).rssiSum = s.rssiSum := rfl
@[simp] theorem put_rssiCnt (o : Output) (s : State) : (put o s).rssiCnt = s.rssiCnt := rfl
@[simp] theorem put_tLast (o : Output) (s : State) : (put o s).tLast = s.tLast := rfl
@[simp] theorem put_tRssi (o : Output) (s : State) : (put o s).tRssi = s.tRssi := rfl
@[simp] theorem put_tLoss (o : Output) (s : State) : (put o s).tLoss = s.tLoss := rfl
@[simp] theorem put_acq (o : Output) (s : State) : (put o s).acq = s.acq := rfl
@[simp] theorem put_hopnow (o : Output) (s : State) : (put o s).hopnow = s.hopnow := rfl
@[simp] theorem put_sessActive (o : Output) (s : State) : (put o s).sessActive = s.sessActive := rfl
@[simp] theorem put_consumerAttached (o : Output) (s : State) : (put o s).consumerAttached = s.consumerAttached := rfl
@[simp] theorem put_interval (o : Output) (s : State) : (put o s).interval = s.interval := rfl
@[simp] theorem put_rxbuf (o : Output) (s : State) : (put o s).rxbuf = s.rxbuf := rfl
@[simp] theorem put_rxLen (o : Output) (s : State) : (put o s).rxLen = s.rxLen := rfl
@[simp] theorem put_txbuf (o : Output) (s : State) : (put o s).txbuf = s.txbuf := rfl
@[simp] theorem put_txLen (o : Output) (s : State) : (put o s).txLen = s.txLen := rfl
@[simp] theorem put_frame (o : Output) (s : State) : (put o s).frame = s.frame := rfl
@[simp] theorem put_frameCnt (o : Output) (s : State) : (put o s).frameCnt = s.frameCnt := rfl
@[simp] theorem put_afc (o : Output) (s : State) : (put o s).afc = s.afc := rfl
@[simp] theorem put_hang (o : Output) (s : State) : (put o s).hang = s.hang := rfl
@[simp] theorem put_txto (o : Output) (s : State) : (put o s).txto = s.txto := rfl
@[simp] theorem put_refused (o : Output) (s : State) : (put o s).refused = s.refused := rfl
@[simp] theorem put_refuseCode (o : Output) (s : State) : (put o s).refuseCode = s.refuseCode := rfl
@[simp] theorem put_txT0 (o : Output) (s : State) : (put o s).txT0 = s.txT0 := rfl
@[simp] theorem put_now (o : Output) (s : State) : (put o s).now = s.now := rfl
@[simp] theorem put_txRet (o : Output) (s : State) : (put o s).txRet = s.txRet := rfl
@[simp] theorem put_inputs (o : Output) (s : State) : (put o s).inputs = s.inputs := rfl
@[simp] theorem put_draws (o : Output) (s : State) : (put o s).draws = s.draws := rfl
@[simp] theorem put_agenda (o : Output) (s : State) : (put o s).agenda = s.agenda := rfl
@[simp] theorem put_gaps (o : Output) (s : State) : (put o s).gaps = s.gaps := rfl
@[simp] theorem put_out (o : Output) (s : State) : (put o s).out = s.out ++ [o] := rfl

/-! ### The record of a refusal -/

@[simp] theorem noteRefusal_cfg (c : RefuseCode) (s : State) : (noteRefusal c s).cfg = s.cfg := rfl
@[simp] theorem noteRefusal_sp (c : RefuseCode) (s : State) : (noteRefusal c s).sp = s.sp := rfl
@[simp] theorem noteRefusal_mode (c : RefuseCode) (s : State) : (noteRefusal c s).mode = s.mode := rfl
@[simp] theorem noteRefusal_phase (c : RefuseCode) (s : State) : (noteRefusal c s).phase = s.phase := rfl
@[simp] theorem noteRefusal_idx (c : RefuseCode) (s : State) : (noteRefusal c s).idx = s.idx := rfl
@[simp] theorem noteRefusal_hopcount (c : RefuseCode) (s : State) : (noteRefusal c s).hopcount = s.hopcount := rfl
@[simp] theorem noteRefusal_lost (c : RefuseCode) (s : State) : (noteRefusal c s).lost = s.lost := rfl
@[simp] theorem noteRefusal_quality (c : RefuseCode) (s : State) : (noteRefusal c s).quality = s.quality := rfl
@[simp] theorem noteRefusal_rssiSmooth (c : RefuseCode) (s : State) : (noteRefusal c s).rssiSmooth = s.rssiSmooth := rfl
@[simp] theorem noteRefusal_rssiSum (c : RefuseCode) (s : State) : (noteRefusal c s).rssiSum = s.rssiSum := rfl
@[simp] theorem noteRefusal_rssiCnt (c : RefuseCode) (s : State) : (noteRefusal c s).rssiCnt = s.rssiCnt := rfl
@[simp] theorem noteRefusal_tLast (c : RefuseCode) (s : State) : (noteRefusal c s).tLast = s.tLast := rfl
@[simp] theorem noteRefusal_tRssi (c : RefuseCode) (s : State) : (noteRefusal c s).tRssi = s.tRssi := rfl
@[simp] theorem noteRefusal_tLoss (c : RefuseCode) (s : State) : (noteRefusal c s).tLoss = s.tLoss := rfl
@[simp] theorem noteRefusal_acq (c : RefuseCode) (s : State) : (noteRefusal c s).acq = s.acq := rfl
@[simp] theorem noteRefusal_hopnow (c : RefuseCode) (s : State) : (noteRefusal c s).hopnow = s.hopnow := rfl
@[simp] theorem noteRefusal_sessActive (c : RefuseCode) (s : State) : (noteRefusal c s).sessActive = s.sessActive := rfl
@[simp] theorem noteRefusal_consumerAttached (c : RefuseCode) (s : State) : (noteRefusal c s).consumerAttached = s.consumerAttached := rfl
@[simp] theorem noteRefusal_interval (c : RefuseCode) (s : State) : (noteRefusal c s).interval = s.interval := rfl
@[simp] theorem noteRefusal_rxbuf (c : RefuseCode) (s : State) : (noteRefusal c s).rxbuf = s.rxbuf := rfl
@[simp] theorem noteRefusal_rxLen (c : RefuseCode) (s : State) : (noteRefusal c s).rxLen = s.rxLen := rfl
@[simp] theorem noteRefusal_txbuf (c : RefuseCode) (s : State) : (noteRefusal c s).txbuf = s.txbuf := rfl
@[simp] theorem noteRefusal_txLen (c : RefuseCode) (s : State) : (noteRefusal c s).txLen = s.txLen := rfl
@[simp] theorem noteRefusal_frame (c : RefuseCode) (s : State) : (noteRefusal c s).frame = s.frame := rfl
@[simp] theorem noteRefusal_frameCnt (c : RefuseCode) (s : State) : (noteRefusal c s).frameCnt = s.frameCnt := rfl
@[simp] theorem noteRefusal_afc (c : RefuseCode) (s : State) : (noteRefusal c s).afc = s.afc := rfl
@[simp] theorem noteRefusal_hang (c : RefuseCode) (s : State) : (noteRefusal c s).hang = s.hang := rfl
@[simp] theorem noteRefusal_txto (c : RefuseCode) (s : State) : (noteRefusal c s).txto = s.txto := rfl
@[simp] theorem noteRefusal_refused (c : RefuseCode) (s : State) : (noteRefusal c s).refused = true := rfl
@[simp] theorem noteRefusal_refuseCode (c : RefuseCode) (s : State) : (noteRefusal c s).refuseCode = c.code := rfl
@[simp] theorem noteRefusal_txT0 (c : RefuseCode) (s : State) : (noteRefusal c s).txT0 = s.txT0 := rfl
@[simp] theorem noteRefusal_now (c : RefuseCode) (s : State) : (noteRefusal c s).now = s.now := rfl
@[simp] theorem noteRefusal_txRet (c : RefuseCode) (s : State) : (noteRefusal c s).txRet = s.txRet := rfl
@[simp] theorem noteRefusal_inputs (c : RefuseCode) (s : State) : (noteRefusal c s).inputs = s.inputs := rfl
@[simp] theorem noteRefusal_draws (c : RefuseCode) (s : State) : (noteRefusal c s).draws = s.draws := rfl
@[simp] theorem noteRefusal_agenda (c : RefuseCode) (s : State) : (noteRefusal c s).agenda = s.agenda := rfl
@[simp] theorem noteRefusal_gaps (c : RefuseCode) (s : State) : (noteRefusal c s).gaps = s.gaps := rfl
@[simp] theorem noteRefusal_out (c : RefuseCode) (s : State) : (noteRefusal c s).out = s.out := rfl

/-! ### `IRQ` -/

@[simp] theorem irqStep_cfg (s : State) : (irqStep s).cfg = s.cfg := rfl
@[simp] theorem irqStep_sp (s : State) : (irqStep s).sp = s.sp := rfl
@[simp] theorem irqStep_mode (s : State) : (irqStep s).mode = irqMode s.mode := rfl
@[simp] theorem irqStep_phase (s : State) : (irqStep s).phase = s.phase := rfl
@[simp] theorem irqStep_idx (s : State) : (irqStep s).idx = s.idx := rfl
@[simp] theorem irqStep_hopcount (s : State) : (irqStep s).hopcount = s.hopcount := rfl
@[simp] theorem irqStep_lost (s : State) : (irqStep s).lost = s.lost := rfl
@[simp] theorem irqStep_quality (s : State) : (irqStep s).quality = s.quality := rfl
@[simp] theorem irqStep_rssiSmooth (s : State) : (irqStep s).rssiSmooth = s.rssiSmooth := rfl
@[simp] theorem irqStep_rssiSum (s : State) : (irqStep s).rssiSum = s.rssiSum := rfl
@[simp] theorem irqStep_rssiCnt (s : State) : (irqStep s).rssiCnt = s.rssiCnt := rfl
@[simp] theorem irqStep_tLast (s : State) : (irqStep s).tLast = s.tLast := rfl
@[simp] theorem irqStep_tRssi (s : State) : (irqStep s).tRssi = s.tRssi := rfl
@[simp] theorem irqStep_tLoss (s : State) : (irqStep s).tLoss = s.tLoss := rfl
@[simp] theorem irqStep_acq (s : State) : (irqStep s).acq = s.acq := rfl
@[simp] theorem irqStep_hopnow (s : State) : (irqStep s).hopnow = s.hopnow := rfl
@[simp] theorem irqStep_sessActive (s : State) : (irqStep s).sessActive = s.sessActive := rfl
@[simp] theorem irqStep_consumerAttached (s : State) : (irqStep s).consumerAttached = s.consumerAttached := rfl
@[simp] theorem irqStep_interval (s : State) : (irqStep s).interval = s.interval := rfl
@[simp] theorem irqStep_rxbuf (s : State) : (irqStep s).rxbuf = s.rxbuf := rfl
@[simp] theorem irqStep_rxLen (s : State) : (irqStep s).rxLen = s.rxLen := rfl
@[simp] theorem irqStep_txbuf (s : State) : (irqStep s).txbuf = s.txbuf := rfl
@[simp] theorem irqStep_txLen (s : State) : (irqStep s).txLen = s.txLen := rfl
@[simp] theorem irqStep_frame (s : State) : (irqStep s).frame = s.frame := rfl
@[simp] theorem irqStep_frameCnt (s : State) : (irqStep s).frameCnt = s.frameCnt := rfl
@[simp] theorem irqStep_afc (s : State) : (irqStep s).afc = s.afc := rfl
@[simp] theorem irqStep_hang (s : State) : (irqStep s).hang = s.hang := rfl
@[simp] theorem irqStep_txto (s : State) : (irqStep s).txto = s.txto := rfl
@[simp] theorem irqStep_refused (s : State) : (irqStep s).refused = s.refused := rfl
@[simp] theorem irqStep_refuseCode (s : State) : (irqStep s).refuseCode = s.refuseCode := rfl
@[simp] theorem irqStep_txT0 (s : State) : (irqStep s).txT0 = s.txT0 := rfl
@[simp] theorem irqStep_now (s : State) : (irqStep s).now = s.now := rfl
@[simp] theorem irqStep_txRet (s : State) : (irqStep s).txRet = s.txRet := rfl
@[simp] theorem irqStep_inputs (s : State) : (irqStep s).inputs = s.inputs := rfl
@[simp] theorem irqStep_draws (s : State) : (irqStep s).draws = s.draws := rfl
@[simp] theorem irqStep_agenda (s : State) : (irqStep s).agenda = s.agenda := rfl
@[simp] theorem irqStep_gaps (s : State) : (irqStep s).gaps = s.gaps := rfl
@[simp] theorem irqStep_out (s : State) : (irqStep s).out = s.out ++ [.noWake] := rfl

/-! ### The writes of `UNPACK` -/

@[simp] theorem unpackWrite_cfg (c : BitVec 3) (p : List Byte) (s : State) : (unpackWrite c p s).cfg = s.cfg := rfl
@[simp] theorem unpackWrite_sp (c : BitVec 3) (p : List Byte) (s : State) : (unpackWrite c p s).sp = s.sp := rfl
@[simp] theorem unpackWrite_mode (c : BitVec 3) (p : List Byte) (s : State) : (unpackWrite c p s).mode = s.mode := rfl
@[simp] theorem unpackWrite_phase (c : BitVec 3) (p : List Byte) (s : State) : (unpackWrite c p s).phase = s.phase := rfl
@[simp] theorem unpackWrite_idx (c : BitVec 3) (p : List Byte) (s : State) : (unpackWrite c p s).idx = s.idx := rfl
@[simp] theorem unpackWrite_hopcount (c : BitVec 3) (p : List Byte) (s : State) : (unpackWrite c p s).hopcount = s.hopcount := rfl
@[simp] theorem unpackWrite_lost (c : BitVec 3) (p : List Byte) (s : State) : (unpackWrite c p s).lost = s.lost := rfl
@[simp] theorem unpackWrite_quality (c : BitVec 3) (p : List Byte) (s : State) : (unpackWrite c p s).quality = s.quality := rfl
@[simp] theorem unpackWrite_rssiSmooth (c : BitVec 3) (p : List Byte) (s : State) : (unpackWrite c p s).rssiSmooth = s.rssiSmooth := rfl
@[simp] theorem unpackWrite_rssiSum (c : BitVec 3) (p : List Byte) (s : State) : (unpackWrite c p s).rssiSum = s.rssiSum := rfl
@[simp] theorem unpackWrite_rssiCnt (c : BitVec 3) (p : List Byte) (s : State) : (unpackWrite c p s).rssiCnt = s.rssiCnt := rfl
@[simp] theorem unpackWrite_tLast (c : BitVec 3) (p : List Byte) (s : State) : (unpackWrite c p s).tLast = s.tLast := rfl
@[simp] theorem unpackWrite_tRssi (c : BitVec 3) (p : List Byte) (s : State) : (unpackWrite c p s).tRssi = s.tRssi := rfl
@[simp] theorem unpackWrite_tLoss (c : BitVec 3) (p : List Byte) (s : State) : (unpackWrite c p s).tLoss = s.tLoss := rfl
@[simp] theorem unpackWrite_acq (c : BitVec 3) (p : List Byte) (s : State) : (unpackWrite c p s).acq = s.acq := rfl
@[simp] theorem unpackWrite_hopnow (c : BitVec 3) (p : List Byte) (s : State) : (unpackWrite c p s).hopnow = s.hopnow := rfl
@[simp] theorem unpackWrite_sessActive (c : BitVec 3) (p : List Byte) (s : State) : (unpackWrite c p s).sessActive = s.sessActive := rfl
@[simp] theorem unpackWrite_consumerAttached (c : BitVec 3) (p : List Byte) (s : State) : (unpackWrite c p s).consumerAttached = s.consumerAttached := rfl
@[simp] theorem unpackWrite_interval (c : BitVec 3) (p : List Byte) (s : State) : (unpackWrite c p s).interval = s.interval := rfl
@[simp] theorem unpackWrite_rxbuf (c : BitVec 3) (p : List Byte) (s : State) : (unpackWrite c p s).rxbuf = s.rxbuf := rfl
@[simp] theorem unpackWrite_rxLen (c : BitVec 3) (p : List Byte) (s : State) : (unpackWrite c p s).rxLen = s.rxLen := rfl
@[simp] theorem unpackWrite_txbuf (c : BitVec 3) (p : List Byte) (s : State) : (unpackWrite c p s).txbuf = s.txbuf := rfl
@[simp] theorem unpackWrite_txLen (c : BitVec 3) (p : List Byte) (s : State) : (unpackWrite c p s).txLen = s.txLen := rfl
@[simp] theorem unpackWrite_frame (c : BitVec 3) (p : List Byte) (s : State) : (unpackWrite c p s).frame = unpackChannels s.cfg c p := rfl
@[simp] theorem unpackWrite_frameCnt (c : BitVec 3) (p : List Byte) (s : State) : (unpackWrite c p s).frameCnt = BitVec.ofNat 5 (s.cfg.channelCount c) := rfl
@[simp] theorem unpackWrite_afc (c : BitVec 3) (p : List Byte) (s : State) : (unpackWrite c p s).afc = s.afc := rfl
@[simp] theorem unpackWrite_hang (c : BitVec 3) (p : List Byte) (s : State) : (unpackWrite c p s).hang = s.hang := rfl
@[simp] theorem unpackWrite_txto (c : BitVec 3) (p : List Byte) (s : State) : (unpackWrite c p s).txto = s.txto := rfl
@[simp] theorem unpackWrite_refused (c : BitVec 3) (p : List Byte) (s : State) : (unpackWrite c p s).refused = s.refused := rfl
@[simp] theorem unpackWrite_refuseCode (c : BitVec 3) (p : List Byte) (s : State) : (unpackWrite c p s).refuseCode = s.refuseCode := rfl
@[simp] theorem unpackWrite_txT0 (c : BitVec 3) (p : List Byte) (s : State) : (unpackWrite c p s).txT0 = s.txT0 := rfl
@[simp] theorem unpackWrite_now (c : BitVec 3) (p : List Byte) (s : State) : (unpackWrite c p s).now = s.now := rfl
@[simp] theorem unpackWrite_txRet (c : BitVec 3) (p : List Byte) (s : State) : (unpackWrite c p s).txRet = s.txRet := rfl
@[simp] theorem unpackWrite_inputs (c : BitVec 3) (p : List Byte) (s : State) : (unpackWrite c p s).inputs = s.inputs := rfl
@[simp] theorem unpackWrite_draws (c : BitVec 3) (p : List Byte) (s : State) : (unpackWrite c p s).draws = s.draws := rfl
@[simp] theorem unpackWrite_agenda (c : BitVec 3) (p : List Byte) (s : State) : (unpackWrite c p s).agenda = s.agenda := rfl
@[simp] theorem unpackWrite_gaps (c : BitVec 3) (p : List Byte) (s : State) : (unpackWrite c p s).gaps = s.gaps := rfl
@[simp] theorem unpackWrite_out (c : BitVec 3) (p : List Byte) (s : State) : (unpackWrite c p s).out = s.out := rfl

/-! ### The write of `INTERVAL` -/

@[simp] theorem intervalWrite_cfg (s : State) : (intervalWrite s).cfg = s.cfg := rfl
@[simp] theorem intervalWrite_sp (s : State) : (intervalWrite s).sp = s.sp := rfl
@[simp] theorem intervalWrite_mode (s : State) : (intervalWrite s).mode = s.mode := rfl
@[simp] theorem intervalWrite_phase (s : State) : (intervalWrite s).phase = s.phase := rfl
@[simp] theorem intervalWrite_idx (s : State) : (intervalWrite s).idx = s.idx := rfl
@[simp] theorem intervalWrite_hopcount (s : State) : (intervalWrite s).hopcount = s.hopcount := rfl
@[simp] theorem intervalWrite_lost (s : State) : (intervalWrite s).lost = s.lost := rfl
@[simp] theorem intervalWrite_quality (s : State) : (intervalWrite s).quality = s.quality := rfl
@[simp] theorem intervalWrite_rssiSmooth (s : State) : (intervalWrite s).rssiSmooth = s.rssiSmooth := rfl
@[simp] theorem intervalWrite_rssiSum (s : State) : (intervalWrite s).rssiSum = s.rssiSum := rfl
@[simp] theorem intervalWrite_rssiCnt (s : State) : (intervalWrite s).rssiCnt = s.rssiCnt := rfl
@[simp] theorem intervalWrite_tLast (s : State) : (intervalWrite s).tLast = s.tLast := rfl
@[simp] theorem intervalWrite_tRssi (s : State) : (intervalWrite s).tRssi = s.tRssi := rfl
@[simp] theorem intervalWrite_tLoss (s : State) : (intervalWrite s).tLoss = s.tLoss := rfl
@[simp] theorem intervalWrite_acq (s : State) : (intervalWrite s).acq = s.acq := rfl
@[simp] theorem intervalWrite_hopnow (s : State) : (intervalWrite s).hopnow = s.hopnow := rfl
@[simp] theorem intervalWrite_sessActive (s : State) : (intervalWrite s).sessActive = s.sessActive := rfl
@[simp] theorem intervalWrite_consumerAttached (s : State) : (intervalWrite s).consumerAttached = s.consumerAttached := rfl
@[simp] theorem intervalWrite_interval (s : State) : (intervalWrite s).interval = BitVec.ofNat 32 (intervalOf s.cfg s.sp) := rfl
@[simp] theorem intervalWrite_rxbuf (s : State) : (intervalWrite s).rxbuf = s.rxbuf := rfl
@[simp] theorem intervalWrite_rxLen (s : State) : (intervalWrite s).rxLen = s.rxLen := rfl
@[simp] theorem intervalWrite_txbuf (s : State) : (intervalWrite s).txbuf = s.txbuf := rfl
@[simp] theorem intervalWrite_txLen (s : State) : (intervalWrite s).txLen = s.txLen := rfl
@[simp] theorem intervalWrite_frame (s : State) : (intervalWrite s).frame = s.frame := rfl
@[simp] theorem intervalWrite_frameCnt (s : State) : (intervalWrite s).frameCnt = s.frameCnt := rfl
@[simp] theorem intervalWrite_afc (s : State) : (intervalWrite s).afc = s.afc := rfl
@[simp] theorem intervalWrite_hang (s : State) : (intervalWrite s).hang = s.hang := rfl
@[simp] theorem intervalWrite_txto (s : State) : (intervalWrite s).txto = s.txto := rfl
@[simp] theorem intervalWrite_refused (s : State) : (intervalWrite s).refused = s.refused := rfl
@[simp] theorem intervalWrite_refuseCode (s : State) : (intervalWrite s).refuseCode = s.refuseCode := rfl
@[simp] theorem intervalWrite_txT0 (s : State) : (intervalWrite s).txT0 = s.txT0 := rfl
@[simp] theorem intervalWrite_now (s : State) : (intervalWrite s).now = s.now := rfl
@[simp] theorem intervalWrite_txRet (s : State) : (intervalWrite s).txRet = s.txRet := rfl
@[simp] theorem intervalWrite_inputs (s : State) : (intervalWrite s).inputs = s.inputs := rfl
@[simp] theorem intervalWrite_draws (s : State) : (intervalWrite s).draws = s.draws := rfl
@[simp] theorem intervalWrite_agenda (s : State) : (intervalWrite s).agenda = s.agenda := rfl
@[simp] theorem intervalWrite_gaps (s : State) : (intervalWrite s).gaps = s.gaps := rfl
@[simp] theorem intervalWrite_out (s : State) : (intervalWrite s).out = s.out := rfl

/-! ### The write of `HOPCNT` -/

@[simp] theorem hopcntWrite_cfg (s : State) : (hopcntWrite s).cfg = s.cfg := rfl
@[simp] theorem hopcntWrite_sp (s : State) : (hopcntWrite s).sp = s.sp := rfl
@[simp] theorem hopcntWrite_mode (s : State) : (hopcntWrite s).mode = s.mode := rfl
@[simp] theorem hopcntWrite_phase (s : State) : (hopcntWrite s).phase = s.phase := rfl
@[simp] theorem hopcntWrite_idx (s : State) : (hopcntWrite s).idx = s.idx := rfl
@[simp] theorem hopcntWrite_hopcount (s : State) : (hopcntWrite s).hopcount = BitVec.ofNat 8 (hopCount s.sp.hop s.cfg.maxHops) := rfl
@[simp] theorem hopcntWrite_lost (s : State) : (hopcntWrite s).lost = s.lost := rfl
@[simp] theorem hopcntWrite_quality (s : State) : (hopcntWrite s).quality = s.quality := rfl
@[simp] theorem hopcntWrite_rssiSmooth (s : State) : (hopcntWrite s).rssiSmooth = s.rssiSmooth := rfl
@[simp] theorem hopcntWrite_rssiSum (s : State) : (hopcntWrite s).rssiSum = s.rssiSum := rfl
@[simp] theorem hopcntWrite_rssiCnt (s : State) : (hopcntWrite s).rssiCnt = s.rssiCnt := rfl
@[simp] theorem hopcntWrite_tLast (s : State) : (hopcntWrite s).tLast = s.tLast := rfl
@[simp] theorem hopcntWrite_tRssi (s : State) : (hopcntWrite s).tRssi = s.tRssi := rfl
@[simp] theorem hopcntWrite_tLoss (s : State) : (hopcntWrite s).tLoss = s.tLoss := rfl
@[simp] theorem hopcntWrite_acq (s : State) : (hopcntWrite s).acq = s.acq := rfl
@[simp] theorem hopcntWrite_hopnow (s : State) : (hopcntWrite s).hopnow = s.hopnow := rfl
@[simp] theorem hopcntWrite_sessActive (s : State) : (hopcntWrite s).sessActive = s.sessActive := rfl
@[simp] theorem hopcntWrite_consumerAttached (s : State) : (hopcntWrite s).consumerAttached = s.consumerAttached := rfl
@[simp] theorem hopcntWrite_interval (s : State) : (hopcntWrite s).interval = s.interval := rfl
@[simp] theorem hopcntWrite_rxbuf (s : State) : (hopcntWrite s).rxbuf = s.rxbuf := rfl
@[simp] theorem hopcntWrite_rxLen (s : State) : (hopcntWrite s).rxLen = s.rxLen := rfl
@[simp] theorem hopcntWrite_txbuf (s : State) : (hopcntWrite s).txbuf = s.txbuf := rfl
@[simp] theorem hopcntWrite_txLen (s : State) : (hopcntWrite s).txLen = s.txLen := rfl
@[simp] theorem hopcntWrite_frame (s : State) : (hopcntWrite s).frame = s.frame := rfl
@[simp] theorem hopcntWrite_frameCnt (s : State) : (hopcntWrite s).frameCnt = s.frameCnt := rfl
@[simp] theorem hopcntWrite_afc (s : State) : (hopcntWrite s).afc = s.afc := rfl
@[simp] theorem hopcntWrite_hang (s : State) : (hopcntWrite s).hang = s.hang := rfl
@[simp] theorem hopcntWrite_txto (s : State) : (hopcntWrite s).txto = s.txto := rfl
@[simp] theorem hopcntWrite_refused (s : State) : (hopcntWrite s).refused = s.refused := rfl
@[simp] theorem hopcntWrite_refuseCode (s : State) : (hopcntWrite s).refuseCode = s.refuseCode := rfl
@[simp] theorem hopcntWrite_txT0 (s : State) : (hopcntWrite s).txT0 = s.txT0 := rfl
@[simp] theorem hopcntWrite_now (s : State) : (hopcntWrite s).now = s.now := rfl
@[simp] theorem hopcntWrite_txRet (s : State) : (hopcntWrite s).txRet = s.txRet := rfl
@[simp] theorem hopcntWrite_inputs (s : State) : (hopcntWrite s).inputs = s.inputs := rfl
@[simp] theorem hopcntWrite_draws (s : State) : (hopcntWrite s).draws = s.draws := rfl
@[simp] theorem hopcntWrite_agenda (s : State) : (hopcntWrite s).agenda = s.agenda := rfl
@[simp] theorem hopcntWrite_gaps (s : State) : (hopcntWrite s).gaps = s.gaps := rfl
@[simp] theorem hopcntWrite_out (s : State) : (hopcntWrite s).out = s.out := rfl

/-! ### The write of `ADVANCE` -/

@[simp] theorem advanceWrite_cfg (s : State) : (advanceWrite s).cfg = s.cfg := rfl
@[simp] theorem advanceWrite_sp (s : State) : (advanceWrite s).sp = s.sp := rfl
@[simp] theorem advanceWrite_mode (s : State) : (advanceWrite s).mode = s.mode := rfl
@[simp] theorem advanceWrite_phase (s : State) : (advanceWrite s).phase = s.phase := rfl
@[simp] theorem advanceWrite_idx (s : State) : (advanceWrite s).idx = nextIndex s.cfg s.sp.hop s.hopcount s.idx := rfl
@[simp] theorem advanceWrite_hopcount (s : State) : (advanceWrite s).hopcount = s.hopcount := rfl
@[simp] theorem advanceWrite_lost (s : State) : (advanceWrite s).lost = s.lost := rfl
@[simp] theorem advanceWrite_quality (s : State) : (advanceWrite s).quality = s.quality := rfl
@[simp] theorem advanceWrite_rssiSmooth (s : State) : (advanceWrite s).rssiSmooth = s.rssiSmooth := rfl
@[simp] theorem advanceWrite_rssiSum (s : State) : (advanceWrite s).rssiSum = s.rssiSum := rfl
@[simp] theorem advanceWrite_rssiCnt (s : State) : (advanceWrite s).rssiCnt = s.rssiCnt := rfl
@[simp] theorem advanceWrite_tLast (s : State) : (advanceWrite s).tLast = s.tLast := rfl
@[simp] theorem advanceWrite_tRssi (s : State) : (advanceWrite s).tRssi = s.tRssi := rfl
@[simp] theorem advanceWrite_tLoss (s : State) : (advanceWrite s).tLoss = s.tLoss := rfl
@[simp] theorem advanceWrite_acq (s : State) : (advanceWrite s).acq = s.acq := rfl
@[simp] theorem advanceWrite_hopnow (s : State) : (advanceWrite s).hopnow = s.hopnow := rfl
@[simp] theorem advanceWrite_sessActive (s : State) : (advanceWrite s).sessActive = s.sessActive := rfl
@[simp] theorem advanceWrite_consumerAttached (s : State) : (advanceWrite s).consumerAttached = s.consumerAttached := rfl
@[simp] theorem advanceWrite_interval (s : State) : (advanceWrite s).interval = s.interval := rfl
@[simp] theorem advanceWrite_rxbuf (s : State) : (advanceWrite s).rxbuf = s.rxbuf := rfl
@[simp] theorem advanceWrite_rxLen (s : State) : (advanceWrite s).rxLen = s.rxLen := rfl
@[simp] theorem advanceWrite_txbuf (s : State) : (advanceWrite s).txbuf = s.txbuf := rfl
@[simp] theorem advanceWrite_txLen (s : State) : (advanceWrite s).txLen = s.txLen := rfl
@[simp] theorem advanceWrite_frame (s : State) : (advanceWrite s).frame = s.frame := rfl
@[simp] theorem advanceWrite_frameCnt (s : State) : (advanceWrite s).frameCnt = s.frameCnt := rfl
@[simp] theorem advanceWrite_afc (s : State) : (advanceWrite s).afc = s.afc := rfl
@[simp] theorem advanceWrite_hang (s : State) : (advanceWrite s).hang = s.hang := rfl
@[simp] theorem advanceWrite_txto (s : State) : (advanceWrite s).txto = s.txto := rfl
@[simp] theorem advanceWrite_refused (s : State) : (advanceWrite s).refused = s.refused := rfl
@[simp] theorem advanceWrite_refuseCode (s : State) : (advanceWrite s).refuseCode = s.refuseCode := rfl
@[simp] theorem advanceWrite_txT0 (s : State) : (advanceWrite s).txT0 = s.txT0 := rfl
@[simp] theorem advanceWrite_now (s : State) : (advanceWrite s).now = s.now := rfl
@[simp] theorem advanceWrite_txRet (s : State) : (advanceWrite s).txRet = s.txRet := rfl
@[simp] theorem advanceWrite_inputs (s : State) : (advanceWrite s).inputs = s.inputs := rfl
@[simp] theorem advanceWrite_draws (s : State) : (advanceWrite s).draws = s.draws := rfl
@[simp] theorem advanceWrite_agenda (s : State) : (advanceWrite s).agenda = s.agenda := rfl
@[simp] theorem advanceWrite_gaps (s : State) : (advanceWrite s).gaps = s.gaps := rfl
@[simp] theorem advanceWrite_out (s : State) : (advanceWrite s).out = s.out := rfl

/-! ### `QHIT` -/

@[simp] theorem qhit_cfg (s : State) : (qhit s).cfg = s.cfg := rfl
@[simp] theorem qhit_sp (s : State) : (qhit s).sp = s.sp := rfl
@[simp] theorem qhit_mode (s : State) : (qhit s).mode = s.mode := rfl
@[simp] theorem qhit_phase (s : State) : (qhit s).phase = s.phase := rfl
@[simp] theorem qhit_idx (s : State) : (qhit s).idx = s.idx := rfl
@[simp] theorem qhit_hopcount (s : State) : (qhit s).hopcount = s.hopcount := rfl
@[simp] theorem qhit_lost (s : State) : (qhit s).lost = s.lost := rfl
@[simp] theorem qhit_quality (s : State) : (qhit s).quality = qualityShift s.cfg.qw s.quality true := rfl
@[simp] theorem qhit_rssiSmooth (s : State) : (qhit s).rssiSmooth = s.rssiSmooth := rfl
@[simp] theorem qhit_rssiSum (s : State) : (qhit s).rssiSum = s.rssiSum := rfl
@[simp] theorem qhit_rssiCnt (s : State) : (qhit s).rssiCnt = s.rssiCnt := rfl
@[simp] theorem qhit_tLast (s : State) : (qhit s).tLast = s.tLast := rfl
@[simp] theorem qhit_tRssi (s : State) : (qhit s).tRssi = s.tRssi := rfl
@[simp] theorem qhit_tLoss (s : State) : (qhit s).tLoss = s.tLoss := rfl
@[simp] theorem qhit_acq (s : State) : (qhit s).acq = s.acq := rfl
@[simp] theorem qhit_hopnow (s : State) : (qhit s).hopnow = s.hopnow := rfl
@[simp] theorem qhit_sessActive (s : State) : (qhit s).sessActive = s.sessActive := rfl
@[simp] theorem qhit_consumerAttached (s : State) : (qhit s).consumerAttached = s.consumerAttached := rfl
@[simp] theorem qhit_interval (s : State) : (qhit s).interval = s.interval := rfl
@[simp] theorem qhit_rxbuf (s : State) : (qhit s).rxbuf = s.rxbuf := rfl
@[simp] theorem qhit_rxLen (s : State) : (qhit s).rxLen = s.rxLen := rfl
@[simp] theorem qhit_txbuf (s : State) : (qhit s).txbuf = s.txbuf := rfl
@[simp] theorem qhit_txLen (s : State) : (qhit s).txLen = s.txLen := rfl
@[simp] theorem qhit_frame (s : State) : (qhit s).frame = s.frame := rfl
@[simp] theorem qhit_frameCnt (s : State) : (qhit s).frameCnt = s.frameCnt := rfl
@[simp] theorem qhit_afc (s : State) : (qhit s).afc = s.afc := rfl
@[simp] theorem qhit_hang (s : State) : (qhit s).hang = s.hang := rfl
@[simp] theorem qhit_txto (s : State) : (qhit s).txto = s.txto := rfl
@[simp] theorem qhit_refused (s : State) : (qhit s).refused = s.refused := rfl
@[simp] theorem qhit_refuseCode (s : State) : (qhit s).refuseCode = s.refuseCode := rfl
@[simp] theorem qhit_txT0 (s : State) : (qhit s).txT0 = s.txT0 := rfl
@[simp] theorem qhit_now (s : State) : (qhit s).now = s.now := rfl
@[simp] theorem qhit_txRet (s : State) : (qhit s).txRet = s.txRet := rfl
@[simp] theorem qhit_inputs (s : State) : (qhit s).inputs = s.inputs := rfl
@[simp] theorem qhit_draws (s : State) : (qhit s).draws = s.draws := rfl
@[simp] theorem qhit_agenda (s : State) : (qhit s).agenda = s.agenda := rfl
@[simp] theorem qhit_gaps (s : State) : (qhit s).gaps = s.gaps := rfl
@[simp] theorem qhit_out (s : State) : (qhit s).out = s.out := rfl

/-! ### `QMISS` -/

@[simp] theorem qmiss_cfg (s : State) : (qmiss s).cfg = s.cfg := rfl
@[simp] theorem qmiss_sp (s : State) : (qmiss s).sp = s.sp := rfl
@[simp] theorem qmiss_mode (s : State) : (qmiss s).mode = s.mode := rfl
@[simp] theorem qmiss_phase (s : State) : (qmiss s).phase = s.phase := rfl
@[simp] theorem qmiss_idx (s : State) : (qmiss s).idx = s.idx := rfl
@[simp] theorem qmiss_hopcount (s : State) : (qmiss s).hopcount = s.hopcount := rfl
@[simp] theorem qmiss_lost (s : State) : (qmiss s).lost = s.lost := rfl
@[simp] theorem qmiss_quality (s : State) : (qmiss s).quality = qualityShift s.cfg.qw s.quality false := rfl
@[simp] theorem qmiss_rssiSmooth (s : State) : (qmiss s).rssiSmooth = s.rssiSmooth := rfl
@[simp] theorem qmiss_rssiSum (s : State) : (qmiss s).rssiSum = s.rssiSum := rfl
@[simp] theorem qmiss_rssiCnt (s : State) : (qmiss s).rssiCnt = s.rssiCnt := rfl
@[simp] theorem qmiss_tLast (s : State) : (qmiss s).tLast = s.tLast := rfl
@[simp] theorem qmiss_tRssi (s : State) : (qmiss s).tRssi = s.tRssi := rfl
@[simp] theorem qmiss_tLoss (s : State) : (qmiss s).tLoss = s.tLoss := rfl
@[simp] theorem qmiss_acq (s : State) : (qmiss s).acq = s.acq := rfl
@[simp] theorem qmiss_hopnow (s : State) : (qmiss s).hopnow = s.hopnow := rfl
@[simp] theorem qmiss_sessActive (s : State) : (qmiss s).sessActive = s.sessActive := rfl
@[simp] theorem qmiss_consumerAttached (s : State) : (qmiss s).consumerAttached = s.consumerAttached := rfl
@[simp] theorem qmiss_interval (s : State) : (qmiss s).interval = s.interval := rfl
@[simp] theorem qmiss_rxbuf (s : State) : (qmiss s).rxbuf = s.rxbuf := rfl
@[simp] theorem qmiss_rxLen (s : State) : (qmiss s).rxLen = s.rxLen := rfl
@[simp] theorem qmiss_txbuf (s : State) : (qmiss s).txbuf = s.txbuf := rfl
@[simp] theorem qmiss_txLen (s : State) : (qmiss s).txLen = s.txLen := rfl
@[simp] theorem qmiss_frame (s : State) : (qmiss s).frame = s.frame := rfl
@[simp] theorem qmiss_frameCnt (s : State) : (qmiss s).frameCnt = s.frameCnt := rfl
@[simp] theorem qmiss_afc (s : State) : (qmiss s).afc = s.afc := rfl
@[simp] theorem qmiss_hang (s : State) : (qmiss s).hang = s.hang := rfl
@[simp] theorem qmiss_txto (s : State) : (qmiss s).txto = s.txto := rfl
@[simp] theorem qmiss_refused (s : State) : (qmiss s).refused = s.refused := rfl
@[simp] theorem qmiss_refuseCode (s : State) : (qmiss s).refuseCode = s.refuseCode := rfl
@[simp] theorem qmiss_txT0 (s : State) : (qmiss s).txT0 = s.txT0 := rfl
@[simp] theorem qmiss_now (s : State) : (qmiss s).now = s.now := rfl
@[simp] theorem qmiss_txRet (s : State) : (qmiss s).txRet = s.txRet := rfl
@[simp] theorem qmiss_inputs (s : State) : (qmiss s).inputs = s.inputs := rfl
@[simp] theorem qmiss_draws (s : State) : (qmiss s).draws = s.draws := rfl
@[simp] theorem qmiss_agenda (s : State) : (qmiss s).agenda = s.agenda := rfl
@[simp] theorem qmiss_gaps (s : State) : (qmiss s).gaps = s.gaps := rfl
@[simp] theorem qmiss_out (s : State) : (qmiss s).out = s.out := rfl

/-! ### The payload of `TXSTART` -/

@[simp] theorem txLoad_cfg (d : List Byte) (s : State) : (txLoad d s).cfg = s.cfg := rfl
@[simp] theorem txLoad_sp (d : List Byte) (s : State) : (txLoad d s).sp = s.sp := rfl
@[simp] theorem txLoad_mode (d : List Byte) (s : State) : (txLoad d s).mode = s.mode := rfl
@[simp] theorem txLoad_phase (d : List Byte) (s : State) : (txLoad d s).phase = s.phase := rfl
@[simp] theorem txLoad_idx (d : List Byte) (s : State) : (txLoad d s).idx = s.idx := rfl
@[simp] theorem txLoad_hopcount (d : List Byte) (s : State) : (txLoad d s).hopcount = s.hopcount := rfl
@[simp] theorem txLoad_lost (d : List Byte) (s : State) : (txLoad d s).lost = s.lost := rfl
@[simp] theorem txLoad_quality (d : List Byte) (s : State) : (txLoad d s).quality = s.quality := rfl
@[simp] theorem txLoad_rssiSmooth (d : List Byte) (s : State) : (txLoad d s).rssiSmooth = s.rssiSmooth := rfl
@[simp] theorem txLoad_rssiSum (d : List Byte) (s : State) : (txLoad d s).rssiSum = s.rssiSum := rfl
@[simp] theorem txLoad_rssiCnt (d : List Byte) (s : State) : (txLoad d s).rssiCnt = s.rssiCnt := rfl
@[simp] theorem txLoad_tLast (d : List Byte) (s : State) : (txLoad d s).tLast = s.tLast := rfl
@[simp] theorem txLoad_tRssi (d : List Byte) (s : State) : (txLoad d s).tRssi = s.tRssi := rfl
@[simp] theorem txLoad_tLoss (d : List Byte) (s : State) : (txLoad d s).tLoss = s.tLoss := rfl
@[simp] theorem txLoad_acq (d : List Byte) (s : State) : (txLoad d s).acq = s.acq := rfl
@[simp] theorem txLoad_hopnow (d : List Byte) (s : State) : (txLoad d s).hopnow = s.hopnow := rfl
@[simp] theorem txLoad_sessActive (d : List Byte) (s : State) : (txLoad d s).sessActive = s.sessActive := rfl
@[simp] theorem txLoad_consumerAttached (d : List Byte) (s : State) : (txLoad d s).consumerAttached = s.consumerAttached := rfl
@[simp] theorem txLoad_interval (d : List Byte) (s : State) : (txLoad d s).interval = s.interval := rfl
@[simp] theorem txLoad_rxbuf (d : List Byte) (s : State) : (txLoad d s).rxbuf = s.rxbuf := rfl
@[simp] theorem txLoad_rxLen (d : List Byte) (s : State) : (txLoad d s).rxLen = s.rxLen := rfl
@[simp] theorem txLoad_txbuf (d : List Byte) (s : State) : (txLoad d s).txbuf = bufferOf d := rfl
@[simp] theorem txLoad_txLen (d : List Byte) (s : State) : (txLoad d s).txLen = BitVec.ofNat 8 d.length := rfl
@[simp] theorem txLoad_frame (d : List Byte) (s : State) : (txLoad d s).frame = s.frame := rfl
@[simp] theorem txLoad_frameCnt (d : List Byte) (s : State) : (txLoad d s).frameCnt = s.frameCnt := rfl
@[simp] theorem txLoad_afc (d : List Byte) (s : State) : (txLoad d s).afc = s.afc := rfl
@[simp] theorem txLoad_hang (d : List Byte) (s : State) : (txLoad d s).hang = s.hang := rfl
@[simp] theorem txLoad_txto (d : List Byte) (s : State) : (txLoad d s).txto = s.txto := rfl
@[simp] theorem txLoad_refused (d : List Byte) (s : State) : (txLoad d s).refused = s.refused := rfl
@[simp] theorem txLoad_refuseCode (d : List Byte) (s : State) : (txLoad d s).refuseCode = s.refuseCode := rfl
@[simp] theorem txLoad_txT0 (d : List Byte) (s : State) : (txLoad d s).txT0 = s.txT0 := rfl
@[simp] theorem txLoad_now (d : List Byte) (s : State) : (txLoad d s).now = s.now := rfl
@[simp] theorem txLoad_txRet (d : List Byte) (s : State) : (txLoad d s).txRet = s.txRet := rfl
@[simp] theorem txLoad_inputs (d : List Byte) (s : State) : (txLoad d s).inputs = s.inputs := rfl
@[simp] theorem txLoad_draws (d : List Byte) (s : State) : (txLoad d s).draws = s.draws := rfl
@[simp] theorem txLoad_agenda (d : List Byte) (s : State) : (txLoad d s).agenda = s.agenda := rfl
@[simp] theorem txLoad_gaps (d : List Byte) (s : State) : (txLoad d s).gaps = s.gaps := rfl
@[simp] theorem txLoad_out (d : List Byte) (s : State) : (txLoad d s).out = s.out := rfl

/-! ### The packet of `P2_RXPROC` -/

@[simp] theorem rxStore_cfg (d : List Byte) (s : State) : (rxStore d s).cfg = s.cfg := rfl
@[simp] theorem rxStore_sp (d : List Byte) (s : State) : (rxStore d s).sp = s.sp := rfl
@[simp] theorem rxStore_mode (d : List Byte) (s : State) : (rxStore d s).mode = s.mode := rfl
@[simp] theorem rxStore_phase (d : List Byte) (s : State) : (rxStore d s).phase = s.phase := rfl
@[simp] theorem rxStore_idx (d : List Byte) (s : State) : (rxStore d s).idx = s.idx := rfl
@[simp] theorem rxStore_hopcount (d : List Byte) (s : State) : (rxStore d s).hopcount = s.hopcount := rfl
@[simp] theorem rxStore_lost (d : List Byte) (s : State) : (rxStore d s).lost = s.lost := rfl
@[simp] theorem rxStore_quality (d : List Byte) (s : State) : (rxStore d s).quality = s.quality := rfl
@[simp] theorem rxStore_rssiSmooth (d : List Byte) (s : State) : (rxStore d s).rssiSmooth = s.rssiSmooth := rfl
@[simp] theorem rxStore_rssiSum (d : List Byte) (s : State) : (rxStore d s).rssiSum = s.rssiSum := rfl
@[simp] theorem rxStore_rssiCnt (d : List Byte) (s : State) : (rxStore d s).rssiCnt = s.rssiCnt := rfl
@[simp] theorem rxStore_tLast (d : List Byte) (s : State) : (rxStore d s).tLast = s.tLast := rfl
@[simp] theorem rxStore_tRssi (d : List Byte) (s : State) : (rxStore d s).tRssi = s.tRssi := rfl
@[simp] theorem rxStore_tLoss (d : List Byte) (s : State) : (rxStore d s).tLoss = s.tLoss := rfl
@[simp] theorem rxStore_acq (d : List Byte) (s : State) : (rxStore d s).acq = s.acq := rfl
@[simp] theorem rxStore_hopnow (d : List Byte) (s : State) : (rxStore d s).hopnow = s.hopnow := rfl
@[simp] theorem rxStore_sessActive (d : List Byte) (s : State) : (rxStore d s).sessActive = s.sessActive := rfl
@[simp] theorem rxStore_consumerAttached (d : List Byte) (s : State) : (rxStore d s).consumerAttached = s.consumerAttached := rfl
@[simp] theorem rxStore_interval (d : List Byte) (s : State) : (rxStore d s).interval = s.interval := rfl
@[simp] theorem rxStore_rxbuf (d : List Byte) (s : State) : (rxStore d s).rxbuf = bufferOf d := rfl
@[simp] theorem rxStore_rxLen (d : List Byte) (s : State) : (rxStore d s).rxLen = BitVec.ofNat 8 d.length := rfl
@[simp] theorem rxStore_txbuf (d : List Byte) (s : State) : (rxStore d s).txbuf = s.txbuf := rfl
@[simp] theorem rxStore_txLen (d : List Byte) (s : State) : (rxStore d s).txLen = s.txLen := rfl
@[simp] theorem rxStore_frame (d : List Byte) (s : State) : (rxStore d s).frame = s.frame := rfl
@[simp] theorem rxStore_frameCnt (d : List Byte) (s : State) : (rxStore d s).frameCnt = s.frameCnt := rfl
@[simp] theorem rxStore_afc (d : List Byte) (s : State) : (rxStore d s).afc = s.afc := rfl
@[simp] theorem rxStore_hang (d : List Byte) (s : State) : (rxStore d s).hang = s.hang := rfl
@[simp] theorem rxStore_txto (d : List Byte) (s : State) : (rxStore d s).txto = s.txto := rfl
@[simp] theorem rxStore_refused (d : List Byte) (s : State) : (rxStore d s).refused = s.refused := rfl
@[simp] theorem rxStore_refuseCode (d : List Byte) (s : State) : (rxStore d s).refuseCode = s.refuseCode := rfl
@[simp] theorem rxStore_txT0 (d : List Byte) (s : State) : (rxStore d s).txT0 = s.txT0 := rfl
@[simp] theorem rxStore_now (d : List Byte) (s : State) : (rxStore d s).now = s.now := rfl
@[simp] theorem rxStore_txRet (d : List Byte) (s : State) : (rxStore d s).txRet = s.txRet := rfl
@[simp] theorem rxStore_inputs (d : List Byte) (s : State) : (rxStore d s).inputs = s.inputs := rfl
@[simp] theorem rxStore_draws (d : List Byte) (s : State) : (rxStore d s).draws = s.draws := rfl
@[simp] theorem rxStore_agenda (d : List Byte) (s : State) : (rxStore d s).agenda = s.agenda := rfl
@[simp] theorem rxStore_gaps (d : List Byte) (s : State) : (rxStore d s).gaps = s.gaps := rfl
@[simp] theorem rxStore_out (d : List Byte) (s : State) : (rxStore d s).out = s.out := rfl

/-! ### The registers of a reception -/

@[simp] theorem rxRecord_cfg (s : State) : (rxRecord s).cfg = s.cfg := rfl
@[simp] theorem rxRecord_sp (s : State) : (rxRecord s).sp = s.sp := rfl
@[simp] theorem rxRecord_mode (s : State) : (rxRecord s).mode = s.mode := rfl
@[simp] theorem rxRecord_phase (s : State) : (rxRecord s).phase = s.phase := rfl
@[simp] theorem rxRecord_idx (s : State) : (rxRecord s).idx = s.idx := rfl
@[simp] theorem rxRecord_hopcount (s : State) : (rxRecord s).hopcount = s.hopcount := rfl
@[simp] theorem rxRecord_lost (s : State) : (rxRecord s).lost = 0#8 := rfl
@[simp] theorem rxRecord_quality (s : State) : (rxRecord s).quality = qualityShift s.cfg.qw s.quality true := rfl
@[simp] theorem rxRecord_rssiSmooth (s : State) : (rxRecord s).rssiSmooth = s.rssiSmooth := rfl
@[simp] theorem rxRecord_rssiSum (s : State) : (rxRecord s).rssiSum = s.rssiSum := rfl
@[simp] theorem rxRecord_rssiCnt (s : State) : (rxRecord s).rssiCnt = s.rssiCnt := rfl
@[simp] theorem rxRecord_tLast (s : State) : (rxRecord s).tLast = s.now := rfl
@[simp] theorem rxRecord_tRssi (s : State) : (rxRecord s).tRssi = s.tRssi := rfl
@[simp] theorem rxRecord_tLoss (s : State) : (rxRecord s).tLoss = s.tLoss := rfl
@[simp] theorem rxRecord_acq (s : State) : (rxRecord s).acq = s.acq := rfl
@[simp] theorem rxRecord_hopnow (s : State) : (rxRecord s).hopnow = s.hopnow := rfl
@[simp] theorem rxRecord_sessActive (s : State) : (rxRecord s).sessActive = s.sessActive := rfl
@[simp] theorem rxRecord_consumerAttached (s : State) : (rxRecord s).consumerAttached = s.consumerAttached := rfl
@[simp] theorem rxRecord_interval (s : State) : (rxRecord s).interval = s.interval := rfl
@[simp] theorem rxRecord_rxbuf (s : State) : (rxRecord s).rxbuf = s.rxbuf := rfl
@[simp] theorem rxRecord_rxLen (s : State) : (rxRecord s).rxLen = s.rxLen := rfl
@[simp] theorem rxRecord_txbuf (s : State) : (rxRecord s).txbuf = s.txbuf := rfl
@[simp] theorem rxRecord_txLen (s : State) : (rxRecord s).txLen = s.txLen := rfl
@[simp] theorem rxRecord_frame (s : State) : (rxRecord s).frame = s.frame := rfl
@[simp] theorem rxRecord_frameCnt (s : State) : (rxRecord s).frameCnt = s.frameCnt := rfl
@[simp] theorem rxRecord_afc (s : State) : (rxRecord s).afc = s.afc := rfl
@[simp] theorem rxRecord_hang (s : State) : (rxRecord s).hang = s.hang := rfl
@[simp] theorem rxRecord_txto (s : State) : (rxRecord s).txto = s.txto := rfl
@[simp] theorem rxRecord_refused (s : State) : (rxRecord s).refused = s.refused := rfl
@[simp] theorem rxRecord_refuseCode (s : State) : (rxRecord s).refuseCode = s.refuseCode := rfl
@[simp] theorem rxRecord_txT0 (s : State) : (rxRecord s).txT0 = s.txT0 := rfl
@[simp] theorem rxRecord_now (s : State) : (rxRecord s).now = s.now := rfl
@[simp] theorem rxRecord_txRet (s : State) : (rxRecord s).txRet = s.txRet := rfl
@[simp] theorem rxRecord_inputs (s : State) : (rxRecord s).inputs = s.inputs := rfl
@[simp] theorem rxRecord_draws (s : State) : (rxRecord s).draws = s.draws := rfl
@[simp] theorem rxRecord_agenda (s : State) : (rxRecord s).agenda = s.agenda := rfl
@[simp] theorem rxRecord_gaps (s : State) : (rxRecord s).gaps = s.gaps := rfl
@[simp] theorem rxRecord_out (s : State) : (rxRecord s).out = s.out := rfl

/-! ### The registers of `SETUP` -/

@[simp] theorem setupInit_cfg (now : Word) (s : State) : (setupInit now s).cfg = s.cfg := rfl
@[simp] theorem setupInit_sp (now : Word) (s : State) : (setupInit now s).sp = s.sp := rfl
@[simp] theorem setupInit_mode (now : Word) (s : State) : (setupInit now s).mode = s.mode := rfl
@[simp] theorem setupInit_phase (now : Word) (s : State) : (setupInit now s).phase = s.phase := rfl
@[simp] theorem setupInit_idx (now : Word) (s : State) : (setupInit now s).idx = 0#8 := rfl
@[simp] theorem setupInit_hopcount (now : Word) (s : State) : (setupInit now s).hopcount = s.hopcount := rfl
@[simp] theorem setupInit_lost (now : Word) (s : State) : (setupInit now s).lost = 0#8 := rfl
@[simp] theorem setupInit_quality (now : Word) (s : State) : (setupInit now s).quality = 0 := rfl
@[simp] theorem setupInit_rssiSmooth (now : Word) (s : State) : (setupInit now s).rssiSmooth = 0#8 := rfl
@[simp] theorem setupInit_rssiSum (now : Word) (s : State) : (setupInit now s).rssiSum = 0#16 := rfl
@[simp] theorem setupInit_rssiCnt (now : Word) (s : State) : (setupInit now s).rssiCnt = 0#8 := rfl
@[simp] theorem setupInit_tLast (now : Word) (s : State) : (setupInit now s).tLast = now := rfl
@[simp] theorem setupInit_tRssi (now : Word) (s : State) : (setupInit now s).tRssi = now := rfl
@[simp] theorem setupInit_tLoss (now : Word) (s : State) : (setupInit now s).tLoss = 0#32 := rfl
@[simp] theorem setupInit_acq (now : Word) (s : State) : (setupInit now s).acq = false := rfl
@[simp] theorem setupInit_hopnow (now : Word) (s : State) : (setupInit now s).hopnow = false := rfl
@[simp] theorem setupInit_sessActive (now : Word) (s : State) : (setupInit now s).sessActive = true := rfl
@[simp] theorem setupInit_consumerAttached (now : Word) (s : State) : (setupInit now s).consumerAttached = s.consumerAttached := rfl
@[simp] theorem setupInit_interval (now : Word) (s : State) : (setupInit now s).interval = s.interval := rfl
@[simp] theorem setupInit_rxbuf (now : Word) (s : State) : (setupInit now s).rxbuf = s.rxbuf := rfl
@[simp] theorem setupInit_rxLen (now : Word) (s : State) : (setupInit now s).rxLen = s.rxLen := rfl
@[simp] theorem setupInit_txbuf (now : Word) (s : State) : (setupInit now s).txbuf = s.txbuf := rfl
@[simp] theorem setupInit_txLen (now : Word) (s : State) : (setupInit now s).txLen = s.txLen := rfl
@[simp] theorem setupInit_frame (now : Word) (s : State) : (setupInit now s).frame = s.frame := rfl
@[simp] theorem setupInit_frameCnt (now : Word) (s : State) : (setupInit now s).frameCnt = s.frameCnt := rfl
@[simp] theorem setupInit_afc (now : Word) (s : State) : (setupInit now s).afc = s.afc := rfl
@[simp] theorem setupInit_hang (now : Word) (s : State) : (setupInit now s).hang = s.hang := rfl
@[simp] theorem setupInit_txto (now : Word) (s : State) : (setupInit now s).txto = s.txto := rfl
@[simp] theorem setupInit_refused (now : Word) (s : State) : (setupInit now s).refused = s.refused := rfl
@[simp] theorem setupInit_refuseCode (now : Word) (s : State) : (setupInit now s).refuseCode = s.refuseCode := rfl
@[simp] theorem setupInit_txT0 (now : Word) (s : State) : (setupInit now s).txT0 = s.txT0 := rfl
@[simp] theorem setupInit_now (now : Word) (s : State) : (setupInit now s).now = s.now := rfl
@[simp] theorem setupInit_txRet (now : Word) (s : State) : (setupInit now s).txRet = s.txRet := rfl
@[simp] theorem setupInit_inputs (now : Word) (s : State) : (setupInit now s).inputs = s.inputs := rfl
@[simp] theorem setupInit_draws (now : Word) (s : State) : (setupInit now s).draws = s.draws := rfl
@[simp] theorem setupInit_agenda (now : Word) (s : State) : (setupInit now s).agenda = s.agenda := rfl
@[simp] theorem setupInit_gaps (now : Word) (s : State) : (setupInit now s).gaps = s.gaps := rfl
@[simp] theorem setupInit_out (now : Word) (s : State) : (setupInit now s).out = s.out := rfl

/-! ### A missed packet -/

@[simp] theorem lossMiss_cfg (s : State) : (lossMiss s).cfg = s.cfg := rfl
@[simp] theorem lossMiss_sp (s : State) : (lossMiss s).sp = s.sp := rfl
@[simp] theorem lossMiss_mode (s : State) : (lossMiss s).mode = s.mode := rfl
@[simp] theorem lossMiss_phase (s : State) : (lossMiss s).phase = s.phase := rfl
@[simp] theorem lossMiss_idx (s : State) : (lossMiss s).idx = s.idx := rfl
@[simp] theorem lossMiss_hopcount (s : State) : (lossMiss s).hopcount = s.hopcount := rfl
@[simp] theorem lossMiss_lost (s : State) : (lossMiss s).lost = s.lost + 1#8 := rfl
@[simp] theorem lossMiss_quality (s : State) : (lossMiss s).quality = qualityShift s.cfg.qw s.quality false := rfl
@[simp] theorem lossMiss_rssiSmooth (s : State) : (lossMiss s).rssiSmooth = s.rssiSmooth := rfl
@[simp] theorem lossMiss_rssiSum (s : State) : (lossMiss s).rssiSum = s.rssiSum := rfl
@[simp] theorem lossMiss_rssiCnt (s : State) : (lossMiss s).rssiCnt = s.rssiCnt := rfl
@[simp] theorem lossMiss_tLast (s : State) : (lossMiss s).tLast = s.tLast + s.interval := rfl
@[simp] theorem lossMiss_tRssi (s : State) : (lossMiss s).tRssi = s.tRssi := rfl
@[simp] theorem lossMiss_tLoss (s : State) : (lossMiss s).tLoss = if s.lost = 0#8 then s.now else s.tLoss := rfl
@[simp] theorem lossMiss_acq (s : State) : (lossMiss s).acq = s.acq := rfl
@[simp] theorem lossMiss_hopnow (s : State) : (lossMiss s).hopnow = true := rfl
@[simp] theorem lossMiss_sessActive (s : State) : (lossMiss s).sessActive = s.sessActive := rfl
@[simp] theorem lossMiss_consumerAttached (s : State) : (lossMiss s).consumerAttached = s.consumerAttached := rfl
@[simp] theorem lossMiss_interval (s : State) : (lossMiss s).interval = s.interval := rfl
@[simp] theorem lossMiss_rxbuf (s : State) : (lossMiss s).rxbuf = s.rxbuf := rfl
@[simp] theorem lossMiss_rxLen (s : State) : (lossMiss s).rxLen = s.rxLen := rfl
@[simp] theorem lossMiss_txbuf (s : State) : (lossMiss s).txbuf = s.txbuf := rfl
@[simp] theorem lossMiss_txLen (s : State) : (lossMiss s).txLen = s.txLen := rfl
@[simp] theorem lossMiss_frame (s : State) : (lossMiss s).frame = s.frame := rfl
@[simp] theorem lossMiss_frameCnt (s : State) : (lossMiss s).frameCnt = s.frameCnt := rfl
@[simp] theorem lossMiss_afc (s : State) : (lossMiss s).afc = s.afc := rfl
@[simp] theorem lossMiss_hang (s : State) : (lossMiss s).hang = s.hang := rfl
@[simp] theorem lossMiss_txto (s : State) : (lossMiss s).txto = s.txto := rfl
@[simp] theorem lossMiss_refused (s : State) : (lossMiss s).refused = s.refused := rfl
@[simp] theorem lossMiss_refuseCode (s : State) : (lossMiss s).refuseCode = s.refuseCode := rfl
@[simp] theorem lossMiss_txT0 (s : State) : (lossMiss s).txT0 = s.txT0 := rfl
@[simp] theorem lossMiss_now (s : State) : (lossMiss s).now = s.now := rfl
@[simp] theorem lossMiss_txRet (s : State) : (lossMiss s).txRet = s.txRet := rfl
@[simp] theorem lossMiss_inputs (s : State) : (lossMiss s).inputs = s.inputs := rfl
@[simp] theorem lossMiss_draws (s : State) : (lossMiss s).draws = s.draws := rfl
@[simp] theorem lossMiss_agenda (s : State) : (lossMiss s).agenda = s.agenda := rfl
@[simp] theorem lossMiss_gaps (s : State) : (lossMiss s).gaps = s.gaps := rfl
@[simp] theorem lossMiss_out (s : State) : (lossMiss s).out = s.out := rfl

/-! ### The full resync -/

@[simp] theorem lossResync_cfg (s : State) : (lossResync s).cfg = s.cfg := rfl
@[simp] theorem lossResync_sp (s : State) : (lossResync s).sp = s.sp := rfl
@[simp] theorem lossResync_mode (s : State) : (lossResync s).mode = s.mode := rfl
@[simp] theorem lossResync_phase (s : State) : (lossResync s).phase = s.phase := rfl
@[simp] theorem lossResync_idx (s : State) : (lossResync s).idx = s.idx := rfl
@[simp] theorem lossResync_hopcount (s : State) : (lossResync s).hopcount = s.hopcount := rfl
@[simp] theorem lossResync_lost (s : State) : (lossResync s).lost = s.lost := rfl
@[simp] theorem lossResync_quality (s : State) : (lossResync s).quality = 0 := rfl
@[simp] theorem lossResync_rssiSmooth (s : State) : (lossResync s).rssiSmooth = 0#8 := rfl
@[simp] theorem lossResync_rssiSum (s : State) : (lossResync s).rssiSum = s.rssiSum := rfl
@[simp] theorem lossResync_rssiCnt (s : State) : (lossResync s).rssiCnt = s.rssiCnt := rfl
@[simp] theorem lossResync_tLast (s : State) : (lossResync s).tLast = s.now := rfl
@[simp] theorem lossResync_tRssi (s : State) : (lossResync s).tRssi = s.tRssi := rfl
@[simp] theorem lossResync_tLoss (s : State) : (lossResync s).tLoss = s.tLoss := rfl
@[simp] theorem lossResync_acq (s : State) : (lossResync s).acq = s.acq := rfl
@[simp] theorem lossResync_hopnow (s : State) : (lossResync s).hopnow = true := rfl
@[simp] theorem lossResync_sessActive (s : State) : (lossResync s).sessActive = s.sessActive := rfl
@[simp] theorem lossResync_consumerAttached (s : State) : (lossResync s).consumerAttached = s.consumerAttached := rfl
@[simp] theorem lossResync_interval (s : State) : (lossResync s).interval = s.interval := rfl
@[simp] theorem lossResync_rxbuf (s : State) : (lossResync s).rxbuf = s.rxbuf := rfl
@[simp] theorem lossResync_rxLen (s : State) : (lossResync s).rxLen = s.rxLen := rfl
@[simp] theorem lossResync_txbuf (s : State) : (lossResync s).txbuf = s.txbuf := rfl
@[simp] theorem lossResync_txLen (s : State) : (lossResync s).txLen = s.txLen := rfl
@[simp] theorem lossResync_frame (s : State) : (lossResync s).frame = s.frame := rfl
@[simp] theorem lossResync_frameCnt (s : State) : (lossResync s).frameCnt = s.frameCnt := rfl
@[simp] theorem lossResync_afc (s : State) : (lossResync s).afc = s.afc := rfl
@[simp] theorem lossResync_hang (s : State) : (lossResync s).hang = s.hang := rfl
@[simp] theorem lossResync_txto (s : State) : (lossResync s).txto = s.txto := rfl
@[simp] theorem lossResync_refused (s : State) : (lossResync s).refused = s.refused := rfl
@[simp] theorem lossResync_refuseCode (s : State) : (lossResync s).refuseCode = s.refuseCode := rfl
@[simp] theorem lossResync_txT0 (s : State) : (lossResync s).txT0 = s.txT0 := rfl
@[simp] theorem lossResync_now (s : State) : (lossResync s).now = s.now := rfl
@[simp] theorem lossResync_txRet (s : State) : (lossResync s).txRet = s.txRet := rfl
@[simp] theorem lossResync_inputs (s : State) : (lossResync s).inputs = s.inputs := rfl
@[simp] theorem lossResync_draws (s : State) : (lossResync s).draws = s.draws := rfl
@[simp] theorem lossResync_agenda (s : State) : (lossResync s).agenda = s.agenda := rfl
@[simp] theorem lossResync_gaps (s : State) : (lossResync s).gaps = s.gaps := rfl
@[simp] theorem lossResync_out (s : State) : (lossResync s).out = s.out := rfl

/-! ### The scanning hop -/

@[simp] theorem lossScan_cfg (s : State) : (lossScan s).cfg = s.cfg := rfl
@[simp] theorem lossScan_sp (s : State) : (lossScan s).sp = s.sp := rfl
@[simp] theorem lossScan_mode (s : State) : (lossScan s).mode = s.mode := rfl
@[simp] theorem lossScan_phase (s : State) : (lossScan s).phase = s.phase := rfl
@[simp] theorem lossScan_idx (s : State) : (lossScan s).idx = s.idx := rfl
@[simp] theorem lossScan_hopcount (s : State) : (lossScan s).hopcount = s.hopcount := rfl
@[simp] theorem lossScan_lost (s : State) : (lossScan s).lost = s.lost := rfl
@[simp] theorem lossScan_quality (s : State) : (lossScan s).quality = s.quality := rfl
@[simp] theorem lossScan_rssiSmooth (s : State) : (lossScan s).rssiSmooth = s.rssiSmooth := rfl
@[simp] theorem lossScan_rssiSum (s : State) : (lossScan s).rssiSum = s.rssiSum := rfl
@[simp] theorem lossScan_rssiCnt (s : State) : (lossScan s).rssiCnt = s.rssiCnt := rfl
@[simp] theorem lossScan_tLast (s : State) : (lossScan s).tLast = s.now := rfl
@[simp] theorem lossScan_tRssi (s : State) : (lossScan s).tRssi = s.tRssi := rfl
@[simp] theorem lossScan_tLoss (s : State) : (lossScan s).tLoss = s.tLoss := rfl
@[simp] theorem lossScan_acq (s : State) : (lossScan s).acq = s.acq := rfl
@[simp] theorem lossScan_hopnow (s : State) : (lossScan s).hopnow = true := rfl
@[simp] theorem lossScan_sessActive (s : State) : (lossScan s).sessActive = s.sessActive := rfl
@[simp] theorem lossScan_consumerAttached (s : State) : (lossScan s).consumerAttached = s.consumerAttached := rfl
@[simp] theorem lossScan_interval (s : State) : (lossScan s).interval = s.interval := rfl
@[simp] theorem lossScan_rxbuf (s : State) : (lossScan s).rxbuf = s.rxbuf := rfl
@[simp] theorem lossScan_rxLen (s : State) : (lossScan s).rxLen = s.rxLen := rfl
@[simp] theorem lossScan_txbuf (s : State) : (lossScan s).txbuf = s.txbuf := rfl
@[simp] theorem lossScan_txLen (s : State) : (lossScan s).txLen = s.txLen := rfl
@[simp] theorem lossScan_frame (s : State) : (lossScan s).frame = s.frame := rfl
@[simp] theorem lossScan_frameCnt (s : State) : (lossScan s).frameCnt = s.frameCnt := rfl
@[simp] theorem lossScan_afc (s : State) : (lossScan s).afc = s.afc := rfl
@[simp] theorem lossScan_hang (s : State) : (lossScan s).hang = s.hang := rfl
@[simp] theorem lossScan_txto (s : State) : (lossScan s).txto = s.txto := rfl
@[simp] theorem lossScan_refused (s : State) : (lossScan s).refused = s.refused := rfl
@[simp] theorem lossScan_refuseCode (s : State) : (lossScan s).refuseCode = s.refuseCode := rfl
@[simp] theorem lossScan_txT0 (s : State) : (lossScan s).txT0 = s.txT0 := rfl
@[simp] theorem lossScan_now (s : State) : (lossScan s).now = s.now := rfl
@[simp] theorem lossScan_txRet (s : State) : (lossScan s).txRet = s.txRet := rfl
@[simp] theorem lossScan_inputs (s : State) : (lossScan s).inputs = s.inputs := rfl
@[simp] theorem lossScan_draws (s : State) : (lossScan s).draws = s.draws := rfl
@[simp] theorem lossScan_agenda (s : State) : (lossScan s).agenda = s.agenda := rfl
@[simp] theorem lossScan_gaps (s : State) : (lossScan s).gaps = s.gaps := rfl
@[simp] theorem lossScan_out (s : State) : (lossScan s).out = s.out := rfl

/-! ### `RESET` -/

@[simp] theorem resetRegisters_cfg (s : State) : (resetRegisters s).cfg = s.cfg := rfl
@[simp] theorem resetRegisters_sp (s : State) : (resetRegisters s).sp = SessionParams.zero := rfl
@[simp] theorem resetRegisters_mode (s : State) : (resetRegisters s).mode = .idle := rfl
@[simp] theorem resetRegisters_phase (s : State) : (resetRegisters s).phase = .idle := rfl
@[simp] theorem resetRegisters_idx (s : State) : (resetRegisters s).idx = 0#8 := rfl
@[simp] theorem resetRegisters_hopcount (s : State) : (resetRegisters s).hopcount = 0#8 := rfl
@[simp] theorem resetRegisters_lost (s : State) : (resetRegisters s).lost = 0#8 := rfl
@[simp] theorem resetRegisters_quality (s : State) : (resetRegisters s).quality = 0 := rfl
@[simp] theorem resetRegisters_rssiSmooth (s : State) : (resetRegisters s).rssiSmooth = 0#8 := rfl
@[simp] theorem resetRegisters_rssiSum (s : State) : (resetRegisters s).rssiSum = 0#16 := rfl
@[simp] theorem resetRegisters_rssiCnt (s : State) : (resetRegisters s).rssiCnt = 0#8 := rfl
@[simp] theorem resetRegisters_tLast (s : State) : (resetRegisters s).tLast = 0#32 := rfl
@[simp] theorem resetRegisters_tRssi (s : State) : (resetRegisters s).tRssi = 0#32 := rfl
@[simp] theorem resetRegisters_tLoss (s : State) : (resetRegisters s).tLoss = 0#32 := rfl
@[simp] theorem resetRegisters_acq (s : State) : (resetRegisters s).acq = false := rfl
@[simp] theorem resetRegisters_hopnow (s : State) : (resetRegisters s).hopnow = false := rfl
@[simp] theorem resetRegisters_sessActive (s : State) : (resetRegisters s).sessActive = false := rfl
@[simp] theorem resetRegisters_consumerAttached (s : State) : (resetRegisters s).consumerAttached = false := rfl
@[simp] theorem resetRegisters_interval (s : State) : (resetRegisters s).interval = 0#32 := rfl
@[simp] theorem resetRegisters_rxbuf (s : State) : (resetRegisters s).rxbuf = [] := rfl
@[simp] theorem resetRegisters_rxLen (s : State) : (resetRegisters s).rxLen = 0#8 := rfl
@[simp] theorem resetRegisters_txbuf (s : State) : (resetRegisters s).txbuf = [] := rfl
@[simp] theorem resetRegisters_txLen (s : State) : (resetRegisters s).txLen = 0#8 := rfl
@[simp] theorem resetRegisters_frame (s : State) : (resetRegisters s).frame = [] := rfl
@[simp] theorem resetRegisters_frameCnt (s : State) : (resetRegisters s).frameCnt = 0#5 := rfl
@[simp] theorem resetRegisters_afc (s : State) : (resetRegisters s).afc = 0#16 := rfl
@[simp] theorem resetRegisters_hang (s : State) : (resetRegisters s).hang = false := rfl
@[simp] theorem resetRegisters_txto (s : State) : (resetRegisters s).txto = false := rfl
@[simp] theorem resetRegisters_refused (s : State) : (resetRegisters s).refused = false := rfl
@[simp] theorem resetRegisters_refuseCode (s : State) : (resetRegisters s).refuseCode = 0#8 := rfl
@[simp] theorem resetRegisters_txT0 (s : State) : (resetRegisters s).txT0 = 0#32 := rfl
@[simp] theorem resetRegisters_now (s : State) : (resetRegisters s).now = 0#32 := rfl
@[simp] theorem resetRegisters_txRet (s : State) : (resetRegisters s).txRet = none := rfl
@[simp] theorem resetRegisters_inputs (s : State) : (resetRegisters s).inputs = s.inputs := rfl
@[simp] theorem resetRegisters_draws (s : State) : (resetRegisters s).draws = s.draws := rfl
@[simp] theorem resetRegisters_agenda (s : State) : (resetRegisters s).agenda = s.agenda := rfl
@[simp] theorem resetRegisters_gaps (s : State) : (resetRegisters s).gaps = s.gaps := rfl
@[simp] theorem resetRegisters_out (s : State) : (resetRegisters s).out = s.out := rfl

end Sys2Proof.Machine
end

