-- ==== Sys2Proof/Laws/Steps.lean ====
section
/-! SUPPORT. How an operation runs: what each shared operation does when nothing happens between its atomic steps (the
`quiet` lemmas), and the rule that carries a property through an operation whatever happens between them (`Ends`). -/

namespace Sys2Proof.Machine

variable {α β : Type}

/-! ## Running a sequence of steps -/

theorem inOrder_nil (s : State) : inOrder [] s = .done () s := rfl

/-- The next step runs in the state the first one ends in. -/
theorem inOrder_done {m : Steps Unit} {ms : List (Steps Unit)} {s t : State} (h : m s = .done () t) :
    inOrder (m :: ms) s = inOrder ms t := by
  simp only [inOrder, h]

/-- The same, as a way to run a sequence step by step. -/
theorem inOrder_step {m : Steps Unit} {ms : List (Steps Unit)} {s t : State} {r : Ran Unit} (h : m s = .done () t)
    (hr : inOrder ms t = r) : inOrder (m :: ms) s = r := (inOrder_done h).trans hr

/-- What is abandoned stays abandoned. -/
theorem inOrder_abandoned {m : Steps Unit} {ms : List (Steps Unit)} {s t : State} (h : m s = .abandoned t) :
    inOrder (m :: ms) s = .abandoned t := by
  simp only [inOrder, h]

theorem inOrder_append (l r : List (Steps Unit)) (s : State) :
    inOrder (l ++ r) s = andThen (inOrder l) (fun _ => inOrder r) s := by
  induction l generalizing s with
  | nil => rfl
  | cons m ms ih =>
    simp only [List.cons_append, andThen]
    cases h : m s with
    | done a t =>
      rw [inOrder_done (m := m) h, ih, inOrder_done (m := m) h]; rfl
    | abandoned t => rw [inOrder_abandoned h, inOrder_abandoned h]

theorem andThen_done {m : Steps α} {f : α → Steps β} {s t : State} {a : α} (h : m s = .done a t) :
    andThen m f s = f a t := by
  simp only [andThen, h]

theorem final_done {m : Steps α} {s t : State} {a : α} (h : m s = .done a t) : final m s = t := by
  simp only [final, h]

theorem final_abandoned {m : Steps α} {s t : State} (h : m s = .abandoned t) : final m s = t := by
  simp only [final, h]

@[simp] theorem withState_apply (f : State → Steps α) (s : State) : withState f s = f s s := rfl

@[simp] theorem update_apply (f : State → State) (s : State) : update f s = .done () (f s) := rfl

@[simp] theorem onlyIf_apply (c : Bool) (m : Steps Unit) (s : State) :
    onlyIf c m s = if c then m s else .done () s := rfl

/-! ## Nothing between the atomic steps -/

theorem atPoint_quiet {s : State} (h : s.gaps = []) : atPoint s = .done () s := by
  simp only [atPoint, show s.gaps = [] from h]

theorem emit_quiet {s : State} (h : s.gaps = []) (o : Output) : emit o s = .done () (put o s) := by
  rw [emit, inOrder_done (atPoint_quiet h)]; rfl

theorem transport_quiet {s : State} (h : s.gaps = []) (e : TransportEvent) :
    transport e s = .done () (put (.transport e) s) := emit_quiet h _

theorem regWrite_quiet {s : State} (h : s.gaps = []) (a : Nat) (v : Byte) :
    regWrite a v s = .done () (put (.transport (.regWrite a v)) s) := emit_quiet h _

theorem act_quiet {s : State} (h : s.gaps = []) (a : Action) : act a s = .done () (put (.transport (.act a)) s) :=
  emit_quiet h _

theorem reinit_quiet {s : State} (h : s.gaps = []) : reinit s = .done () (put (.transport (.act (.reinit s.sp))) s) :=
  emit_quiet h _

theorem wdgKick_quiet {s : State} (h : s.gaps = []) : wdgKick s = .done () (put .wdgKick s) := emit_quiet h _

theorem readMode_quiet {s : State} (h : s.gaps = []) : readMode s = .done s.mode s := by
  rw [readMode, andThen_done (atPoint_quiet h)]

theorem writeMode_quiet {s : State} (h : s.gaps = []) (m : RadioMode) : writeMode m s = .done () { s with mode := m } := by
  rw [writeMode, inOrder_done (atPoint_quiet h)]; rfl

theorem reading_quiet {s : State} (h : s.gaps = []) (m : Steps α) : reading m s = m s := by
  rw [reading, andThen_done (atPoint_quiet h)]

/-- What `RXENTER` does when nothing happens between its steps (rule R192). -/
theorem rxenter_quiet {s : State} (h : s.gaps = []) :
    rxenter s = .done () { s with mode := .receiving, out := s.out ++ rxenterEvents } := by
  simp [rxenter, inOrder, writeMode_quiet, act_quiet, h, put, rxenterEvents]

/-- What the steps of `PROGCH` do when nothing happens between them (rule R153). -/
theorem progchSteps_quiet {s : State} (h : s.gaps = []) (i : Byte) :
    progchSteps i s = .done () { s with out := s.out ++ progchEvents i s } := by
  simp [progchSteps, inOrder, transport_quiet, regWrite_quiet, h, put, progchEvents]

/-- `PROGCH(i)` invoked in place with an index in range (rule R153). -/
theorem progch_quiet {s : State} (h : s.gaps = []) {i : Byte} (hi : i.toNat < s.cfg.maxHops) :
    progch i s = .done () { s with out := s.out ++ progchEvents i s } := by
  have : ¬ s.cfg.maxHops ≤ i.toNat := by omega
  simp only [progch, inPlace, progchCheck, if_neg this]
  exact progchSteps_quiet h i

theorem reply_quiet {s : State} (h : s.gaps = []) (r : ResultCode) (value : State → List Byte) :
    reply r value s = .done () (put (.reply r (value s)) s) := emit_quiet h _

/-- What a refusal leaves, with its code's number (rule R251). -/
theorem refuse_quiet {s : State} (h : s.gaps = []) (c : RefuseCode) : refuse c s = .done () (refusedWith c.code s) :=
  inOrder_step (atPoint_quiet h) (inOrder_step rfl (inOrder_step (reply_quiet (by exact h) _ _) rfl))

/-- A command's tests fail: it is refused. -/
theorem tested_refused {check : State → Option RefuseCode} {m : Steps Unit} {s : State} (h : s.gaps = []) {c : RefuseCode}
    (hc : check s = some c) : tested check m s = .done () (refusedWith c.code s) := by
  simp only [tested, andThen_done (atPoint_quiet h), hc, refuse_quiet h]

/-- A command's tests pass: its steps run. -/
theorem tested_passed {check : State → Option RefuseCode} {m : Steps Unit} {s : State} (h : s.gaps = [])
    (hc : check s = none) : tested check m s = m s := by
  simp only [tested, andThen_done (atPoint_quiet h), hc]

/-- A command whose tests pass and whose steps end answers `OK` (rules R103, R112). -/
theorem command_done {check : State → Option RefuseCode} {steps : List (Steps Unit)} {value : State → List Byte}
    {s t : State} (h : s.gaps = []) (hc : check s = none) (hs : inOrder steps s = .done () t) (hq : Quiet t) :
    command check steps value s = put (.reply .ok (value t)) t := by
  rw [command]
  refine final_done (a := ()) ?_
  rw [tested_passed h hc, inOrder_append, andThen_done hs, inOrder_done (reply_quiet hq _ _), inOrder_nil]

/-- A command one of whose tests fails leaves the number of that test's code (rule R251). -/
theorem command_refusedWith {check : State → Option RefuseCode} {steps : List (Steps Unit)} {value : State → List Byte}
    {s : State} (h : s.gaps = []) {c : RefuseCode} (hc : check s = some c) :
    command check steps value s = refusedWith c.code s := final_done (tested_refused h hc)

/-! ## The shadow of a transceiver register -/

/-- One more output: its transport event, if it is one, is the shadow's last step (rule R55). -/
theorem xcvrShadow_put (o : Output) (s : State) (a : Nat) :
    xcvrShadow (transportTrace (put o s)) a =
      match o.transportEvent with
      | none => xcvrShadow (transportTrace s) a
      | some e => shadowStep a (xcvrShadow (transportTrace s) a) e := by
  unfold transportTrace put xcvrShadow
  rw [List.filterMap_append, List.foldl_append]
  cases h : o.transportEvent <;> simp [h]

/-! ## What each part of an operation does when nothing happens between its steps -/

theorem sampleUs_apply (s : State) : sampleUs s = .done (usInput s) (tookUs s) := rfl

theorem sampleMs_apply (s : State) : sampleMs s = .done (msInput s) (tookMs s) := rfl

theorem healthRead_apply (s : State) :
    healthRead s = .done (healthInput s) (put (.transport (.regRead s.cfg.regHealth (healthInput s))) (tookHealth s)) :=
  rfl

theorem rssiRead_apply (s : State) :
    rssiRead s = .done (rssiInput s) (put (.transport (.regRead s.cfg.regRssi (rssiInput s))) (tookRssi s)) := rfl

theorem afcRead_apply (s : State) :
    afcRead s = .done (afcInput s) (put (.transport (.act (.afcRead (afcInput s)))) (tookAfc s)) := rfl

theorem packetRead_apply (n : Nat) (s : State) :
    packetRead n s = .done (packetInput n s)
      (put (.transport (.act (.rxfifoRead n (packetInput n s)))) (tookPacket s)) := rfl

/-- A packet read is exactly `n` bytes long (rule R64). -/
@[simp] theorem packetInput_length (n : Nat) (s : State) : (packetInput n s).length = n := by
  simp [packetInput, exactBytes]

/-- `TXSTART` after its tests (rule R193). -/
theorem txstartSteps_quiet {s : State} (h : s.gaps = []) (d : List Byte) :
    txstartSteps d s = .done () { txLoad d s with
      mode := .transmitting, out := s.out ++ [.transport (.act (.txfifoWrite d)), .transport (.act .txOn)] } := by
  simp [txstartSteps, inOrder, act_quiet, writeMode_quiet, h, put]

/-- `SEND` up to its wait (rule R194). -/
theorem sendSteps_quiet {s : State} (h : s.gaps = []) (d : List Byte) :
    sendSteps d s = .done () { tookMs (txLoad d s) with
      mode := .transmitting, txT0 := msInput s, txRet := none, phase := .txwait,
      out := s.out ++ [.transport (.act (.txfifoWrite d)), .transport (.act .txOn)] } := by
  simp [sendSteps, inOrder, txstartSteps_quiet, reading_quiet, h, andThen, sampleMs_apply, tookMs, msInput]

/-- One iteration of the wait (rule R202). -/
theorem txwait_quiet {s : State} (h : s.gaps = []) :
    txwait s = .done () (txwaitWrite s.mode (msInput s) (tookMs (put .wdgKick s))) := by
  simp [txwait, inOrder, wdgKick_quiet, readMode_quiet, reading_quiet, h, andThen, sampleMs_apply, msInput]

/-- `RSSISAMP` (rule R233). -/
theorem rssisamp_quiet {s : State} (h : s.gaps = []) :
    rssisamp s = .done ()
      (rssiAccumulate (rssiInput s) (put (.transport (.regRead s.cfg.regRssi (rssiInput s))) (tookRssi s))) := by
  simp [rssisamp, reading_quiet, h, andThen, rssiRead_apply]

/-- `P1_HEALTH` on a healthy transceiver (rule R197). -/
theorem p1Health_healthy {s : State} (h : s.gaps = []) (hv : healthInput s ≠ 0#8) :
    p1Health s = .done () (put (.transport (.regRead s.cfg.regHealth (healthInput s))) (tookHealth s)) := by
  simp [p1Health, reading_quiet, h, andThen, healthRead_apply, Config.hungSentinel, hv]

/-- `P1_HEALTH` on a hung transceiver (rule R197). -/
theorem p1Health_hung {s : State} (h : s.gaps = []) (hv : healthInput s = 0#8) (hi : s.idx.toNat < s.cfg.maxHops) :
    p1Health s = .done () { tookHealth s with
      hang := true, mode := .receiving,
      out := s.out ++ [.transport (.regRead s.cfg.regHealth 0#8), .transport (.act (.reinit s.sp))] ++
        progchEvents s.idx s ++ rxenterEvents } := by
  have hq : (tookHealth s).gaps = [] := h
  have hi' : (tookHealth s).idx.toNat < (tookHealth s).cfg.maxHops := hi
  simp [p1Health, reading_quiet, h, hq, andThen, healthRead_apply, Config.hungSentinel, hv, inOrder, reinit_quiet,
    progch_quiet, hi', rxenter_quiet, put, progchEvents]
  simp [tookHealth]

/-- The type byte of a packet that has one (rule R92). -/
theorem typeByte_of_head {bytes : List Byte} {b : Byte} (h : bytes.head? = some b) (s : State) :
    typeByte bytes s = .done b s := by
  cases bytes with
  | nil => simp at h
  | cons c r => simp at h; subst h; rfl

/-- The state in which `P2_RXPROC` looks at the packet's type (rule R198). -/
def packetRecorded (s : State) : State :=
  { tookAfc (tookPacket s) with
    rxbuf := bufferOf (packetIn s), rxLen := BitVec.ofNat 8 (packetIn s).length, afc := afcIn s,
    tLast := s.now, lost := 0#8, quality := qualityShift s.cfg.qw s.quality true, out := s.out ++ packetEvents s }

theorem packetIn_length (s : State) : (packetIn s).length = s.cfg.pktsizeOf (cfgOf s.sp.flags) := by simp [packetIn]

/-- The body of `P2_RXPROC` comes down to what it does after the type test (rule R198). -/
theorem rxPacket_of_decode {s t : State} (h : s.gaps = [])
    (hd : rxDecode (packetIn s) (packetRecorded s) = .done () t) (ht : t.gaps = []) :
    rxPacket s = .done () { t with
      acq := true, mode := .receiving, out := t.out ++ rxenterEvents, hopnow := true } := by
  have hr : reading (packetRead (s.cfg.pktsizeOf (cfgOf s.sp.flags))) s = .done (packetIn s)
      (put (.transport (.act (.rxfifoRead (s.cfg.pktsizeOf (cfgOf s.sp.flags)) (packetIn s)))) (tookPacket s)) := by
    rw [reading_quiet h]; rfl
  simp only [rxPacket, withState_apply]
  rw [andThen_done hr]
  refine inOrder_step rfl (inOrder_step (t := { tookAfc (tookPacket s) with
    rxbuf := bufferOf (packetIn s), rxLen := BitVec.ofNat 8 (packetIn s).length, afc := afcIn s,
    out := s.out ++ packetEvents s }) ?_ (inOrder_step rfl (inOrder_step hd
    (inOrder_step rfl (inOrder_step (rxenter_quiet (by exact ht)) rfl)))))
  rw [andThen_done (by rw [reading_quiet (by exact h), afcRead_apply])]
  simp [packetEvents, put, rxStore, tookAfc, tookPacket, afcIn, afcInput]

/-- `P2_RXPROC` on a packet that is not channel data (rule R198, corner case a). -/
theorem rxPacket_other {s : State} (h : s.gaps = []) {b : Byte} (hb : (packetIn s).head? = some b)
    (hc : isChannelData s.cfg b = false) :
    rxPacket s = .done () { packetCounted s with out := s.out ++ packetEvents s ++ rxenterEvents } := by
  have hd : rxDecode (packetIn s) (packetRecorded s) = .done () (packetRecorded s) := by
    simp only [rxDecode, withState_apply]
    rw [andThen_done (typeByte_of_head hb _)]
    simp [packetRecorded, tookAfc, tookPacket, hc]
  rw [rxPacket_of_decode h hd h]
  simp [packetRecorded, packetCounted, packetIn_length]

/-- `P2_RXPROC` on a packet of channel data (rule R198). -/
theorem rxPacket_channels {s : State} (h : s.gaps = []) {b : Byte} (hb : (packetIn s).head? = some b)
    (hc : isChannelData s.cfg b = true)
    (hu : unpackCheck s.cfg (cfgOf s.sp.flags) (s.cfg.pktsizeOf (cfgOf s.sp.flags) - s.cfg.payloadOff) = none) :
    rxPacket s = .done () { packetCounted s with
      frame := channelsIn s, frameCnt := channelCountIn s,
      out := s.out ++ packetEvents s ++ consumerEvents s ++ rxenterEvents } := by
  have hd : rxDecode (packetIn s) (packetRecorded s) = .done () { packetRecorded s with
      frame := channelsIn s, frameCnt := channelCountIn s,
      out := s.out ++ packetEvents s ++ consumerEvents s } := by
    simp only [rxDecode, withState_apply]
    rw [andThen_done (typeByte_of_head hb _)]
    have hc' : isChannelData (packetRecorded s).cfg b = true := hc
    simp only [onlyIf_apply, hc', if_true]
    refine inOrder_step (t := { packetRecorded s with frame := channelsIn s, frameCnt := channelCountIn s }) ?_ ?_
    · have hl : ((packetIn s).drop (packetRecorded s).cfg.payloadOff).length =
          s.cfg.pktsizeOf (cfgOf s.sp.flags) - s.cfg.payloadOff := by
        simp [packetIn_length]; rfl
      simp only [unpackInPlace, inPlace]
      rw [hl, show (packetRecorded s).cfg = s.cfg from rfl, show (packetRecorded s).sp = s.sp from rfl, hu]
      rfl
    · cases ha : s.consumerAttached with
      | false =>
        simp [inOrder, consumerCall, consumerEvents, ha, packetRecorded, tookAfc, tookPacket]
      | true =>
        refine inOrder_step (t := { packetRecorded s with
          frame := channelsIn s, frameCnt := channelCountIn s
          out := s.out ++ packetEvents s ++ [.consumer (channelCountIn s) (channelsIn s)] }) ?_ ?_
        · have ha' : (packetRecorded s).consumerAttached = true := ha
          simp only [consumerCall, withState_apply, onlyIf_apply, ha', if_true]
          rw [emit_quiet (by exact h)]
          rfl
        · simp [inOrder, consumerEvents, ha]
  rw [rxPacket_of_decode h hd h]
  simp [packetRecorded, packetCounted, packetIn_length]

/-- `P2_RXPROC` in any mode other than `Received` does nothing (rule R198, corner case d). -/
theorem p2Rxproc_other_mode {s : State} (h : s.gaps = []) (hm : s.mode ≠ .received) :
    p2Rxproc s = .done () s := by
  rw [p2Rxproc, andThen_done (readMode_quiet h)]
  simp [hm]

/-- `P2_RXPROC` in mode `Received` processes the packet (rule R198). -/
theorem p2Rxproc_received {s : State} (h : s.gaps = []) (hm : s.mode = .received) : p2Rxproc s = rxPacket s := by
  rw [p2Rxproc, andThen_done (readMode_quiet h)]
  simp [hm]

/-- `P3_RSSI` (rule R199). -/
theorem p3Rssi_quiet {s : State} (h : s.gaps = []) :
    p3Rssi s = .done () (if rssiDue s then
      rssiAccumulate (rssiInput s)
        (put (.transport (.regRead s.cfg.regRssi (rssiInput s))) (tookRssi { s with tRssi := s.tLast }))
      else s) := by
  by_cases hd : rssiDue s = true
  · simp [p3Rssi, hd, inOrder, rssisamp_quiet, h, rssiInput]
  · simp [p3Rssi, hd]

/-- `P5_HOP` (rule R201). -/
theorem p5Hop_quiet {s : State} (h : s.gaps = [])
    (hi : (nextIndex s.cfg s.sp.hop s.hopcount s.idx).toNat < s.cfg.maxHops) :
    p5Hop s = .done () (if s.hopnow then
      { advanceWrite s with
        hopnow := false
        out := s.out ++ progchEvents (nextIndex s.cfg s.sp.hop s.hopcount s.idx) s }
      else s) := by
  cases hh : s.hopnow with
  | false => simp [p5Hop, hh]
  | true =>
    have hq : (advanceWrite s).gaps = [] := h
    have hi' : (advanceWrite s).idx.toNat < (advanceWrite s).cfg.maxHops := hi
    simp only [p5Hop, withState_apply, onlyIf_apply, hh, if_true]
    exact inOrder_step rfl (inOrder_step (progch_quiet hq hi') rfl)

/-- The steps of `SETUP` after its tests (rule R191). -/
theorem setupSteps_quiet {s : State} (h : s.gaps = []) (hm : 0 < s.cfg.maxHops) :
    setupSteps s = .done () { setupInit (usInput s) (tookUs (intervalWrite (hopcntWrite s))) with
      mode := .receiving
      out := s.out ++ [.transport (.act (.reinit s.sp))] ++ progchEvents 0#8 s ++ rxenterEvents } := by
  have hm' : ∀ t : State, t.cfg = s.cfg → (0#8).toNat < t.cfg.maxHops := fun t ht => by rw [ht]; exact hm
  let a := setupInit (usInput s) (tookUs (intervalWrite (hopcntWrite s)))
  have ha : a.gaps = [] := h
  simp only [setupSteps]
  refine inOrder_step rfl (inOrder_step rfl (inOrder_step
    (andThen_done ((reading_quiet (by exact h) _).trans (sampleUs_apply _))) (inOrder_step (reinit_quiet (s := a) ha)
    (inOrder_step (progch_quiet (by exact ha) (hm' _ rfl)) (inOrder_step (rxenter_quiet (by exact ha)) ?_)))))
  simp [inOrder_nil, a, progchEvents, put, setupInit, tookUs, intervalWrite, hopcntWrite]

/-! ## A `RESET` in an instant -/

/-- What a refusal within an instant leaves, with its code's number (rule R251). -/
theorem refuseBusy_eq_refusedWith (s : State) : refuseBusy s = refusedWith 0x0F#8 s := rfl

/-- An instant in which nothing stands. -/
theorem atPoint_empty {s : State} {l : List (List Gap)} (h : s.gaps = [] :: l) :
    atPoint s = .done () { s with gaps := l } := by
  simp only [atPoint, h, serveGap]

/-- A gap of `IRQ` edges and then a `RESET` abandons the operation (rules R256, R290). -/
theorem serveGap_reset {before : List Gap} (hb : ∀ e ∈ before, e = .irq) (after : List Gap) (s : State) :
    serveGap (before ++ .reset :: after) s = .abandoned (abandonedIn before after s.gaps s) := by
  induction before generalizing s with
  | nil => simp [serveGap, resetRegisters, abandonedIn]
  | cons e b ih =>
    obtain rfl : e = .irq := hb e (by simp)
    simp only [List.cons_append, serveGap]
    rw [ih (fun e he => hb e (by simp [he]))]
    simp [irqStep, put, List.replicate_succ, abandonedIn]

/-- The same of the instant in which it stands. -/
theorem atPoint_reset {s : State} {before after : List Gap} {later : List (List Gap)} (hb : ∀ e ∈ before, e = .irq)
    (h : s.gaps = (before ++ .reset :: after) :: later) : atPoint s = .abandoned (abandonedIn before after later s) := by
  simp only [atPoint, h, serveGap_reset hb]
  rfl

/-- A gap without a `RESET`, whatever follows it: the configuration, the agenda and the instants to come stay, and its answers are
the refusals of its commands (rule R258). -/
theorem serveGap_noReset {g : List Gap} (hg : .reset ∉ g) (s : State) : ∃ t added,
    (∀ rest, serveGap (g ++ rest) s = serveGap rest t) ∧ t.cfg = s.cfg ∧ t.agenda = s.agenda ∧ t.gaps = s.gaps ∧
      t.out = s.out ++ added ∧
      added.filter Output.isAnswer = List.replicate (g.countP Gap.isCommand) (.reply .refused []) := by
  induction g generalizing s with
  | nil => exact ⟨s, [], by simp⟩
  | cons e g ih =>
    have hg' : Gap.reset ∉ g := fun h => hg (by simp [h])
    cases e with
    | reset => simp at hg
    | irq =>
      obtain ⟨t, added, hr, hc, ha, hs, ho, hf⟩ := ih hg' (irqStep s)
      refine ⟨t, .noWake :: added, hr, hc, ha, hs, by simp [ho, irqStep, put], ?_⟩
      simpa [Output.isAnswer, Gap.isCommand] using hf
    | cmd f =>
      obtain ⟨t, added, hr, hc, ha, hs, ho, hf⟩ := ih hg' (refuseBusy s)
      refine ⟨t, .reply .refused [] :: added, hr, hc, ha, hs, by simp [ho, refuseBusy, noteRefusal, put], ?_⟩
      rw [List.filter_cons_of_pos rfl, List.countP_cons_of_pos rfl, List.replicate_succ, hf]

/-- A command on which a `RESET` falls before its tests. -/
theorem tested_abandoned {check : State → Option RefuseCode} {m : Steps Unit} {s t : State}
    (h : atPoint s = .abandoned t) : tested check m s = .abandoned t := by
  simp only [tested, andThen, h]

/-! ## Whatever happens between the atomic steps -/

/-- How a sequence ends: with a value and a state that satisfy `Q`, or abandoned by `RESET` in a state that satisfies `R`. -/
def Ends (m : Steps α) (s : State) (Q : α → State → Prop) (R : State → Prop) : Prop :=
  match m s with
  | .done a t => Q a t
  | .abandoned t => R t

theorem Ends.mono {m : Steps α} {s : State} {Q Q' : α → State → Prop} {R R' : State → Prop} (h : Ends m s Q R)
    (hq : ∀ a t, Q a t → Q' a t) (hr : ∀ t, R t → R' t) : Ends m s Q' R' := by
  unfold Ends at h ⊢
  cases hm : m s with
  | done a t => rw [hm] at h; exact hq a t h
  | abandoned t => rw [hm] at h; exact hr t h

theorem Ends.andThen {m : Steps α} {f : α → Steps β} {s : State} {Q : β → State → Prop} {R : State → Prop}
    (h : Ends m s (fun a t => Ends (f a) t Q R) R) : Ends (andThen m f) s Q R := by
  unfold Ends at h ⊢
  unfold Machine.andThen
  cases hm : m s with
  | done a t => rw [hm] at h; exact h
  | abandoned t => rw [hm] at h; exact h

theorem Ends.nil {s : State} {Q : Unit → State → Prop} {R : State → Prop} (h : Q () s) : Ends (inOrder []) s Q R := h

theorem Ends.cons {m : Steps Unit} {ms : List (Steps Unit)} {s : State} {Q : Unit → State → Prop} {R : State → Prop}
    (h : Ends m s (fun _ t => Ends (inOrder ms) t Q R) R) : Ends (inOrder (m :: ms)) s Q R := by
  unfold Ends at h ⊢
  cases hm : m s with
  | done a t => rw [hm] at h; rw [inOrder_done hm]; exact h
  | abandoned t => rw [hm] at h; rw [inOrder_abandoned hm]; exact h

theorem Ends.append {l r : List (Steps Unit)} {s : State} {Q : Unit → State → Prop} {R : State → Prop}
    (h : Ends (inOrder l) s (fun _ t => Ends (inOrder r) t Q R) R) : Ends (inOrder (l ++ r)) s Q R := by
  have := Ends.andThen (m := inOrder l) (f := fun _ => inOrder r) h
  unfold Ends at this ⊢
  rw [inOrder_append]; exact this

theorem Ends.onlyIf {c : Bool} {m : Steps Unit} {s : State} {Q : Unit → State → Prop} {R : State → Prop}
    (ht : c = true → Ends m s Q R) (hf : c = false → Q () s) : Ends (onlyIf c m) s Q R := by
  cases c with
  | true => exact ht rfl
  | false => exact hf rfl

/-- An operation invoked in place: its test fails and is recorded, or its steps run. -/
theorem Ends.inPlace {check : State → Option RefuseCode} {m : Steps Unit} {s : State} {Q : Unit → State → Prop}
    {R : State → Prop} (hc : ∀ c, check s = some c → Q () (noteRefusal c s)) (hm : check s = none → Ends m s Q R) :
    Ends (inPlace check m) s Q R := by
  unfold Ends Machine.inPlace
  cases h : check s with
  | some c => exact hc c h
  | none => exact hm h

/-- What holds however a sequence ends holds of the state it leaves. -/
theorem Ends.final {m : Steps α} {s : State} {P : State → Prop} (h : Ends m s (fun _ => P) P) : P (final m s) := by
  unfold Ends at h
  unfold Machine.final
  cases hm : m s with
  | done a t => rw [hm] at h; exact h
  | abandoned t => rw [hm] at h; exact h

/-- The instant before an atomic step keeps `P`, or ends in `R` where a `RESET` stands there (rules R256, R258). -/
abbrev PointKeeps (P R : State → Prop) : Prop := ∀ s, P s → Ends atPoint s (fun _ => P) R

/-- What a gap can do, event by event: each `IRQ` and each refused command keeps `P`, a `RESET` gives `R`. -/
theorem serveGap_ends {P R : State → Prop} (g : List Gap) (hirq : ∀ s, P s → P (irqStep s))
    (hbusy : ∀ s, P s → P (refuseBusy s))
    (hreset : ∀ s (g' : List Gap), .reset ∈ g → (∀ e ∈ g', e ∈ g) → P s →
      R { resetRegisters s with agenda := g'.map Gap.presented ++ s.agenda })
    {s : State} (h : P s) : Ends (serveGap g) s (fun _ => P) R := by
  induction g generalizing s with
  | nil => exact h
  | cons e g ih =>
    have ih' : ∀ {t : State}, P t → Ends (serveGap g) t (fun _ => P) R := fun ht =>
      ih (fun t g' hr hg' => hreset t g' (by simp [hr]) fun e he => by simp [hg' e he]) ht
    cases e with
    | irq => exact ih' (hirq s h)
    | reset => exact hreset s g (by simp) (fun e he => by simp [he]) h
    | cmd f => exact ih' (hbusy s h)

/-- A property that does not look at the gaps: what it takes for the instants before atomic steps to keep it. -/
theorem pointKeeps_of {P R : State → Prop} (hgaps : ∀ s g, P s → P { s with gaps := g })
    (hirq : ∀ s, P s → P (irqStep s)) (hbusy : ∀ s, P s → P (refuseBusy s))
    (hreset : ∀ s (g : List Gap), P s → R { resetRegisters s with agenda := g.map Gap.presented ++ s.agenda }) :
    PointKeeps P R := by
  intro s h
  unfold Ends atPoint
  cases hg : s.gaps with
  | nil => exact h
  | cons g rest => exact serveGap_ends g hirq hbusy (fun t g' _ _ ht => hreset t g' ht) (hgaps s rest h)

/-- The same where no `RESET` stands inside: the operation is never abandoned. -/
theorem pointKeeps_noReset {P : State → Prop} (hgaps : ∀ s g, P s → P { s with gaps := g })
    (hirq : ∀ s, P s → P (irqStep s)) (hbusy : ∀ s, P s → P (refuseBusy s)) :
    PointKeeps (fun s => P s ∧ noResetInside s = true) fun _ => False := by
  intro s h
  unfold Ends atPoint
  cases hg : s.gaps with
  | nil => exact h
  | cons g rest =>
    have hn := h.2
    rw [noResetInside, hg, List.all_cons, Bool.and_eq_true] at hn
    have hr : Gap.reset ∉ g := fun hm => by simpa using List.all_eq_true.1 hn.1 _ hm
    refine serveGap_ends (P := fun s => P s ∧ noResetInside s = true) g (fun t ht => ⟨hirq t ht.1, ht.2⟩)
      (fun t ht => ⟨hbusy t ht.1, ht.2⟩) (fun t g' hm _ _ => hr hm) ⟨hgaps s rest h.1, hn.2⟩

/-- What two properties take for the instants to keep both; a `RESET` there ends in what the first says. -/
theorem PointKeeps.and {P P' R : State → Prop} (h : PointKeeps P R) (h' : PointKeeps P' fun _ => True) :
    PointKeeps (fun s => P s ∧ P' s) R := by
  intro s hs
  have h1 := h s hs.1
  have h2 := h' s hs.2
  unfold Ends at *
  split <;> rename_i heq <;> rw [heq] at h1 h2
  · exact ⟨h1, h2⟩
  · exact h1

/-- An output is one atomic step: the gap before it, then the output. -/
theorem emit_ends {P R : State → Prop} {Q : Unit → State → Prop} (he : PointKeeps P R) {s : State} {o : Output}
    (h : P s) (hq : ∀ t, P t → Q () (put o t)) : Ends (emit o) s Q R :=
  Ends.cons ((he _ h).mono (fun _ t ht => hq t ht) fun _ => id)

theorem readMode_ends {P R : State → Prop} {Q : RadioMode → State → Prop} (he : PointKeeps P R) {s : State}
    (h : P s) (hq : ∀ t, P t → Q t.mode t) : Ends readMode s Q R :=
  Ends.andThen ((he _ h).mono (fun _ t ht => hq t ht) fun _ => id)

theorem writeMode_ends {P R : State → Prop} {Q : Unit → State → Prop} (he : PointKeeps P R) {s : State} {m : RadioMode}
    (h : P s) (hq : ∀ t, P t → Q () { t with mode := m }) : Ends (writeMode m) s Q R :=
  Ends.cons ((he _ h).mono (fun _ t ht => hq t ht) fun _ => id)

theorem reading_ends {P R : State → Prop} {Q : α → State → Prop} (he : PointKeeps P R) {s : State} {m : Steps α}
    (h : P s) (hq : ∀ t, P t → Ends m t Q R) : Ends (reading m) s Q R :=
  Ends.andThen ((he _ h).mono (fun _ t ht => hq t ht) fun _ => id)

/-- A sequence all of whose members keep `P`. -/
theorem inOrder_ends {P R : State → Prop} {ms : List (Steps Unit)}
    (h : ∀ m ∈ ms, ∀ s, P s → Ends m s (fun _ => P) R) {s : State} (hs : P s) : Ends (inOrder ms) s (fun _ => P) R := by
  induction ms generalizing s with
  | nil => exact hs
  | cons m ms ih =>
    refine Ends.cons ((h m (by simp) s hs).mono (fun _ t ht => ?_) fun _ => id)
    exact ih (fun m' hm' => h m' (by simp [hm'])) ht

theorem update_ends {Q : Unit → State → Prop} {R : State → Prop} {f : State → State} {s : State} (h : Q () (f s)) :
    Ends (update f) s Q R := h

theorem setPhase_ends {Q : Unit → State → Prop} {R : State → Prop} {p : Phase} {s : State}
    (h : Q () { s with phase := p }) : Ends (setPhase p) s Q R := h

theorem reply_ends {P R : State → Prop} {Q : Unit → State → Prop} (he : PointKeeps P R) {s : State} (h : P s) {r : ResultCode}
    {value : State → List Byte} (hans : ∀ v t, P t → Q () (put (.reply r v) t)) : Ends (reply r value) s Q R :=
  emit_ends he h fun t ht => hans _ t ht

/-- A refusal: what its record keeps, and then its answer. -/
theorem refuse_ends {P R : State → Prop} {Q : Unit → State → Prop} (he : PointKeeps P R)
    (hnote : ∀ c t, P t → P (noteRefusal c t)) (hans : ∀ v t, P t → Q () (put (.reply .refused v) t)) {s : State} (h : P s)
    (c : RefuseCode) : Ends (refuse c) s Q R :=
  Ends.cons ((he s h).mono (fun _ t ht => Ends.cons (update_ends (Ends.cons
    ((reply_ends he (hnote c t ht) hans).mono (fun _ _ => Ends.nil) fun _ => id)))) fun _ => id)

/-- What a command can do: the instant before its tests, then a refusal or its steps. -/
theorem tested_ends {P R : State → Prop} {Q : Unit → State → Prop} (he : PointKeeps P R) {s : State}
    {check : State → Option RefuseCode} {m : Steps Unit} (h : P s)
    (hr : ∀ c t, P t → check t = some c → Ends (refuse c) t Q R)
    (hm : ∀ t, P t → check t = none → Ends m t Q R) : Ends (tested check m) s Q R := by
  refine Ends.andThen ((he s h).mono (fun _ t ht => ?_) fun _ => id)
  cases hc : check t with
  | some c => simpa only [Ends, hc] using hr c t ht hc
  | none => simpa only [Ends, hc] using hm t ht hc

theorem act_ends {P R : State → Prop} (he : PointKeeps P R) (hput : ∀ o t, o.isAnswer = false → P t → P (put o t)) {s : State} (h : P s)
    (a : Action) : Ends (act a) s (fun _ => P) R := emit_ends he h fun t ht => hput _ t rfl ht

theorem reinit_ends {P R : State → Prop} (he : PointKeeps P R) (hput : ∀ o t, o.isAnswer = false → P t → P (put o t)) {s : State} (h : P s) :
    Ends reinit s (fun _ => P) R := act_ends he hput h _

/-- `RXENTER` keeps what outputs and entering `Receiving` keep. -/
theorem rxenter_ends {P R : State → Prop} (he : PointKeeps P R) (hput : ∀ o t, o.isAnswer = false → P t → P (put o t))
    (hmode : ∀ t, P t → P { t with mode := .receiving }) {s : State} (h : P s) : Ends rxenter s (fun _ => P) R :=
  Ends.cons ((writeMode_ends (Q := fun _ => P) he h hmode).mono (fun _ t ht =>
    inOrder_ends (fun m hm u hu => by
      simp only [List.mem_cons, List.not_mem_nil, or_false] at hm
      rcases hm with rfl | rfl | rfl <;> exact act_ends he hput hu _) ht) fun _ => id)

/-- The steps of `PROGCH` keep what outputs keep. -/
theorem progchSteps_ends {P R : State → Prop} (he : PointKeeps P R) (hput : ∀ o t, o.isAnswer = false → P t → P (put o t)) {s : State}
    (h : P s) (i : Byte) : Ends (progchSteps i) s (fun _ => P) R :=
  inOrder_ends (fun m hm u hu => by
    simp only [List.mem_cons, List.not_mem_nil, or_false] at hm
    rcases hm with rfl | rfl | rfl | rfl | rfl <;> exact emit_ends he hu fun t ht => hput _ t rfl ht) h

/-- `PROGCH` in place keeps what outputs and the record of a refusal keep. -/
theorem progch_ends {P R : State → Prop} (he : PointKeeps P R) (hput : ∀ o t, o.isAnswer = false → P t → P (put o t))
    (hnote : ∀ c t, P t → P (noteRefusal c t)) {s : State} (h : P s) (i : Byte) :
    Ends (progch i) s (fun _ => P) R :=
  Ends.inPlace (fun c _ => hnote c s h) fun _ => progchSteps_ends he hput h i

end Sys2Proof.Machine
end

