-- ==== Sys2Proof/Laws/Checks.lean ====
section
/-! SUPPORT. What the tests of the operations come down to: the constraints a valid configuration meets (rule R8), when an
operation's refusal tests pass (rules R122, R123, R141, R191, R193), the conditions of the poll phases (rules R199, R200,
R202), and what the hop-list scan counts (rule R151). -/

namespace Sys2Proof

namespace Config

variable {cfg : Config}

theorem valid_maxHops (h : cfg.valid = true) : 1 ≤ cfg.maxHops ∧ cfg.maxHops ≤ 255 := by
  simp only [valid, Bool.and_eq_true, decide_eq_true_eq] at h
  exact ⟨h.1, h.2.1⟩

theorem valid_qw (h : cfg.valid = true) : 1 ≤ cfg.qw := by
  simp only [valid, Bool.and_eq_true, decide_eq_true_eq] at h
  exact h.2.2.2.2.2.2.2.2.2.2.2.1

theorem valid_regs (h : cfg.valid = true) : cfg.regs.Nodup := by
  simp only [valid, Bool.and_eq_true, decide_eq_true_eq] at h
  exact h.2.2.2.2.2.2.2.2.2.2.2.2.1

theorem valid_cfgOk (h : cfg.valid = true) (c : BitVec 3) : cfg.cfgOk c = true := by
  simp only [valid, Bool.and_eq_true] at h
  exact List.all_eq_true.1 h.2.2.2.2.1 c (by revert c; decide)

/-- A packet fits its length byte and the receive buffer (rule R8). -/
theorem valid_pktsize (h : cfg.valid = true) (c : BitVec 3) :
    cfg.pktsizeOf c ≤ 255 ∧ cfg.pktsizeOf c ≤ cfg.rxbufLen := by
  have := valid_cfgOk h c
  simp only [cfgOk, Bool.and_eq_true, decide_eq_true_eq] at this
  exact this.1

/-- The reserved configuration has size 0 (rule R8). -/
theorem valid_reserved (h : cfg.valid = true) : cfg.pktsizeOf cfg.reservedCfg = 0 := by
  have := valid_cfgOk h cfg.reservedCfg
  simp only [cfgOk, if_true, Bool.and_eq_true, beq_iff_eq] at this
  exact this.2

/-- Any other configuration: its size, and how many channels it can have (rule R8). -/
theorem valid_proper (h : cfg.valid = true) {c : BitVec 3} (hc : c ≠ cfg.reservedCfg) :
    cfg.pktsizeOf c = cfg.payloadOff + cfg.payloadLen c ∧ cfg.pktsizeOf c ≠ 0 ∧ cfg.channelCount c ≤ 16 := by
  have := valid_cfgOk h c
  simp only [cfgOk, if_neg hc, Bool.and_eq_true] at this
  simpa [and_assoc] using this.2

end Config

namespace Machine

/-! ## Refusal tests -/

theorem unpackCheck_eq_none {cfg : Config} {c : BitVec 3} {len : Nat} :
    unpackCheck cfg c len = none ↔ c ≠ cfg.reservedCfg ∧ len = cfg.payloadLen c := by
  unfold unpackCheck
  split
  · simp_all
  · split <;> simp_all

theorem intervalCheck_eq_none {s : State} :
    intervalCheck s = none ↔ s.sp.modemIdx.toNat < s.cfg.nprofiles ∧ intervalOf s.cfg s.sp < 2 ^ 31 := by
  unfold intervalCheck
  split
  · rename_i h; simp only [reduceCtorEq, false_iff]; omega
  · split
    · rename_i h; simp only [reduceCtorEq, false_iff]; omega
    · simp only [true_iff]; omega

/-- What an accepted `SETUP` has passed (rule R191). -/
theorem setupCheck_eq_none {s : State} :
    setupCheck s = none ↔ cfgOf s.sp.flags ≠ s.cfg.reservedCfg ∧ s.sp.modemIdx.toNat < s.cfg.nprofiles ∧
      hopAt s.sp.hop 0 ≠ 0#8 ∧ intervalOf s.cfg s.sp < 2 ^ 31 := by
  have hi := intervalCheck_eq_none (s := s)
  unfold setupCheck
  split
  · simp_all
  · split
    · rename_i h; simp only [reduceCtorEq, false_iff]; omega
    · split
      · simp_all
      · split
        · rename_i h1 h2 h3 h4
          simp only [reduceCtorEq, false_iff]
          intro hh
          exact h4 (hi.2 ⟨hh.2.1, hh.2.2.2⟩)
        · rename_i h1 h2 h3 h4
          simp only [true_iff]
          have := hi.1 (by simpa using h4)
          exact ⟨h1, this.1, h3, this.2⟩

theorem txAllowed_iff {cfg : Config} {m : RadioMode} :
    txAllowed cfg m = true ↔ m = .idle ∨ m = .receiving ∨ cfg.txFromReceived = true ∧ m = .received := by
  cases m <;> simp [txAllowed]

/-- What an accepted `TXSTART` or `SEND` has passed (rule R193). -/
theorem txCheck_eq_none {n : Nat} {s : State} :
    txCheck n s = none ↔ txAllowed s.cfg s.mode = true ∧ 1 ≤ n ∧ n ≤ s.cfg.txbufLen := by
  unfold txCheck
  split
  · simp_all
  · rename_i h
    split
    · rename_i hn; simp only [reduceCtorEq, false_iff]; omega
    · rename_i hn
      simp only [true_iff]
      exact ⟨by simpa using h, by omega, by omega⟩

/-! ## Conditions of the poll phases and of the wait -/

theorem rssiDue_iff {s : State} :
    rssiDue s = true ↔ s.lost.toNat < 2 ∧ s.interval.toNat ≤ (s.now - s.tLast).toNat + 1500 ∧
      (s.cfg.rssiOnce = false ∨ s.tRssi ≠ s.tLast) := by
  unfold rssiDue Config.rssiLossLimit Config.rssiLead elapsed
  rw [Bool.and_eq_true, Bool.and_eq_true, Bool.or_eq_true, decide_eq_true_iff, decide_eq_true_iff, Bool.not_eq_true',
    bne_iff_ne, and_assoc]

theorem lossPolicy_miss {s : State} (ha : s.acq = true) (hl : s.lost.toNat < s.hopcount.toNat)
    (he : s.interval.toNat + 1000 < (s.now - s.tLast).toNat) : lossPolicy s = lossMiss s := by
  unfold lossPolicy Config.lossMargin elapsed
  rw [if_pos ha, if_pos ⟨hl, he⟩]

theorem lossPolicy_resync {s : State} (ha : s.acq = true) (hl : s.lost = s.hopcount)
    (he : s.interval.toNat * s.hopcount.toNat < (s.now - s.tLast).toNat) : lossPolicy s = lossResync s := by
  have hn : ¬ (s.lost.toNat < s.hopcount.toNat ∧ s.interval.toNat + 1000 < (s.now - s.tLast).toNat) := by
    rw [hl]; omega
  unfold lossPolicy Config.lossMargin elapsed
  rw [if_pos ha, if_neg hn, if_pos ⟨hl, he⟩]

theorem lossPolicy_scan {s : State} (ha : s.acq = false)
    (he : s.interval.toNat * s.hopcount.toNat < (s.now - s.tLast).toNat) : lossPolicy s = lossScan s := by
  unfold lossPolicy elapsed
  rw [if_neg (by simp [ha]), if_pos he]

/-- Where no case of the loss policy fires nothing changes (rule R200). -/
theorem lossPolicy_none {s : State}
    (h1 : ¬ (s.acq = true ∧ s.lost.toNat < s.hopcount.toNat ∧ s.interval.toNat + 1000 < (s.now - s.tLast).toNat))
    (h2 : ¬ (s.acq = true ∧ s.lost = s.hopcount ∧
      s.interval.toNat * s.hopcount.toNat < (s.now - s.tLast).toNat))
    (h3 : ¬ (s.acq = false ∧ s.interval.toNat * s.hopcount.toNat < (s.now - s.tLast).toNat)) : lossPolicy s = s := by
  unfold lossPolicy Config.lossMargin elapsed
  cases ha : s.acq with
  | true =>
    rw [if_pos rfl, if_neg (fun h => h1 ⟨ha, h⟩), if_neg (fun h => h2 ⟨ha, h⟩)]
  | false => rw [if_neg (by simp), if_neg (fun h => h3 ⟨ha, h⟩)]

/-- A sample that is not the ninth only accumulates (rule R233). -/
theorem rssiAccumulate_fewer {v : Byte} {s : State} (h : s.rssiCnt.toNat < 8) :
    rssiAccumulate v s = { s with rssiSum := s.rssiSum + v.setWidth 16, rssiCnt := s.rssiCnt + 1#8 } := by
  have hn : ¬ (s.rssiCnt + 1#8).toNat = Config.rssiNsamp := by
    rw [BitVec.toNat_add]; simp [Config.rssiNsamp]; omega
  exact if_neg hn

/-- The ninth sample updates the smoothed value and empties the accumulator (rule R233). -/
theorem rssiAccumulate_ninth {v : Byte} {s : State} (h : s.rssiCnt.toNat = 8) :
    rssiAccumulate v s = { s with
      rssiSum := 0#16, rssiCnt := 0#8
      rssiSmooth := rssiSmoothed s.rssiSmooth (rssiAverage (s.rssiSum + v.setWidth 16)) } := by
  have hn : (s.rssiCnt + 1#8).toNat = Config.rssiNsamp := by
    rw [BitVec.toNat_add]; simp [Config.rssiNsamp, h]
  exact if_pos hn

theorem txDecide_sent (t t0 : Word) : txDecide .transmitted t t0 = some .sent := rfl

theorem txDecide_timeout {m : RadioMode} {t t0 : Word} (hm : m ≠ .transmitted) (h : 100 ≤ (t - t0).toNat) :
    txDecide m t t0 = some .timeout := by
  unfold txDecide Config.txTimeoutMs elapsed
  rw [if_neg hm, if_pos h]

theorem txDecide_wait {m : RadioMode} {t t0 : Word} (hm : m ≠ .transmitted) (h : (t - t0).toNat < 100) :
    txDecide m t t0 = none := by
  unfold txDecide Config.txTimeoutMs elapsed
  rw [if_neg hm, if_neg (by omega)]

/-- The end of an operation whose wait or last phase was a step of its own (rules R194, R195). -/
theorem finish_quiet {s : State} (h : s.gaps = []) (r : ResultCode) :
    finish r s = .done () { s with phase := .idle, out := s.out ++ [.reply r []] } :=
  inOrder_step rfl (inOrder_step (reply_quiet (by exact h) _ _) rfl)

/-! ## The quantiser, the interval, the register numbers -/

/-- The quantiser's thresholds (rule R123). -/
theorem quantise_toNat (v : Half) :
    (quantise v).toNat = if v.toNat ≤ 178 then 0 else if v.toNat ≤ 511 then 1 else if v.toNat ≤ 844 then 2 else 3 := by
  unfold quantise
  repeat' split
  all_goals rfl

/-- The interval of SessionParameters as a function of their packet size, enables and bitrate (rules R140, R141). -/
theorem intervalOf_eq_intervalMicros (cfg : Config) (sp : SessionParams) :
    intervalOf cfg sp = intervalMicros (cfg.pktsizeOf (cfgOf sp.flags)) (divEn cfg sp.flags) (telEn cfg sp.flags)
      cfg.telemetryPacketsize (cfg.bitrateOf sp.modemIdx.toNat) := rfl

/-- No number from 0x0100 on names a scalar register (rule R51). -/
theorem scalarReg_eq_none {rn : Nat} (h : 0x0100 ≤ rn) : scalarReg rn = none := by
  unfold scalarReg
  split <;> first | (exfalso; omega) | rfl

/-- The bits of `LINKFLAGS` (rule R51). -/
theorem linkFlagsWord_toNat (s : State) : (linkFlagsWord s).toNat =
    s.acq.toNat + 2 * s.hopnow.toNat + 4 * s.sessActive.toNat + 8 * s.consumerAttached.toNat := by
  unfold linkFlagsWord
  cases s.acq <;> cases s.hopnow <;> cases s.sessActive <;> cases s.consumerAttached <;> rfl

/-- The bits of `STATUS` (rule R49). -/
theorem statusWord_toNat (s : State) :
    (statusWord s).toNat = s.hang.toNat + 2 * s.txto.toNat + 4 * s.refused.toNat := by
  unfold statusWord
  cases s.hang <;> cases s.txto <;> cases s.refused <;> rfl

/-! ## The hop list -/

/-- The scan stops at the first zero entry, or after as many entries as it may look at (rule R151). -/
theorem hopScan_spec (hop : Memory) (fuel c : Nat) :
    c ≤ hopScan hop c fuel ∧ hopScan hop c fuel ≤ c + fuel ∧
      (∀ k, c ≤ k → k < hopScan hop c fuel → hopAt hop k ≠ 0#8) ∧
      (hopScan hop c fuel = c + fuel ∨ hopAt hop (hopScan hop c fuel) = 0#8) := by
  induction fuel generalizing c with
  | zero => exact ⟨le_rfl, le_rfl, fun k h1 h2 => by simp only [hopScan] at h2; omega, .inl rfl⟩
  | succ n ih =>
    simp only [hopScan]
    split
    · rename_i h; exact ⟨le_rfl, by omega, fun k h1 h2 => by omega, .inr h⟩
    · rename_i h
      obtain ⟨a, b, d, e⟩ := ih (c + 1)
      refine ⟨by omega, by omega, fun k h1 h2 => ?_, e.imp (by omega) id⟩
      rcases Nat.eq_or_lt_of_le h1 with rfl | h1
      · exact h
      · exact d k h1 h2

/-- `hopcount` fits its register (rules R8, R34). -/
theorem hopCount_toNat {cfg : Config} (h : cfg.valid = true) (hop : Memory) :
    (BitVec.ofNat 8 (hopCount hop cfg.maxHops)).toNat = hopCount hop cfg.maxHops := by
  have h1 := Config.valid_maxHops h
  have h2 := (hopScan_spec hop cfg.maxHops 0).2.1
  rw [BitVec.toNat_ofNat]
  unfold hopCount
  omega

/-- `ADVANCE` stays inside the hop list (rule R152, corner case d). -/
theorem nextIndex_lt_maxHops {cfg : Config} {hop : Memory} {hopcount idx : Byte} (hi : idx.toNat < cfg.maxHops) :
    (nextIndex cfg hop hopcount idx).toNat < cfg.maxHops := by
  unfold nextIndex
  simp only
  split
  · simp only [BitVec.toNat_zero]; omega
  · rename_i h
    have := Nat.mod_le (idx.toNat + 1) (2 ^ 8)
    have hne : idx.toNat + 1 ≠ cfg.maxHops := fun he => h (.inr (.inl he))
    rw [BitVec.toNat_ofNat]
    omega

end Machine

end Sys2Proof
end

