-- ==== Sys2Proof/Laws/Encoding.lean ====
section
/-! SUPPORT. The parts of a frame: two-byte values, the `cfg` byte, length bytes, and the counted lists (rules R103 to
R107). -/

namespace Sys2Proof

/-! ## When an operation has a frame -/

@[simp] theorem wellFormed_wrreg (rn : Half) (v : List Byte) :
    (Instr.wrreg rn v).wellFormed = true ↔ v.length ≤ maxCount := decide_eq_true_iff

@[simp] theorem wellFormed_unpack (c : BitVec 3) (p : List Byte) :
    (Instr.unpack c p).wellFormed = true ↔ p.length ≤ maxCount := decide_eq_true_iff

@[simp] theorem wellFormed_pack (c : BitVec 3) (ch : List Half) :
    (Instr.pack c ch).wellFormed = true ↔ ch.length ≤ maxCount := decide_eq_true_iff

@[simp] theorem wellFormed_txstart (d : List Byte) : (Instr.txstart d).wellFormed = true ↔ d.length ≤ maxCount :=
  decide_eq_true_iff

@[simp] theorem wellFormed_send (d : List Byte) : (Instr.send d).wellFormed = true ↔ d.length ≤ maxCount :=
  decide_eq_true_iff

/-! ## The parts of a frame -/

/-- A two-byte value is its two bytes, low byte first (rule R106). -/
@[simp] theorem half_loByte_hiByte (h : Half) : half (loByte h) (hiByte h) = h := by
  apply BitVec.eq_of_toNat_eq
  simp only [half, loByte, hiByte, BitVec.toNat_append, BitVec.extractLsb'_toNat, Nat.shiftRight_zero]
  rw [Nat.shiftLeft_eq, Nat.shiftRight_eq_div_pow, ← Nat.shiftLeft_eq,
    ← Nat.shiftLeft_add_eq_or_of_lt (by exact Nat.mod_lt _ (by decide)), Nat.shiftLeft_eq]
  have := h.isLt
  omega

/-- The `cfg` byte of a frame carries its configuration (rule R106). -/
@[simp] theorem cfgField_setWidth (c : BitVec 3) : cfgField (c.setWidth 8) = c := by
  revert c; decide

/-- A `cfg` operand ignores bits 7:3 of its byte (rule R106). -/
theorem cfgField_and (b : Byte) : cfgField (b &&& 0x07#8) = cfgField b := by
  revert b; decide

/-- The configuration in a flags byte, as a number (rule R91). -/
theorem cfgField_toNat (b : Byte) : (cfgField b).toNat = b.toNat % 8 := by
  simp [cfgField]

/-- The length byte of a list that fits one (rule R103). -/
theorem countByte_toNat {α : Type} {l : List α} (h : l.length ≤ maxCount) : (countByte l).toNat = l.length := by
  simp only [maxCount] at h
  simp only [countByte, BitVec.toNat_ofNat]
  omega

/-- The bytes a length byte counts, then the rest. -/
theorem takeBytes_append (d rest : List Byte) : takeBytes d.length (d ++ rest) = some (d, rest) := by
  induction d with
  | nil => rfl
  | cons b d ih => simp [takeBytes, ih]

/-- What taking bytes can answer. -/
theorem takeBytes_some {n : Nat} {bytes d rest : List Byte} (h : takeBytes n bytes = some (d, rest)) :
    bytes = d ++ rest ∧ d.length = n := by
  induction n generalizing bytes d with
  | zero => simp [takeBytes] at h; simp [← h.1, h.2]
  | succ n ih =>
    cases bytes with
    | nil => simp [takeBytes] at h
    | cons b r =>
      simp only [takeBytes, Option.map_eq_some_iff, Prod.mk.injEq] at h
      obtain ⟨⟨e, f⟩, he, rfl, rfl⟩ := h
      obtain ⟨rfl, hl⟩ := ih he
      simp [hl]

/-- The values a length byte counts, two bytes each, then the rest. -/
theorem takeHalves_append (d : List Half) (rest : List Byte) :
    takeHalves d.length (halvesBytes d ++ rest) = some (d, rest) := by
  induction d with
  | nil => rfl
  | cons b d ih => simp [takeHalves, halvesBytes, ih]

/-- What taking two-byte values can answer, and that it does not look past them. -/
theorem takeHalves_some {n : Nat} {bytes : List Byte} {d : List Half} {rest : List Byte}
    (h : takeHalves n bytes = some (d, rest)) : ∃ front, bytes = front ++ rest ∧ front.length = 2 * n ∧ d.length = n ∧
      ∀ rest', takeHalves n (front ++ rest') = some (d, rest') := by
  induction n generalizing bytes d with
  | zero => simp [takeHalves] at h; exact ⟨[], by simp [h.2], rfl, by simp [← h.1], fun _ => by simp [takeHalves, h.1]⟩
  | succ n ih =>
    match bytes with
    | [] => simp [takeHalves] at h
    | [_] => simp [takeHalves] at h
    | lo :: hi :: r =>
      simp only [takeHalves, Option.map_eq_some_iff, Prod.mk.injEq] at h
      obtain ⟨⟨e, f⟩, he, rfl, rfl⟩ := h
      obtain ⟨front, rfl, hl, hd, hr⟩ := ih he
      exact ⟨lo :: hi :: front, rfl, by simp [hl]; omega, by simp [hd], fun rest' => by simp [takeHalves, hr rest']⟩

/-- Channel values take two bytes each (rule R106). -/
@[simp] theorem halvesBytes_length (d : List Half) : (halvesBytes d).length = 2 * d.length := by
  induction d with
  | nil => rfl
  | cons b d ih => simp [halvesBytes, ih]; omega

end Sys2Proof
end

