-- ==== Sys2Proof/Laws/Keeps.lean ====
section
/-! SUPPORT. What it takes for an invariant to be kept by every step, whatever happens between the atomic steps: the changes
of state that the operations are made of, once, and from them that every operation and every step keeps it. -/

namespace Sys2Proof.Machine

/-- `t` has what `s` has in the fields named here; the others, which the steps of a `POLL` write most, may differ. -/
structure SameNamed (s t : State) : Prop where
  cfg : t.cfg = s.cfg
  sp : t.sp = s.sp
  rxbuf : t.rxbuf = s.rxbuf
  rxLen : t.rxLen = s.rxLen
  txbuf : t.txbuf = s.txbuf
  txLen : t.txLen = s.txLen
  frame : t.frame = s.frame
  frameCnt : t.frameCnt = s.frameCnt
  hang : t.hang = s.hang
  txto : t.txto = s.txto
  refused : t.refused = s.refused
  sessActive : t.sessActive = s.sessActive
  consumerAttached : t.consumerAttached = s.consumerAttached
  hopcount : t.hopcount = s.hopcount
  interval : t.interval = s.interval
  txT0 : t.txT0 = s.txT0
  out : t.out = s.out
  agenda : t.agenda = s.agenda
  gaps : t.gaps = s.gaps

/-- `P` is kept by every change of state that an atomic step of a `POLL` makes, but for its answer; `R` holds where a `RESET` abandons the
operation.  `SETUP`, the phases run by themselves and the host's operations make more changes: `StepClosed`. -/
structure PollClosed (P R : State → Prop) : Prop where
  point : PointKeeps P R
  same : ∀ s t, P s → SameNamed s t → P t
  put : ∀ o s, o.isAnswer = false → P s → P (put o s)
  note : ∀ c s, P s → P (noteRefusal c s)
  hang : ∀ s, P s → P { s with hang := true }
  rx : ∀ bs s, P s → bs.length = s.cfg.pktsizeOf (cfgOf s.sp.flags) → P (rxStore bs s)
  unpack : ∀ c p s, P s → unpackCheck s.cfg c p.length = none → P (unpackWrite c p s)

section

variable {P R : State → Prop} (C : PollClosed P R) {s : State} (h : P s)

include C h

/-- One output that is no answer keeps `P`. -/
theorem pollClosed_emit {o} (ho : o.isAnswer = false) : Ends (emit o) s (fun _ => P) R :=
  emit_ends C.point h fun t ht => C.put o t ho ht
/-- `A_REINIT` keeps `P`. -/
theorem pollClosed_reinit : Ends reinit s (fun _ => P) R := reinit_ends C.point C.put h
/-- `PROGCH` in place keeps `P`. -/
theorem pollClosed_progch (i) : Ends (progch i) s (fun _ => P) R := progch_ends C.point C.put C.note h i
/-- `RXENTER` keeps `P`. -/
theorem pollClosed_rxenter : Ends rxenter s (fun _ => P) R :=
  rxenter_ends C.point C.put (fun t ht => C.same _ _ ht (by constructor <;> rfl)) h

/-- `P1_HEALTH` keeps `P`. -/
theorem pollClosed_p1Health : Ends p1Health s (fun _ => P) R := by
  refine Ends.andThen (reading_ends C.point h fun t ht => ?_)
  have h1 : P (put (.transport (.regRead t.cfg.regHealth (healthInput t))) (tookHealth t)) :=
    C.put _ _ rfl (C.same _ _ ht (by constructor <;> rfl))
  refine Ends.onlyIf (fun _ => inOrder_ends (P := P) (fun m hm u hu => ?_) h1) (fun _ => h1)
  simp only [List.mem_cons, List.not_mem_nil, or_false] at hm
  rcases hm with rfl | rfl | rfl | rfl
  · exact C.hang _ hu
  · exact pollClosed_reinit C hu
  · exact pollClosed_progch C hu _
  · exact pollClosed_rxenter C hu

/-- `P3_RSSI` keeps `P`. -/
theorem pollClosed_p3Rssi : Ends p3Rssi s (fun _ => P) R := by
  refine Ends.onlyIf (fun _ => inOrder_ends (P := P) (fun m hm u hu => ?_) h) (fun _ => h)
  simp only [List.mem_cons, List.not_mem_nil, or_false] at hm
  rcases hm with rfl | rfl
  · exact C.same _ _ hu (by constructor <;> rfl)
  · refine Ends.andThen (reading_ends C.point hu fun t ht => ?_)
    show P (rssiAccumulate _ _)
    refine C.same _ _ (C.put (.transport (.regRead t.cfg.regRssi (rssiInput t))) t rfl ht) ?_
    unfold rssiAccumulate; simp only; split <;> constructor <;> rfl

/-- `RSSISAMP` keeps `P`. -/
theorem pollClosed_rssisamp : Ends rssisamp s (fun _ => P) R := by
    refine Ends.andThen (reading_ends C.point h fun t ht => ?_)
    show P (rssiAccumulate _ _)
    refine C.same _ _ (C.put (.transport (.regRead t.cfg.regRssi (rssiInput t))) t rfl ht) ?_
    unfold rssiAccumulate; simp only; split <;> constructor <;> rfl

/-- `P4_LOSS` keeps `P`. -/
theorem pollClosed_lossPolicy : P (lossPolicy s) := by
  refine C.same _ _ h ?_
  unfold lossPolicy; simp only; repeat' split
  all_goals constructor <;> rfl

/-- `P5_HOP` keeps `P`. -/
theorem pollClosed_p5Hop : Ends p5Hop s (fun _ => P) R := by
  refine Ends.onlyIf (fun _ => inOrder_ends (P := P) (fun m hm u hu => ?_) h) (fun _ => h)
  simp only [List.mem_cons, List.not_mem_nil, or_false] at hm
  rcases hm with rfl | rfl | rfl
  · exact C.same _ _ hu (by constructor <;> rfl)
  · exact pollClosed_progch C hu _
  · exact C.same _ _ hu (by constructor <;> rfl)

/-- `P2_RXPROC` keeps `P`. -/
theorem pollClosed_p2Rxproc : Ends p2Rxproc s (fun _ => P) R := by
  refine Ends.andThen (readMode_ends C.point h fun t ht => ?_)
  refine Ends.onlyIf (fun _ => ?_) (fun _ => ht)
  clear h
  generalize hn : t.cfg.pktsizeOf (cfgOf t.sp.flags) = n
  have hp : PointKeeps (fun u => P u ∧ u.cfg.pktsizeOf (cfgOf u.sp.flags) = n) R :=
    C.point.and (pointKeeps_of (fun _ _ h => h) (fun _ h => h) (fun _ h => h) (fun _ _ _ => trivial))
  refine Ends.andThen ?_
  show Ends (reading (packetRead (t.cfg.pktsizeOf (cfgOf t.sp.flags)))) t _ R
  rw [hn]
  refine reading_ends hp ⟨ht, hn⟩ fun t ht => ?_
  have h1 : P (put (.transport (.act (.rxfifoRead n (packetInput n t)))) (tookPacket t)) :=
    C.put _ _ rfl (C.same _ _ ht.1 (by constructor <;> rfl))
  refine Ends.cons (update_ends ?_)
  have h2 := C.rx (packetInput n t) _ h1 (by
    simp only [packetInput, exactBytes, List.length_map, List.length_range]; exact ht.2.symm)
  refine inOrder_ends (P := P) (fun m hm u hu => ?_) h2
  simp only [List.mem_cons, List.not_mem_nil, or_false] at hm
  rcases hm with rfl | rfl | rfl | rfl | rfl | rfl
  · refine Ends.andThen (reading_ends C.point hu fun t ht => ?_)
    exact C.same _ _ (C.put (.transport (.act (.afcRead (afcInput t)))) _ rfl ht) (by constructor <;> rfl)
  · exact C.same _ _ hu (by constructor <;> rfl)
  · show Ends (andThen _ _) u _ _
    refine Ends.andThen ?_
    have hw : ∀ (x : Byte) (w : State), P w → Ends (onlyIf (isChannelData u.cfg x) (inOrder [
      unpackInPlace (cfgOf u.sp.flags) ((packetInput n t).drop u.cfg.payloadOff), consumerCall])) w (fun _ => P) R := by
      intro x w hw
      refine Ends.onlyIf (fun _ => ?_) (fun _ => hw)
      refine inOrder_ends (P := P) (fun m hm u hu => ?_) hw
      simp only [List.mem_cons, List.not_mem_nil, or_false] at hm
      rcases hm with rfl | rfl
      · exact Ends.inPlace (fun c _ => C.note c _ hu) (fun hc => update_ends (C.unpack _ _ _ hu hc))
      · exact Ends.onlyIf (fun _ => pollClosed_emit C hu rfl) (fun _ => hu)
    change Ends (typeByte (packetInput n t)) u (fun x w => Ends (onlyIf (isChannelData u.cfg x) (inOrder [
      unpackInPlace (cfgOf u.sp.flags) ((packetInput n t).drop u.cfg.payloadOff), consumerCall])) w (fun _ => P) R) R
    generalize packetInput n t = bs at *
    cases bs with
    | nil => exact hw _ { u with draws := u.draws + 1 } (C.same _ _ hu (by constructor <;> rfl))
    | cons x r => exact hw x u hu
  · exact C.same _ _ hu (by constructor <;> rfl)
  · exact pollClosed_rxenter C hu
  · exact C.same _ _ hu (by constructor <;> rfl)

/-- The steps of `POLL` keep `P`. -/
theorem pollClosed_poll : Ends pollSteps s (fun _ => P) R := by
  refine inOrder_ends (P := P) (fun m hm u hu => ?_) h
  simp only [List.mem_cons, List.not_mem_nil, or_false] at hm
  rcases hm with rfl | rfl | rfl | rfl | rfl | rfl | rfl | rfl | rfl | rfl | rfl | rfl | rfl
  · exact pollClosed_emit C hu rfl
  · exact Ends.andThen (reading_ends C.point hu fun t ht => C.same _ _ ht (by constructor <;> rfl))
  · exact C.same _ _ hu (by constructor <;> rfl)
  · exact pollClosed_p1Health C hu
  · exact C.same _ _ hu (by constructor <;> rfl)
  · exact pollClosed_p2Rxproc C hu
  · exact C.same _ _ hu (by constructor <;> rfl)
  · exact pollClosed_p3Rssi C hu
  · exact C.same _ _ hu (by constructor <;> rfl)
  · exact pollClosed_lossPolicy C hu
  · exact C.same _ _ hu (by constructor <;> rfl)
  · exact pollClosed_p5Hop C hu
  · exact C.same _ _ hu (by constructor <;> rfl)
end

/-- `P` is kept by every change of state that any operation makes, but for a `RESET` and the write of a `WRREG`. -/
structure StepClosed (P R : State → Prop) : Prop extends PollClosed P R where
  txwait : ∀ m t s, P s → P (txwaitWrite m t s)
  txLoad : ∀ d s, P s → txCheck d.length s = none → d.length ≤ 255 → P (txLoad d s)
  txT0 : ∀ t s, P s → P { s with txT0 := t }
  hopcnt : ∀ s, P s → P (hopcntWrite s)
  interval : ∀ s, P s → P (intervalWrite s)
  endsess : ∀ s, P s → P { s with sessActive := false, consumerAttached := false }
  attach : ∀ s, P s → P { s with consumerAttached := true }
  setup : ∀ n s, P s → P (setupInit n s)

/-- A refusal leaves what its answer leaves. -/
theorem pollClosed_refuse {P R Q : State → Prop} (C : PollClosed P R) (hans : ∀ r v s, P s → Q (put (.reply r v) s)) {s : State}
    (h : P s) (c : RefuseCode) : Ends (refuse c) s (fun _ => Q) R :=
  refuse_ends C.point C.note (fun _ _ ht => hans _ _ _ ht) h c

/-- A command leaves what a refusal's answer leaves, or what its steps leave. -/
theorem pollClosed_tested {P R Q : State → Prop} (C : PollClosed P R) (hans : ∀ r v s, P s → Q (put (.reply r v) s))
    {check : State → Option RefuseCode} {m : Steps Unit} {s : State} (h : P s)
    (hm : ∀ t, P t → check t = none → Ends m t (fun _ => Q) R) : Ends (tested check m) s (fun _ => Q) R :=
  tested_ends C.point h (fun c _ ht _ => pollClosed_refuse C hans ht c) hm

/-- A command whose steps keep `P` leaves what its answer leaves, refused or not. -/
theorem pollClosed_command {P R Q : State → Prop} (C : PollClosed P R) (hans : ∀ r v s, P s → Q (put (.reply r v) s))
    (hrq : ∀ s, R s → Q s) {check : State → Option RefuseCode} {steps : List (Steps Unit)} {value : State → List Byte} {s : State}
    (h : P s) (hs : ∀ t, P t → check t = none → Ends (inOrder steps) t (fun _ => P) R) : Q (command check steps value s) :=
  ((pollClosed_tested C hans h fun t ht hc => Ends.append ((hs t ht hc).mono (fun _ _ hu =>
    Ends.cons ((reply_ends (Q := fun _ => Q) C.point hu fun _ _ hv => hans _ _ _ hv).mono (fun _ _ hv => Ends.nil hv) fun _ => id))
    fun _ => id)).mono (fun _ _ => id) hrq).final

/-- The payload of a transmission fits its count byte, as in every decoded operation. -/
def dataFits : Instr → Prop
  | .txstart d | .send d => d.length ≤ 255
  | _ => True

/-- What `P` asks of a `WRREG` done in `s`: its write keeps `P`, if it is accepted where its tests are made, after what the
instant before them did. -/
abbrev WrregKeeps (P : State → Prop) (s : State) : Prop :=
  ∀ rn v t, P t → t.cfg = s.cfg → t.sp = s.sp → t.sessActive = s.sessActive → wrregCheck rn v.length t = none →
    P (wrregWrite rn v t)

/-- A `WRREG` leaves what its answer leaves. -/
theorem pollClosed_wrreg {P R Q : State → Prop} (C : PollClosed P R) (hans : ∀ r v s, P s → Q (put (.reply r v) s))
    (hrq : ∀ s, R s → Q s) {s : State} (h : P s) (hw : WrregKeeps P s) (rn : Half) (v : List Byte) :
    Q (command (wrregCheck rn v.length) [update (wrregWrite rn v)] noValue s) := by
  have hp : PointKeeps (fun t => P t ∧ t.cfg = s.cfg ∧ t.sp = s.sp ∧ t.sessActive = s.sessActive) R :=
    C.point.and (pointKeeps_of (fun _ _ h => h) (fun _ h => h) (fun _ h => h) (fun _ _ _ => trivial))
  refine ((tested_ends (Q := fun _ => Q) hp ⟨h, rfl, rfl, rfl⟩ (fun c t ht _ => pollClosed_refuse C hans ht.1 c)
    fun t ht hc => ?_).mono (fun _ _ => id) hrq).final
  exact Ends.cons (update_ends (Ends.cons ((reply_ends (Q := fun _ => Q) C.point
    (hw rn v t ht.1 ht.2.1 ht.2.2.1 ht.2.2.2 hc) fun _ _ hv => hans _ _ _ hv).mono (fun _ _ hv => Ends.nil hv) fun _ => id)))

/-- Every micro-operation leaves `Q` in a state with `P`, if `P` and `R` both give `Q`: it answers nothing. -/
theorem stepClosed_uop {P R Q : State → Prop} (C : StepClosed P R) (hpq : ∀ s, P s → Q s) (hrq : ∀ s, R s → Q s)
    {s t : State} (h : P s) {i : Instr} (hi : opClass i = .uop) (he : exec i s = .next t) : Q t := by
  have one : ∀ {m : Steps Unit} {s}, Ends m s (fun _ => P) R → Ends (inOrder [m]) s (fun _ => P) R :=
    fun hm => Ends.cons (hm.mono (fun _ _ h => Ends.nil h) fun _ => id)
  have fin : ∀ {m : Steps Unit} {s}, Ends m s (fun _ => P) R → Q (final m s) :=
    fun hm => (hm.mono (fun _ t ht => hpq t ht) hrq).final
  cases i <;> simp only [opClass, reduceCtorEq] at hi <;> clear hi <;> injection he with he <;> subst he
  case p1Health => exact fin (pollClosed_p1Health C.toPollClosed h)
  case p2Rxproc => exact fin (pollClosed_p2Rxproc C.toPollClosed h)
  case p3Rssi => exact fin (pollClosed_p3Rssi C.toPollClosed h)
  case p4Loss => exact hpq _ (pollClosed_lossPolicy C.toPollClosed h)
  case p5Hop => exact fin (pollClosed_p5Hop C.toPollClosed h)
  case txwait =>
    refine fin (Ends.cons ((pollClosed_emit C.toPollClosed h rfl).mono (fun _ u hu => one ?_) fun _ => id))
    exact Ends.andThen (readMode_ends C.point hu fun t ht => Ends.andThen (reading_ends C.point ht fun u hu =>
      C.txwait _ _ _ (C.same _ _ hu (by constructor <;> rfl))))
  case qhit => exact hpq _ (C.same _ _ h (by constructor <;> rfl))
  case qmiss => exact hpq _ (C.same _ _ h (by constructor <;> rfl))
  case qclr => exact hpq _ (C.same _ _ h (by constructor <;> rfl))
  case rssisamp => exact fin (pollClosed_rssisamp C.toPollClosed h)
  case rssiclr => exact hpq _ (C.same _ _ h (by constructor <;> rfl))

/-- Every operation leaves `Q` in a state with `P`, if `P`, an answer after `P`, and `R` all give `Q`. -/
theorem stepClosed_exec {P R Q : State → Prop} (C : StepClosed P R) (hpq : ∀ s, P s → Q s)
    (hans : ∀ r v s, P s → Q (put (.reply r v) s)) (hrq : ∀ s, R s → Q s) {s t : State} (h : P s) {i : Instr}
    (hreset : i = .reset → Q (resetRegisters s)) (hi : dataFits i ∨ ∀ d s, P s → P (txLoad d s)) (hw : WrregKeeps P s)
    (he : exec i s = .next t) : Q t := by
  have cmd := fun {check steps value} {s : State} => pollClosed_command (check := check) (steps := steps)
    (value := value) (s := s) C.toPollClosed hans hrq
  have one : ∀ {m : Steps Unit} {s}, Ends m s (fun _ => P) R → Ends (inOrder [m]) s (fun _ => P) R :=
    fun hm => Ends.cons (hm.mono (fun _ _ h => Ends.nil h) fun _ => id)
  have htx : ∀ d s, P s → d.length ≤ 255 ∨ (∀ d s, P s → P (txLoad d s)) → txCheck d.length s = none →
      Ends (txstartSteps d) s (fun _ => P) R := by
    intro d s hs hd hc
    refine Ends.cons (update_ends (inOrder_ends (P := P) (fun m hm u hu => ?_)
      (hd.elim (C.txLoad d s hs hc) fun hd => hd d s hs)))
    simp only [List.mem_cons, List.not_mem_nil, or_false] at hm
    rcases hm with rfl | rfl | rfl
    · exact pollClosed_emit C.toPollClosed hu rfl
    · exact writeMode_ends C.point hu fun t ht => C.same _ _ ht (by constructor <;> rfl)
    · exact pollClosed_emit C.toPollClosed hu rfl
  by_cases hu : opClass i = .uop
  · exact stepClosed_uop C hpq hrq h hu he
  cases i <;> first
    | exact absurd rfl hu
    | skip
  all_goals (injection he with he; subst he)
  case nop => exact cmd h fun _ h _ => Ends.nil h
  case wrreg rn v => exact pollClosed_wrreg C.toPollClosed hans hrq h hw rn v
  case rdreg => exact cmd h fun _ h _ => Ends.nil h
  case attach => exact cmd h fun _ h _ => one (update_ends (C.attach _ h))
  case pktsize => exact cmd h fun _ h _ => Ends.nil h
  case unpack c p =>
    exact cmd h fun t h hc => one (update_ends (C.unpack _ _ _ h hc))
  case pack => exact cmd h fun _ h _ => Ends.nil h
  case interval => exact cmd h fun _ h _ => one (update_ends (C.interval _ h))
  case hopcnt => exact cmd h fun _ h _ => one (update_ends (C.hopcnt _ h))
  case advance => exact cmd h fun _ h _ => one (update_ends (C.same _ _ h (by constructor <;> rfl)))
  case progch k => exact cmd h fun _ h _ => one (progchSteps_ends C.point C.put h k)
  case setup =>
    refine cmd h fun _ h _ => one (inOrder_ends (P := P) (fun m hm u hu => ?_) h)
    simp only [List.mem_cons, List.not_mem_nil, or_false] at hm
    rcases hm with rfl | rfl | rfl | rfl | rfl | rfl
    · exact C.hopcnt _ hu
    · exact C.interval _ hu
    · exact Ends.andThen (reading_ends C.point hu fun t ht => C.setup _ _ (C.same _ _ ht (by constructor <;> rfl)))
    · exact pollClosed_reinit C.toPollClosed hu
    · exact pollClosed_progch C.toPollClosed hu _
    · exact pollClosed_rxenter C.toPollClosed hu
  case rxenter => exact cmd h fun _ h _ => one (pollClosed_rxenter C.toPollClosed h)
  case txstart d => exact cmd h fun t h hc => one (htx d t h hi hc)
  case send d =>
    refine ((pollClosed_tested C.toPollClosed hans h fun t h hc =>
      Ends.cons ((htx d t h hi hc).mono (fun _ u hu => ?_) fun _ => id)).mono (fun _ _ => id) hrq).final
    refine Ends.mono (Q := fun _ => P) (R := R) (one ?_) (fun _ _ => hpq _) fun _ => id
    exact Ends.andThen (reading_ends C.point hu fun v hv => C.same _ _ (C.txT0 (msInput v) _ hv) (by constructor <;> rfl))
  case poll => exact cmd h fun _ h _ => one (pollClosed_poll C.toPollClosed h)
  case endsess => exact cmd h fun _ h _ => one (update_ends (C.endsess _ h))
  case irq =>
    have : P (irqStep s) := C.put _ _ rfl (C.same _ _ h (by constructor <;> rfl))
    exact hpq _ this
  case reset => exact hreset rfl

/-- The operation in progress going on leaves `Q`. -/
theorem stepClosed_resume {P R Q : State → Prop} (C : StepClosed P R) (hpq : ∀ s, P s → Q s)
    (hans : ∀ r v s, P s → Q (put (.reply r v) s)) (hrq : ∀ s, R s → Q s) {s : State} (h : P s) : Q (resume s) := by
  have fin : ∀ r, Q (final (finish r) s) := by
    intro r
    have h1 : P { s with phase := .idle } := C.same _ _ h (by constructor <;> rfl)
    have h2 : Ends (finish r) s (fun _ => Q) R := Ends.cons (setPhase_ends (Ends.cons
      ((reply_ends (Q := fun _ => Q) C.point h1 fun _ _ hv => hans _ _ _ hv).mono (fun _ _ hv => Ends.nil hv) fun _ => id)))
    exact (h2.mono (fun _ _ => id) hrq).final
  unfold resume
  split
  case h_6 => exact fin _
  case h_7 =>
    split
    · exact hpq _ h
    · exact fin _
  all_goals exact hpq _ (C.same _ _ h (by constructor <;> rfl))

/-- A decoded operation's payload fits its count byte (rule R106). -/
theorem decode_dataFits {bytes : List Byte} {i : Instr} {rest : List Byte} (h : decode bytes = .ok (i, rest)) :
    dataFits i := by
  have payload : ∀ op : List Byte → Instr, (∀ d, d.length ≤ 255 → dataFits (op d)) →
      ∀ r, decodePayload op r = .ok (i, rest) → dataFits i := by
    intro op hop r hr
    unfold decodePayload at hr
    split at hr
    · rename_i n r'
      split at hr
      · rename_i d _ ht
        cases hr
        exact hop d (by have := (takeBytes_some ht).2; have := n.isLt; omega)
      · cases hr
    · cases hr
  cases i <;> first | trivial | skip
  all_goals
    cases bytes with
    | nil => cases h
    | cons c r =>
      simp only [decode] at h
      unfold decodeOp at h
      split at h
      case h_14 => exact payload .txstart (fun _ h => h) r h
      case h_15 => exact payload .send (fun _ h => h) r h
      all_goals first
        | cases h
        | (simp only [decodeWrreg, decodeRdreg, decodePktsize, decodeUnpack, decodePack, decodeProgch] at h
           repeat' split at h
           all_goals cases h)

/-- What the sequencer runs of its own is a micro-operation. -/
theorem phaseUop_opClass {p : Phase} {i : Instr} (h : phaseUop p = some i) : opClass i = .uop := by
  cases p <;> simp [phaseUop] at h <;> subst h <;> rfl

/-- What is taken up is done in a state with `P`; a `RESET` of its own leaves `Q`, a `WRREG` keeps `P`, and what the sequencer
runs of its own is a micro-operation. -/
def FetchKeeps (P Q : State → Prop) : Fetched → Prop
  | .idle t => P t
  | .refuse _ t => P t
  | .stuck => True
  | .run i t => P t ∧ dataFits i ∧ (i = .reset → Q (resetRegisters t)) ∧ WrregKeeps P t
  | .own i t => P t ∧ opClass i = .uop

/-- What every step leaves: the induction over operations, phases and gaps, once for every property.  `P` is to hold once what
the step takes up has left the agenda, which keeps the bytes after a frame; `Q` is to follow from `P`,
from an answer after `P`, and from `R`, the latter also where the operation in progress then goes on. -/
theorem stepClosed_ends {P R Q : State → Prop} (C : StepClosed P R) (hpq : ∀ s, P s → Q s)
    (hans : ∀ r v s, P s → Q (put (.reply r v) s)) (hrq : ∀ s, R s → Q s) (hres : ∀ s, R s → Q (resume s)) {s t : State}
    (hv : s.cfg.valid = true → ∀ extra, P { s with agenda := requeue extra s.agenda.tail })
    (hreset : ∀ a, s.cfg.valid = true → s.agenda = .reset :: a → Q (resetRegisters { s with agenda := a }))
    (hw : s.cfg.valid = true → WrregKeeps P s) (he : step s = .next t) : Q t := by
  unfold step at he
  split at he
  swap; · cases he
  rename_i hh
  have hw := hw hh
  have ag : ∀ a, s.agenda.tail = a → P { s with agenda := a } := fun a ha => ha ▸ hv hh []
  have ref : ∀ c s, P s → Q (final (refuse c) s) := fun c s h =>
    ((pollClosed_refuse C.toPollClosed hans h c).mono (fun _ _ => id) hrq).final
  have hg : FetchKeeps P Q (fetch s) := by
    have own : ∀ a, s.agenda.tail = a → FetchKeeps P Q (fetchOwn { s with agenda := a }) := by
      intro a ha; have hu := ag a ha
      unfold fetchOwn
      cases hp : phaseUop ({ s with agenda := a } : State).phase with
      | none => exact hu
      | some i => exact ⟨hu, phaseUop_opClass hp⟩
    unfold fetch
    split <;> rename_i hs
    · exact own s.agenda (by rw [hs]; rfl)
    all_goals have ht := congrArg List.tail hs
    · exact own _ ht
    · exact ⟨ag _ ht, trivial, nofun, hw⟩
    · exact ⟨ag _ ht, trivial, fun _ => hreset _ hh hs, hw⟩
    · unfold fetchUop
      split
      · rename_i i _ hd
        split
        · rename_i hc
          exact ⟨ag _ ht, decode_dataFits hd, (by rintro rfl; cases hc), hw⟩
        · exact ag _ ht
      · exact ag _ ht
    · unfold fetchCommand
      split
      · exact ag _ ht
      · split
        · rename_i i _ hd
          split
          · rename_i hc
            exact ⟨by simpa only [ht, List.tail_cons] using hv hh _, decode_dataFits hd, (by rintro rfl; cases hc), hw⟩
          · exact ag _ ht
        all_goals first | exact ag _ ht | trivial
  split at he
  all_goals rename_i hf
  all_goals rw [hf] at hg
  · injection he with he; subst he; exact hpq _ hg
  · injection he with he; subst he; exact ref _ _ hg
  · cases he
  · exact stepClosed_exec C hpq hans hrq hg.1 hg.2.2.1 (.inl hg.2.1) hg.2.2.2 he
  · split at he
    · rename_i v hv
      injection he with he; subst he
      exact (stepClosed_uop (Q := fun u => P u ∨ R u) C (fun _ => .inl) (fun _ => .inr) hg.1 hg.2 hv).elim
        (stepClosed_resume C hpq hans hrq) (hres _)
    · cases he
    · cases he

/-- Every step keeps `P`, if answers do and a `RESET` inside an operation leads to it. -/
theorem stepClosed_step {P R : State → Prop} (C : StepClosed P R) (hans : ∀ r v s, P s → P (put (.reply r v) s))
    (hrp : ∀ s, R s → P s) {s t : State} (hv : s.cfg.valid = true → P s) (hag : ∀ a, P s → P { s with agenda := a })
    (hreset : ∀ a, P s → s.agenda = .reset :: a → P (resetRegisters { s with agenda := a }))
    (hw : P s → WrregKeeps P s) (he : step s = .next t) : P t :=
  stepClosed_ends C (fun _ => id) hans hrp (fun s h => stepClosed_resume C (fun _ => id) hans hrp (hrp s h))
    (fun h _ => hag _ (hv h)) (fun a h => hreset a (hv h)) (fun h => hw (hv h)) he

end Sys2Proof.Machine
end

