-- ==== Sys2Proof/Laws/Memory.lean ====
section
/-! SUPPORT. The byte arrays: reading after writing, and that every operation keeps the canonical form. -/

namespace Sys2Proof.Machine

@[simp] theorem memGet_nil (a : Nat) : memGet [] a = none := rfl

@[simp] theorem memGet_cons (k : Nat) (b : Byte) (m : Memory) (a : Nat) :
    memGet ((k, b) :: m) a = if k = a then some b else memGet m a := rfl

/-- Reading after listing a byte. -/
theorem memGet_memPut (m : Memory) (a : Nat) (v : Byte) (x : Nat) :
    memGet (memPut m a v) x = if x = a then some v else memGet m x := by
  induction m with
  | nil => simp [memPut, eq_comm]
  | cons c m ih =>
    obtain ⟨k, b⟩ := c
    by_cases h1 : a < k
    · by_cases hx : x = a
      · simp [memPut, h1, hx]
      · simp [memPut, h1, hx, Ne.symm hx]
    · by_cases h2 : a = k
      · subst h2
        by_cases hx : x = a
        · simp [memPut, hx]
        · simp [memPut, hx, Ne.symm hx]
      · by_cases hx : x = a
        · subst hx; simp [memPut, h1, h2, ih, Ne.symm h2]
        · simp [memPut, h1, h2, ih, hx]

/-- Reading another index after unlisting one. -/
theorem memGet_memErase_ne (m : Memory) (a x : Nat) (h : x ≠ a) : memGet (memErase m a) x = memGet m x := by
  induction m with
  | nil => rfl
  | cons c m ih =>
    obtain ⟨k, b⟩ := c
    by_cases hk : k = a
    · subst hk; simp [memErase, Ne.symm h]
    · simp [memErase, hk, ih]

/-- The parts of the canonical form. -/
theorem memWf_cons {sp : Space} {k : Nat} {b : Byte} {m : Memory} (h : memWf sp ((k, b) :: m) = true) :
    unlisted sp ≠ some b ∧ memWf sp m = true ∧ ∀ c ∈ m.head?, k < c.1 := by
  cases m with
  | nil => simp [memWf] at h ⊢; exact h
  | cons c m => simp [memWf] at h ⊢; exact ⟨h.1.1, h.2, h.1.2⟩

/-- In canonical form the index at the front is below all others. -/
theorem memWf_head_lt {sp : Space} {k : Nat} {b : Byte} {m : Memory} (h : memWf sp ((k, b) :: m) = true) :
    ∀ c ∈ m, k < c.1 := by
  induction m generalizing k b with
  | nil => simp
  | cons c m ih =>
    obtain ⟨-, hm, hk⟩ := memWf_cons h
    have hkc : k < c.1 := hk c (by simp)
    intro d hd
    rcases List.mem_cons.1 hd with rfl | hd
    · exact hkc
    · exact lt_trans hkc (ih hm d hd)

/-- An index below all listed ones is not listed. -/
theorem memGet_none_of_lt {m : Memory} {a : Nat} (h : ∀ c ∈ m, a < c.1) : memGet m a = none := by
  induction m with
  | nil => rfl
  | cons c m ih =>
    have hc : a < c.1 := h c (by simp)
    have : c.1 ≠ a := by omega
    rw [show c = (c.1, c.2) from rfl, memGet_cons, if_neg this]
    exact ih fun d hd => h d (by simp [hd])

/-- Reading the same index after unlisting it. -/
theorem memGet_memErase_self {sp : Space} {m : Memory} (h : memWf sp m = true) (a : Nat) :
    memGet (memErase m a) a = none := by
  induction m with
  | nil => rfl
  | cons c m ih =>
    obtain ⟨k, b⟩ := c
    by_cases hk : k = a
    · subst hk
      simpa [memErase] using memGet_none_of_lt (memWf_head_lt h)
    · simpa [memErase, hk] using ih (memWf_cons h).2.1

/-- Reading after writing one element of an array in canonical form. -/
theorem memRead_memWrite {sp : Space} {m : Memory} (h : memWf sp m = true) (a : Nat) (v : Byte) (x : Nat) :
    memRead sp (memWrite sp m a v) x = if x = a then some v else memRead sp m x := by
  by_cases hu : unlisted sp = some v
  · by_cases hx : x = a
    · subst hx; simp [memRead, memWrite, hu, memGet_memErase_self h]
    · simp [memRead, memWrite, hu, hx, memGet_memErase_ne m a x hx]
  · by_cases hx : x = a
    · subst hx; simp [memRead, memWrite, hu, memGet_memPut]
    · simp [memRead, memWrite, hu, hx, memGet_memPut]

/-- The canonical form from its parts. -/
theorem memWf_cons_of {sp : Space} {k : Nat} {b : Byte} {m : Memory} (hb : unlisted sp ≠ some b)
    (hm : memWf sp m = true) (hk : ∀ c ∈ m.head?, k < c.1) : memWf sp ((k, b) :: m) = true := by
  cases m with
  | nil => simp [memWf, hb]
  | cons c m =>
    have : k < c.1 := hk c (by simp)
    simpa [memWf, hb, this] using hm

theorem memPut_head (m : Memory) (a : Nat) (v : Byte) :
    ∀ c ∈ (memPut m a v).head?, c.1 = a ∨ c ∈ m.head? := by
  cases m with
  | nil => simp [memPut]
  | cons c m =>
    obtain ⟨k, b⟩ := c
    by_cases h1 : a < k
    · simp [memPut, h1]
    · by_cases h2 : a = k
      · subst h2; simp [memPut]
      · simp [memPut, h1, h2]

/-- Listing a byte keeps the canonical form. -/
theorem memWf_memPut {sp : Space} {m : Memory} (h : memWf sp m = true) (a : Nat) (v : Byte)
    (hv : unlisted sp ≠ some v) : memWf sp (memPut m a v) = true := by
  induction m with
  | nil => simp [memPut, memWf, hv]
  | cons c m ih =>
    obtain ⟨k, b⟩ := c
    obtain ⟨hb, hm, hk⟩ := memWf_cons h
    by_cases h1 : a < k
    · simp only [memPut, h1, if_true]
      exact memWf_cons_of hv h (by simp [h1])
    · by_cases h2 : a = k
      · subst h2
        simp only [memPut, lt_irrefl, if_false, if_true]
        exact memWf_cons_of hv hm hk
      · simp only [memPut, h1, h2, if_false]
        refine memWf_cons_of hb (ih hm) fun c hc => ?_
        rcases memPut_head m a v c hc with hc | hc
        · omega
        · exact hk c hc

/-- Unlisting a byte keeps the canonical form. -/
theorem memWf_memErase {sp : Space} {m : Memory} (h : memWf sp m = true) (a : Nat) :
    memWf sp (memErase m a) = true := by
  induction m with
  | nil => rfl
  | cons c m ih =>
    obtain ⟨k, b⟩ := c
    obtain ⟨hb, hm, hk⟩ := memWf_cons h
    by_cases hka : k = a
    · simpa [memErase, hka] using hm
    · simp only [memErase, hka, if_false]
      refine memWf_cons_of hb (ih hm) fun c hc => ?_
      have hlt := memWf_head_lt h
      cases m with
      | nil => simp [memErase] at hc
      | cons d m =>
        by_cases hd : d.1 = a
        · rw [show d = (d.1, d.2) from rfl, memErase, if_pos hd] at hc
          exact hlt c (by simp [List.mem_of_mem_head? hc])
        · rw [show d = (d.1, d.2) from rfl, memErase, if_neg hd] at hc
          simp at hc; subst hc; exact hlt _ (by simp)

/-- Writing one element keeps the canonical form. -/
theorem memWf_memWrite {sp : Space} {m : Memory} (h : memWf sp m = true) (a : Nat) (v : Byte) :
    memWf sp (memWrite sp m a v) = true := by
  by_cases hu : unlisted sp = some v
  · simpa [memWrite, hu] using memWf_memErase h a
  · simpa [memWrite, hu] using memWf_memPut h a v hu

/-- A block of bytes listed from `k` on is in canonical form, in a buffer space. -/
theorem memWf_memBlock {sp : Space} (hs : unlisted sp = none) (k : Nat) (bs : List Byte) :
    memWf sp (memBlock k bs) = true := by
  induction bs generalizing k with
  | nil => rfl
  | cons b r ih =>
    refine memWf_cons_of (by simp [hs]) (ih (k + 1)) ?_
    cases r <;> simp [memBlock]

/-- Reading a block of bytes. -/
theorem memGet_memBlock (k : Nat) (bs : List Byte) (a : Nat) :
    memGet (memBlock k bs) a = if k ≤ a then bs[a - k]? else none := by
  induction bs generalizing k with
  | nil => simp [memBlock]
  | cons b r ih =>
    by_cases hk : k = a
    · subst hk; simp [memBlock]
    · rcases Nat.lt_or_ge a k with h | h
      · have : ¬ k + 1 ≤ a := by omega
        have : ¬ k ≤ a := by omega
        simp [memBlock, *]
      · have h1 : k + 1 ≤ a := by omega
        have h2 : a - k = a - (k + 1) + 1 := by omega
        simp [memBlock, hk, ih, h, h1, h2]

/-- Reading a buffer after a block was written. -/
theorem memRead_bufferOf {sp : Space} (hs : unlisted sp = none) (bs : List Byte) (i : Nat) :
    memRead sp (bufferOf bs) i = bs[i]? := by
  simp [memRead, bufferOf, memGet_memBlock, hs]

/-- The hop list after a write, at every index (rules R23, R176). -/
theorem hopAt_hopPut {hop : Memory} (h : memWf .hop hop = true) (i : Nat) (v : Byte) (x : Nat) :
    hopAt (hopPut hop i v) x = if x = i then v else hopAt hop x := by
  by_cases hx : x = i <;> simp [hopAt, hopPut, memRead_memWrite h, hx]

/-- The reset memories are in canonical form. -/
theorem reset_canonical : canonical State.reset = true := by decide

end Sys2Proof.Machine
end

