-- ==== Sys2Proof/Laws/PerInstr.lean ====
section
/-! SUPPORT. Statements made once per operation: the frame of a well-formed operation is at most `maxFrame` bytes long
(rules R103, R107), so the zeros a table word is padded with never run out. -/

namespace Sys2Proof.Laws.FrameLength

/-- The frame of the operation is at most `maxFrame` bytes long, if the operation has one. -/
def Statement (i : Instr) : Prop := i.wellFormed = true → (encode i).length ≤ maxFrame

theorem nop : Statement .nop := fun _ => by simp [encode, operands, maxFrame]

theorem wrreg (rn : Half) (v : List Byte) : Statement (.wrreg rn v) := fun h => by
  simp only [wellFormed_wrreg, maxCount] at h
  simp [encode, operands, maxFrame]
  omega

theorem rdreg (rn : Half) : Statement (.rdreg rn) := fun _ => by simp [encode, operands, maxFrame]

theorem attach : Statement .attach := fun _ => by simp [encode, operands, maxFrame]

theorem pktsize (flags : Byte) : Statement (.pktsize flags) := fun _ => by simp [encode, operands, maxFrame]

theorem unpack (c : BitVec 3) (p : List Byte) : Statement (.unpack c p) := fun h => by
  simp only [wellFormed_unpack, maxCount] at h
  simp [encode, operands, maxFrame]
  omega

theorem pack (c : BitVec 3) (ch : List Half) : Statement (.pack c ch) := fun h => by
  simp only [wellFormed_pack, maxCount] at h
  simp [encode, operands, maxFrame]
  omega

theorem interval : Statement .interval := fun _ => by simp [encode, operands, maxFrame]

theorem hopcnt : Statement .hopcnt := fun _ => by simp [encode, operands, maxFrame]

theorem advance : Statement .advance := fun _ => by simp [encode, operands, maxFrame]

theorem progch (i : Byte) : Statement (.progch i) := fun _ => by simp [encode, operands, maxFrame]

theorem setup : Statement .setup := fun _ => by simp [encode, operands, maxFrame]

theorem rxenter : Statement .rxenter := fun _ => by simp [encode, operands, maxFrame]

theorem txstart (d : List Byte) : Statement (.txstart d) := fun h => by
  simp only [wellFormed_txstart, maxCount] at h
  simp [encode, operands, maxFrame]
  omega

theorem send (d : List Byte) : Statement (.send d) := fun h => by
  simp only [wellFormed_send, maxCount] at h
  simp [encode, operands, maxFrame]
  omega

theorem poll : Statement .poll := fun _ => by simp [encode, operands, maxFrame]

theorem endsess : Statement .endsess := fun _ => by simp [encode, operands, maxFrame]

theorem irq : Statement .irq := fun _ => by simp [encode, operands, maxFrame]

theorem reset : Statement .reset := fun _ => by simp [encode, operands, maxFrame]

theorem p1Health : Statement .p1Health := fun _ => by simp [encode, operands, maxFrame]

theorem p2Rxproc : Statement .p2Rxproc := fun _ => by simp [encode, operands, maxFrame]

theorem p3Rssi : Statement .p3Rssi := fun _ => by simp [encode, operands, maxFrame]

theorem p4Loss : Statement .p4Loss := fun _ => by simp [encode, operands, maxFrame]

theorem p5Hop : Statement .p5Hop := fun _ => by simp [encode, operands, maxFrame]

theorem txwait : Statement .txwait := fun _ => by simp [encode, operands, maxFrame]

theorem qhit : Statement .qhit := fun _ => by simp [encode, operands, maxFrame]

theorem qmiss : Statement .qmiss := fun _ => by simp [encode, operands, maxFrame]

theorem qclr : Statement .qclr := fun _ => by simp [encode, operands, maxFrame]

theorem rssisamp : Statement .rssisamp := fun _ => by simp [encode, operands, maxFrame]

theorem rssiclr : Statement .rssiclr := fun _ => by simp [encode, operands, maxFrame]

end Sys2Proof.Laws.FrameLength
end

