-- ==== Sys2Proof/Tests/Slice0.lean ====
section
/-! SUPPORT. Tests: what `WellFormed` refuses; the frames of every operation, written out from rule R107 of
spec/30_encoding.md; one step of each operation against a vector of spec/95_test_vectors.md (its id in the name or the
comment); and, for every statement with hypotheses, states that meet them (`witness_…`, one for each clause). -/

namespace Sys2Proof.Tests

open Sys2Proof.Machine

/-! ## WellFormed: a counted operand longer than its length byte can say -/

theorem test_wellFormed_refuses_wrreg : (Instr.wrreg 0#16 (List.replicate 256 0#8)).wellFormed = false := by
  rw [Bool.eq_false_iff, Ne, wellFormed_wrreg, List.length_replicate]; decide

theorem test_wellFormed_refuses_unpack : (Instr.unpack 0#3 (List.replicate 256 0#8)).wellFormed = false := by
  rw [Bool.eq_false_iff, Ne, wellFormed_unpack, List.length_replicate]; decide

theorem test_wellFormed_refuses_pack : (Instr.pack 0#3 (List.replicate 256 0#16)).wellFormed = false := by
  rw [Bool.eq_false_iff, Ne, wellFormed_pack, List.length_replicate]; decide

theorem test_wellFormed_refuses_txstart : (Instr.txstart (List.replicate 256 0#8)).wellFormed = false := by
  rw [Bool.eq_false_iff, Ne, wellFormed_txstart, List.length_replicate]; decide

theorem test_wellFormed_refuses_send : (Instr.send (List.replicate 256 0#8)).wellFormed = false := by
  rw [Bool.eq_false_iff, Ne, wellFormed_send, List.length_replicate]; decide

theorem test_wellFormed_accepts_longest : (Instr.send (List.replicate 255 0#8)).wellFormed = true := by
  rw [wellFormed_send, List.length_replicate]; decide

/-! ## Decoding: the frame of every operation (rules R106, R107) -/

/-- The operation the bytes are the frame of, nothing following. -/
def reads (bytes : List Byte) : Option Instr :=
  match decode bytes with
  | .ok (i, []) => some i
  | .ok (_, _ :: _) => none
  | .error _ => none

theorem test_decode_nop : reads [0x00#8] = some .nop := by decide

/-- Rule R176's worked example: `WRREG magic, 0xDEADBEEF`. -/
theorem test_decode_wrreg : reads [0x01#8, 0x03#8, 0x00#8, 0x04#8, 0xEF#8, 0xBE#8, 0xAD#8, 0xDE#8] =
    some (.wrreg 0x0003#16 [0xEF#8, 0xBE#8, 0xAD#8, 0xDE#8]) := by decide

/-- A register number above 0xFF: `WRREG hop[2], 42`. -/
theorem test_decode_wrreg_hop : reads [0x01#8, 0x02#8, 0x01#8, 0x01#8, 0x2A#8] = some (.wrreg 0x0102#16 [42#8]) := by
  decide

/-- Rule R177's worked example: `RDREG mode`. -/
theorem test_decode_rdreg : reads [0x02#8, 0x10#8, 0x00#8] = some (.rdreg 0x0010#16) := by decide

theorem test_decode_attach : reads [0x03#8] = some .attach := by decide

theorem test_decode_pktsize : reads [0x10#8, 0x9F#8] = some (.pktsize 0x9F#8) := by decide

/-- V-PC19: bit 3 of the `cfg` byte is ignored. -/
theorem test_decode_unpack : reads [0x11#8, 0x0A#8, 0x02#8, 0x39#8, 0x30#8] = some (.unpack 2#3 [0x39#8, 0x30#8]) := by
  decide

theorem test_decode_pack : reads [0x12#8, 0x01#8, 0x02#8, 0x00#8, 0x04#8, 0xF3#8, 0x03#8] =
    some (.pack 1#3 [1024#16, 1011#16]) := by decide

theorem test_decode_interval : reads [0x20#8] = some .interval := by decide

theorem test_decode_hop_family : reads [0x30#8] = some .hopcnt ∧ reads [0x31#8] = some .advance ∧
    reads [0x32#8, 0x02#8] = some (.progch 2#8) := by decide

theorem test_decode_link_commands : reads [0x40#8] = some .setup ∧ reads [0x41#8] = some .rxenter ∧
    reads [0x44#8] = some .poll ∧ reads [0x45#8] = some .endsess := by decide

theorem test_decode_txstart : reads [0x42#8, 0x02#8, 0x42#8, 0x62#8] = some (.txstart [0x42#8, 0x62#8]) := by decide

/-- The bind acknowledgment of program P5: `SEND 1, [42]`. -/
theorem test_decode_send : reads [0x43#8, 0x01#8, 0x42#8] = some (.send [0x42#8]) := by decide

theorem test_decode_events : reads [0x80#8] = some .irq ∧ reads [0x81#8] = some .reset := by decide

theorem test_decode_phases : reads [0x90#8] = some .p1Health ∧ reads [0x91#8] = some .p2Rxproc ∧
    reads [0x92#8] = some .p3Rssi ∧ reads [0x93#8] = some .p4Loss ∧ reads [0x94#8] = some .p5Hop ∧
    reads [0x95#8] = some .txwait := by decide

theorem test_decode_quality : reads [0xA0#8] = some .qhit ∧ reads [0xA1#8] = some .qmiss ∧
    reads [0xA2#8] = some .qclr ∧ reads [0xA3#8] = some .rssisamp ∧ reads [0xA4#8] = some .rssiclr := by decide

/-- The table's numbering: byte 0 in bits 7:0; the operand bytes the table gives no bits are 0. -/
theorem test_table_words : decodeTableWord 24 0x001002 = some (.rdreg 0x0010#16) ∧
    decodeTableWord 16 0x9F10 = some (.pktsize 0x9F#8) ∧ decodeTableWord 8 0x43 = some (.send []) := by decide

/-! ## States -/

/-- A program's session in TC1: `magic = 0xDEADBEEF`, `flags = 0x02`, `modem_idx = 1`, hop list 3, 17, 42. -/
def loaded : State :=
  { State.reset with
    sp := { SessionParams.zero with
      magic := 0xDEADBEEF#32, flags := 0x02#8, modemIdx := 1#8, hop := [(0, 3#8), (1, 17#8), (2, 42#8)] } }

/-- What the environment supplies in the tests. -/
def supplied : Inputs :=
  { us := [1000000#32], ms := [5000#32], health := [0x01#8], rssi := [100#8],
    pkt := [[0x00#8, 0x00#8, 0xFF#8, 0x80#8, 0x01#8, 0x1B#8, 0xAA#8, 0x55#8, 0xFF#8, 0x00#8, 0xC6#8]],
    afc := [0x0123#16] }

/-- The registers a session starts with (rule R191's worked example), and its transport trace. -/
def inSession : State :=
  { loaded with
    mode := .receiving, hopcount := 3#8, interval := 25000#32, tLast := 1000000#32, tRssi := 1000000#32
    sessActive := true, inputs := supplied, out := progchEvents 0#8 loaded }

/-- The session acquired, the link tracked. -/
def tracking : State := { inSession with acq := true, quality := 1, tLast := 1010000#32 }

/-- A packet waits. -/
def received : State := { inSession with mode := .received, now := 1010000#32 }

/-- A `SEND` waits. -/
def sending : State := { loaded with mode := .transmitting, phase := .txwait, txT0 := 5000#32, inputs := supplied }

/-- The next state of an operation, or the state itself. -/
def after (i : Instr) (s : State) : State :=
  match exec i s with
  | .next t => t
  | .fault _ => s
  | .refused _ => s

/-- The answer of an operation. -/
def answer (i : Instr) (s : State) : Option Output := (after i s).out.getLast?

/-- What an operation puts out. -/
def puts (i : Instr) (s : State) : List Output := (after i s).out.drop s.out.length

/-! ## One step of each operation -/

theorem test_nop : answer .nop loaded = some (.reply .ok []) := by decide

/-- Rule R112's numbers. -/
theorem test_result_bytes : [ResultCode.ok, .refused, .timeout].map ResultCode.code = [0x00#8, 0x01#8, 0x02#8] := by decide

/-- V-H1's list written entry by entry; `magic` low byte first. -/
theorem test_wrreg_magic : (after (.wrreg 0x0003#16 [0xEF#8, 0xBE#8, 0xAD#8, 0xDE#8]) State.reset).sp.magic = 0xDEADBEEF#32 :=
  by decide

theorem test_wrreg_locked : (after (.wrreg 0x0100#16 [9#8]) inSession).refuseCode = 0x04#8 ∧
    (after (.wrreg 0x0100#16 [9#8]) loaded).sp.hop = [(0, 9#8), (1, 17#8), (2, 42#8)] := by decide

theorem test_rdreg_linkflags : answer (.rdreg 0x001C#16) tracking = some (.reply .ok [0x05#8]) := by decide

theorem test_rdreg_no_value : (after (.rdreg 0x0200#16) State.reset).refuseCode = 0x03#8 := by decide

theorem test_attach : (after .attach State.reset).consumerAttached = true ∧
    (after .attach (after .attach State.reset)).refuseCode = 0x0E#8 := by decide

theorem test_endsess : (after .endsess inSession).sessActive = false ∧ (after .endsess inSession).hopcount = 3#8 := by
  decide

/-- V-PC3, V-PC4. -/
theorem test_pktsize : answer (.pktsize 0x82#8) loaded = some (.reply .ok [11#8]) ∧
    answer (.pktsize 0x9F#8) loaded = some (.reply .ok [0#8]) := by decide

/-- V-PC5. -/
theorem test_unpack_fields : (after (.unpack 0#3 [0x39#8, 0x30#8, 0xFF#8, 0x00#8, 0x27#8]) loaded).frame =
    [825#16, 304#16, 767#16, 0#16] := by decide

/-- V-PC8. -/
theorem test_unpack_aux : (after (.unpack 1#3 [0x12#8, 0x34#8, 0x56#8, 0x78#8, 0xE4#8, 0x1B#8]) loaded).frame =
    [18#16, 308#16, 598#16, 888#16, 12#16, 345#16, 678#16, 1011#16] := by decide

/-- V-PC20. -/
theorem test_pack : answer (.pack 1#3 [0#16, 1023#16, 512#16, 257#16, 12#16, 345#16, 678#16, 1011#16]) loaded =
    some (.reply .ok [6#8, 0x00#8, 0xFF#8, 0x00#8, 0x01#8, 0x6C#8, 0x1B#8]) := by decide

/-- V-PC21's quantiser edges. -/
theorem test_pack_quantiser : answer (.pack 3#3 [1000#16, 2#16, 3#16, 4#16, 5#16, 6#16, 7#16, 8#16, 100#16, 178#16, 179#16,
    511#16]) loaded = some (.reply .ok [11#8, 0xE8#8, 2#8, 3#8, 4#8, 3#8, 5#8, 6#8, 7#8, 8#8, 0#8, 5#8]) := by decide

/-- V-I1. -/
theorem test_interval : (after .interval loaded).interval = 25000#32 ∧
    answer .interval loaded = some (.reply .ok [0xA8#8, 0x61#8, 0#8, 0#8]) := by decide

/-- V-I6. -/
theorem test_interval_diversity_telemetry :
    (after .interval { loaded with sp := { loaded.sp with flags := 0x8A#8 } }).interval = 55000#32 := by decide

/-- V-H1, V-H4. -/
theorem test_hopcnt : answer .hopcnt loaded = some (.reply .ok [3#8]) ∧
    answer .hopcnt { loaded with sp := { loaded.sp with hop := [(0, 3#8), (2, 5#8)] } } = some (.reply .ok [1#8]) := by
  decide

/-- V-H6, V-H10. -/
theorem test_advance : (after .advance { inSession with idx := 2#8 }).idx = 0#8 ∧
    (after .advance { inSession with idx := 1#8, hopcount := 2#8 }).idx = 0#8 := by decide

/-- V-H13. -/
theorem test_progch : puts (.progch 1#8) loaded = [.transport .claim, .transport (.regWrite 0x79 17#8),
    .transport (.regWrite 0x3D 0xEE#8), .transport (.regWrite 0x42 0xEE#8), .transport .release, .reply .ok []] := by
  decide

/-- V-H20. -/
theorem test_progch_refused : (after (.progch 8#8) loaded).refuseCode = 0x09#8 := by decide

/-- Rule R191's worked example. -/
theorem test_setup : (after .setup { loaded with inputs := supplied }).hopcount = 3#8 ∧
    (after .setup { loaded with inputs := supplied }).interval = 25000#32 ∧
    (after .setup { loaded with inputs := supplied }).tLast = 1000000#32 ∧
    (after .setup { loaded with inputs := supplied }).mode = .receiving := by decide

theorem test_setup_empty : (after .setup State.reset).refuseCode = 0x0A#8 := by decide

/-- V-M6. -/
theorem test_rxenter : (after .rxenter loaded).mode = .receiving ∧
    puts .rxenter loaded = [.transport (.act .rxfifoReset), .transport (.act .irqClear),
      .transport (.act .rxirqEn), .reply .ok []] := by decide

/-- V-M12. -/
theorem test_txstart : (after (.txstart [0x42#8]) inSession).txLen = 1#8 ∧
    puts (.txstart [0x42#8]) inSession = [.transport (.act (.txfifoWrite [0x42#8])), .transport (.act .txOn),
      .reply .ok []] := by decide

/-- V-M13, V-M17. -/
theorem test_txstart_refused : (after (.txstart [0x42#8]) received).refuseCode = 0x0C#8 ∧
    (after (.txstart (List.replicate 22 0#8)) loaded).refuseCode = 0x08#8 := by decide

theorem test_send : (after (.send [0x42#8]) inSession).txT0 = 5000#32 ∧
    (after (.send [0x42#8]) inSession).phase = .txwait := by decide

/-- Rule R200's worked example, the miss at 1036001. -/
theorem test_poll_miss : (after .poll { tracking with inputs := { supplied with us := [1036001#32] } }).lost = 1#8 ∧
    (after .poll { tracking with inputs := { supplied with us := [1036001#32] } }).tLast = 1035000#32 ∧
    (after .poll { tracking with inputs := { supplied with us := [1036001#32] } }).idx = 1#8 := by decide

theorem test_poll_refused : (after .poll loaded).refuseCode = 0x05#8 := by decide

/-- V-M1, V-M3. -/
theorem test_irq : (after .irq inSession).mode = .received ∧ (after .irq loaded).mode = .idle := by decide

theorem test_reset : (after .reset tracking).sessActive = false ∧ (after .reset tracking).sp.hop = [] ∧
    (after .reset tracking).out = tracking.out := by decide

/-- Rule R197's worked example. -/
theorem test_p1Health_hang : (after .p1Health { inSession with inputs := { supplied with health := [0#8] } }).hang = true ∧
    (puts .p1Health { inSession with inputs := { supplied with health := [0#8] } })[3]? =
      some (.transport (.regWrite 0x79 3#8)) := by decide

/-- Rule R198's worked example. -/
theorem test_p2Rxproc : (after .p2Rxproc received).frame =
    [768#16, 767#16, 384#16, 1#16, 682#16, 341#16, 255#16, 768#16] ∧ (after .p2Rxproc received).quality = 1 ∧
    (after .p2Rxproc received).tLast = 1010000#32 ∧ (after .p2Rxproc received).rxLen = 11#8 := by decide

/-- V-D1, V-D2. -/
theorem test_p3Rssi : (after .p3Rssi { tracking with now := 1033499#32 }).rssiCnt = 0#8 ∧
    (after .p3Rssi { tracking with now := 1033500#32 }).rssiCnt = 1#8 ∧
    (after .p3Rssi { tracking with now := 1033500#32 }).tRssi = 1010000#32 := by decide

/-- The resync of program P2: hop and baseline, but not the accumulator. -/
theorem test_p4Loss_resync :
    let s := { tracking with lost := 3#8, quality := 8, rssiSmooth := 66#8, rssiSum := 190#16, rssiCnt := 2#8,
                             now := 1085001#32 }
    (after .p4Loss s).quality = 0 ∧ (after .p4Loss s).rssiSmooth = 0#8 ∧ (after .p4Loss s).rssiSum = 190#16 ∧
      (after .p4Loss s).hopnow = true := by decide

/-- Rule R201's worked example. -/
theorem test_p5Hop : (after .p5Hop { inSession with hopnow := true }).idx = 1#8 ∧
    (after .p5Hop { inSession with hopnow := true }).hopnow = false := by decide

/-- Completion wins a tie; 99 ms are not enough. -/
theorem test_txwait : (after .txwait { sending with mode := .transmitted, inputs := { supplied with ms := [5100#32] } }).txRet =
      some .sent ∧
    (after .txwait { sending with inputs := { supplied with ms := [5099#32] } }).txRet = none ∧
    (after .txwait { sending with inputs := { supplied with ms := [5100#32] } }).txto = true := by decide

/-- V-Q2, V-Q5, V-Q6. -/
theorem test_quality : (after .qhit { loaded with quality := 0x8001 }).quality = 0x0003 ∧
    (after .qmiss { loaded with quality := 0x8000 }).quality = 0 ∧
    (after .qclr { loaded with quality := 0xBEEF }).quality = 0 := by decide

/-- V-R4's ninth sample. -/
theorem test_rssisamp :
    let s := { loaded with rssiSmooth := 57#8, rssiSum := 748#16, rssiCnt := 8#8, inputs := { supplied with rssi := [98#8] } }
    (after .rssisamp s).rssiSmooth = 66#8 ∧ (after .rssisamp s).rssiSum = 0#16 ∧ (after .rssisamp s).rssiCnt = 0#8 := by
  decide

theorem test_rssiclr : (after .rssiclr { loaded with rssiSmooth := 66#8, rssiSum := 190#16 }).rssiSmooth = 0#8 ∧
    (after .rssiclr { loaded with rssiSmooth := 66#8, rssiSum := 190#16 }).rssiSum = 190#16 := by decide

/-! ## The hypotheses of the statements can be met

One theorem for each statement that has hypotheses: concrete states and operands that meet all of them, one for each
clause, at a boundary of its range where it has one. -/

/-- Whether an outcome is a next state. -/
def isNext (o : Host.Outcome State Fault Refusal) : Bool :=
  match o with
  | .next _ => true
  | .fault _ => false
  | .refused _ => false

/-- Something is presented. -/
def presenting (p : Presented) (s : State) : State := { s with agenda := [p] }

theorem witness_DecodeInvertsEncode : (Instr.wrreg 0x0107#16 [7#8]).wellFormed = true ∧
    (Instr.pack 7#3 (List.replicate 255 0#16)).wellFormed = true :=
  ⟨by decide, by rw [wellFormed_pack, List.length_replicate]; decide⟩

theorem witness_FrameIsDelimitedByCodeAndLength : decode [0x43#8, 0x00#8, 0x44#8] = .ok (.send [], [0x44#8]) ∧
    decode [0x12#8, 0xFF#8, 0x01#8, 0x34#8, 0x12#8] = .ok (.pack 7#3 [0x1234#16], []) := by decide

theorem witness_StepRunsThePresentedCommand :
    let s := presenting (.cmd [0x44#8, 0x00#8]) inSession
    s.cfg.valid = true ∧ s.phase = .idle ∧ s.agenda = .cmd [0x44#8, 0x00#8] :: [] ∧
      decode [0x44#8, 0x00#8] = .ok (.poll, [0x00#8]) ∧ opClass .poll = .cmd := by decide

theorem witness_StepServesPinsAndMicroOperations : State.reset.cfg.valid = true ∧
    (presenting .irq sending).agenda = .irq :: [] ∧ (presenting .reset sending).agenda = .reset :: [] ∧
    opClass .rssiclr = .uop ∧ (presenting (.uop 0xA4#8) loaded).agenda = .uop (opcode .rssiclr) :: [] := by decide

theorem witness_StepRunsTheSequencerOnItsOwn : loaded.cfg.valid = true ∧ loaded.agenda = [] ∧
    phaseUop loaded.phase = none ∧ (presenting .tick sending).agenda.head? = some .tick ∧
    phaseUop (presenting .tick sending).phase = some .txwait ∧ isNext (exec .txwait sending) = true := by decide

theorem witness_CommandDecodeRefuses :
    sending.gaps = [] ∧ loaded.gaps = [] ∧ sending.cfg.valid = true ∧ loaded.cfg.valid = true ∧
    (presenting (.cmd [0x00#8]) sending).phase ≠ .idle ∧ (presenting (.cmd [0x46#8]) loaded).phase = .idle ∧
    (∀ i, opClass i = .cmd → opcode i ≠ 0x46#8) ∧ (∀ i, opClass i = .cmd → opcode i ≠ 0x80#8) ∧
    ∀ i, opClass i = .cmd → opcode i ≠ 0x90#8 := by
  refine ⟨by decide, by decide, by decide, by decide, by decide, by decide, fun i => ?_, fun i => ?_, fun i => ?_⟩ <;> cases i <;> simp [opClass, opcode]

theorem witness_NothingElseStopsTheMachine :
    isNext (step (presenting (.cmd [0x43#8, 0x02#8, 0x42#8]) loaded)) = false ∧
    (presenting (.cmd [0x43#8, 0x02#8, 0x42#8]) loaded).cfg.valid = true ∧
    isNext (step { loaded with cfg := { Config.tc1 with qw := 0 } }) = false := by decide

theorem witness_WrregWritesItsRegister : loaded.gaps = [] ∧ memWf .hop loaded.sp.hop = true ∧
    regOf loaded.cfg (0x0107#16).toNat = some (.hop 7) ∧ regWritable (.hop 7) = true ∧
    regOf loaded.cfg (0x0003#16).toNat = some .magic ∧ regWritable .magic = true ∧ loaded.sessActive = false ∧
    [0#8].length = byteCount (regWidth loaded.cfg (.hop 7)) ∧
    [1#8, 2#8, 3#8, 4#8].length = byteCount (regWidth loaded.cfg .magic) := by decide

theorem witness_HostPortRefusals : loaded.gaps = [] ∧ inSession.gaps = [] ∧ regOf loaded.cfg (0x0108#16).toNat = none ∧
    regOf loaded.cfg (0x0010#16).toNat = some .mode ∧ regWritable .mode = false ∧
    regOf inSession.cfg (0x0100#16).toNat = some (.hop 0) ∧ regWritable (.hop 0) = true ∧ inSession.sessActive = true ∧
    loaded.sessActive = false ∧ [1#8, 2#8].length ≠ byteCount (regWidth loaded.cfg (.hop 0)) ∧
    regOf loaded.cfg (0x020F#16).toNat = some (.frame 15) ∧ regValue loaded (.frame 15) = none ∧
    { loaded with consumerAttached := true }.consumerAttached = true := by decide

theorem witness_RdregReturnsTheRegister : inSession.gaps = [] ∧ regOf inSession.cfg (0x0015#16).toNat = some .quality ∧
    regValue { inSession with quality := 0xFFFF } .quality = some 0xFFFF ∧ 0xFFFF < 2 ^ inSession.cfg.qw := by decide

/-- The register map: the last element of each array, the largest `rxbuf` element that the clause speaks of, and an unassigned
number beside an array. -/
theorem witness_RdregReturnsTheRegister_map : inSession.cfg.valid = true ∧ 7 < inSession.cfg.maxHops ∧
    20 < inSession.cfg.rxbufLen ∧ { Config.tc1 with rxbufLen := 256 }.valid = true ∧
    255 < { Config.tc1 with rxbufLen := 256 }.rxbufLen ∧ 20 < inSession.cfg.txbufLen ∧
    (∀ row ∈ registerMap inSession, row.number ≠ 0x0108) ∧ ¬ 0x0108 < 0x0100 + inSession.cfg.maxHops := by decide

theorem witness_AttachEndSessionAndNop : loaded.gaps = [] ∧ loaded.consumerAttached = false := by decide

theorem witness_PktsizeReturnsTheTableEntry : loaded.cfg.valid = true ∧ loaded.gaps = [] := by decide

/-- An even and an odd configuration, the odd one with 16 channels. -/
theorem witness_UnpackWritesTheChannels : loaded.cfg.valid = true ∧ loaded.gaps = [] ∧ 0#3 ≠ loaded.cfg.reservedCfg ∧
    (List.replicate 5 0xFF#8).length = 5 * loaded.cfg.ngroupsOf 0#3 + (0#3).toNat % 2 ∧ 5#3 ≠ loaded.cfg.reservedCfg ∧
    (List.replicate 16 0xFF#8).length = 5 * loaded.cfg.ngroupsOf 5#3 + (5#3).toNat % 2 ∧ (5#3).toNat % 2 = 1 := by decide

/-- Channels at both ends of the 10-bit range; an auxiliary value above it. -/
theorem witness_PackReturnsThePayload :
    let ch := [0#16, 1023#16, 512#16, 257#16, 65535#16, 345#16, 678#16, 1011#16]
    loaded.cfg.valid = true ∧ loaded.gaps = [] ∧ 1#3 ≠ loaded.cfg.reservedCfg ∧
      ch.length = 4 * loaded.cfg.ngroupsOf 1#3 + 4 * ((1#3).toNat % 2) ∧
      (∀ k < 4 * loaded.cfg.ngroupsOf 1#3, (ch.getD k 0#16).toNat ≤ 1023) := by decide

theorem witness_CodecRefusals : loaded.gaps = [] ∧ 7#3 = loaded.cfg.reservedCfg ∧ 1#3 ≠ loaded.cfg.reservedCfg ∧
    (List.replicate 5 0#8).length ≠ 5 * loaded.cfg.ngroupsOf 1#3 + (1#3).toNat % 2 ∧
    (List.replicate 7 0#16).length ≠ 4 * loaded.cfg.ngroupsOf 1#3 + 4 * ((1#3).toNat % 2) ∧
    [0#16, 0#16, 0#16, 1024#16, 0#16, 0#16, 0#16, 0#16].length = 4 * loaded.cfg.ngroupsOf 1#3 + 4 * ((1#3).toNat % 2) ∧
    ∃ k < 4 * loaded.cfg.ngroupsOf 1#3,
      1023 < ([0#16, 0#16, 0#16, 1024#16, 0#16, 0#16, 0#16, 0#16].getD k 0#16).toNat :=
  ⟨by decide, by decide, by decide, by decide, by decide, by decide, 3, by decide, by decide⟩

theorem witness_CodecLaws : Config.tc1.valid = true ∧ 1#3 ≠ Config.tc1.reservedCfg ∧
    [0#16, 1023#16, 512#16, 257#16, 12#16, 345#16, 678#16, 65535#16].length = Config.tc1.channelCount 1#3 ∧
    (∀ k < 4 * Config.tc1.ngroupsOf 1#3,
      ([0#16, 1023#16, 512#16, 257#16, 12#16, 345#16, 678#16, 65535#16].getD k 0#16).toNat ≤ 1023) ∧
    (1#3).toNat % 2 = 1 ∧ (List.replicate 6 0xFF#8).length = 5 * Config.tc1.ngroupsOf 1#3 + (1#3).toNat % 2 := by decide

theorem witness_IntervalFollowsTheFormula : loaded.gaps = [] ∧ loaded.sp.modemIdx.toNat < loaded.cfg.nprofiles ∧
    25000 = intervalMicros (loaded.cfg.pktsizeOf (cfgOf loaded.sp.flags)) (divEn loaded.cfg loaded.sp.flags)
      (telEn loaded.cfg loaded.sp.flags) loaded.cfg.telemetryPacketsize
      (loaded.cfg.bitrate.getD loaded.sp.modemIdx.toNat 0) ∧ 25000 < 2 ^ 31 := by decide

/-- Rule R142's five cases: a larger packet, a higher bitrate, telemetry, diversity. -/
theorem witness_IntervalProperties :
    let cfg := Config.tc1
    let sp := loaded.sp
    1 ≤ cfg.bitrateOf sp.modemIdx.toNat ∧
      cfg.pktsizeOf (cfgOf sp.flags) ≤ cfg.pktsizeOf (cfgOf 0x03#8) ∧ divEn cfg sp.flags = divEn cfg 0x03#8 ∧
      telEn cfg sp.flags = telEn cfg 0x03#8 ∧
      cfg.bitrateOf sp.modemIdx.toNat ≤ cfg.bitrateOf (4#8).toNat ∧
      telEn cfg sp.flags = false ∧ telEn cfg 0x0A#8 = true ∧ divEn cfg 0x0A#8 = divEn cfg sp.flags ∧
      divEn cfg sp.flags = false ∧ divEn cfg 0x82#8 = true ∧ telEn cfg 0x82#8 = telEn cfg sp.flags ∧
      cfg.pktsizeOf (cfgOf sp.flags) = cfg.pktsizeOf (cfgOf 0x0A#8) ∧
      cfg.pktsizeOf (cfgOf sp.flags) = cfg.pktsizeOf (cfgOf 0x82#8) := by decide

/-- V-I17; V-I19, the configuration TC1-slow; V-H20. -/
theorem witness_TimingAndHopRefusals :
    let slow := { loaded with
      cfg := { Config.tc1 with bitrate := [1, 9600, 19200, 57600, 125000], telemetryPacketsize := 255 }
      sp := { loaded.sp with flags := 0x9A#8, modemIdx := 0#8 } }
    loaded.gaps = [] ∧ slow.gaps = [] ∧ loaded.cfg.nprofiles ≤ { loaded.sp with modemIdx := 5#8 }.modemIdx.toNat ∧
      slow.sp.modemIdx.toNat < slow.cfg.nprofiles ∧ 2 ^ 31 ≤ intervalOf slow.cfg slow.sp ∧
      loaded.cfg.maxHops ≤ (8#8).toNat := by decide

theorem witness_HopcntCountsThePrefix : loaded.cfg.valid = true ∧ loaded.gaps = [] := by decide

/-- The three ways to wrap (V-H7, V-H9, V-H10), and an index that does not. -/
theorem witness_AdvanceStepsTheIndex : inSession.gaps = [] ∧ (7#8).toNat + 1 = inSession.cfg.maxHops ∧
    hopAt inSession.sp.hop ((2#8).toNat + 1) = 0#8 ∧ (1#8).toNat + 1 = (2#8).toNat ∧
    inSession.idx.toNat + 1 ≠ inSession.hopcount.toNat ∧ inSession.idx.toNat + 1 ≠ inSession.cfg.maxHops ∧
    hopAt inSession.sp.hop (inSession.idx.toNat + 1) ≠ 0#8 := by decide

/-- A full list and a list of one entry. -/
theorem witness_AdvanceCyclesThroughTheHopList : Config.tc1.valid = true ∧
    (8#8).toNat = hopCount (memBlock 0 [1#8, 2#8, 3#8, 4#8, 5#8, 6#8, 7#8, 8#8]) Config.tc1.maxHops ∧ 1 ≤ (8#8).toNat ∧
    (1#8).toNat = hopCount [(0, 9#8)] Config.tc1.maxHops ∧ (0#8).toNat < (1#8).toNat := by decide

theorem witness_ProgchWritesOneGroup : loaded.gaps = [] ∧ (7#8).toNat < loaded.cfg.maxHops := by decide

/-- V-H19. -/
theorem witness_HeaderBytesAreDistinct : 0#8 ≠ 255#8 ∧ (0x11223344#32).toNat % 256 = (0x99AABB44#32).toNat % 256 := by
  decide

theorem witness_SetupStartsTheSession : loaded.cfg.valid = true ∧ loaded.gaps = [] ∧
    cfgOf loaded.sp.flags ≠ loaded.cfg.reservedCfg ∧ loaded.sp.modemIdx.toNat < loaded.cfg.nprofiles ∧
    hopAt loaded.sp.hop 0 ≠ 0#8 ∧ intervalOf loaded.cfg loaded.sp < 2 ^ 31 := by decide

theorem witness_LinkRefusals :
    let slow := { loaded with
      cfg := { Config.tc1 with bitrate := [1, 9600, 19200, 57600, 125000], telemetryPacketsize := 255 }
      sp := { loaded.sp with flags := 0x9A#8, modemIdx := 0#8 } }
    loaded.gaps = [] ∧ slow.gaps = [] ∧ received.gaps = [] ∧ State.reset.gaps = [] ∧
      cfgOf { loaded.sp with flags := 0xFF#8 }.flags = loaded.cfg.reservedCfg ∧
      loaded.cfg.nprofiles ≤ { loaded.sp with modemIdx := 5#8 }.modemIdx.toNat ∧
      hopAt State.reset.sp.hop 0 = 0#8 ∧ State.reset.sp.modemIdx.toNat < State.reset.cfg.nprofiles ∧
      cfgOf State.reset.sp.flags ≠ State.reset.cfg.reservedCfg ∧
      slow.sp.modemIdx.toNat < slow.cfg.nprofiles ∧ hopAt slow.sp.hop 0 ≠ 0#8 ∧ 2 ^ 31 ≤ intervalOf slow.cfg slow.sp ∧
      cfgOf slow.sp.flags ≠ slow.cfg.reservedCfg ∧
      received.mode ≠ .idle ∧ received.mode ≠ .receiving ∧ received.cfg.txFromReceived = false ∧
      loaded.mode = .idle ∧ ([] : List Byte).length = 0 ∧ loaded.cfg.txbufLen < (List.replicate 22 0#8).length ∧
      loaded.sessActive = false := by decide

theorem witness_RxenterEntersReceive : sending.gaps = [] := by decide

/-- The shortest and the longest payload; the third mode, where the configuration admits it; an `IRQ` before `A_TX_ON`. -/
theorem witness_TxstartStartsATransmission :
    { inSession with gaps := [[], [], [], [.irq]] }.gaps = [[], [], [], [.irq]] ∧ inSession.gaps = [] ∧ inSession.mode = .receiving ∧ 1 ≤ [0x42#8].length ∧
    [0x42#8].length ≤ inSession.cfg.txbufLen ∧ loaded.mode = .idle ∧
    (List.replicate 21 0#8).length ≤ loaded.cfg.txbufLen ∧
    { received with cfg := { Config.tc1 with txFromReceived := true } }.cfg.txFromReceived = true ∧
    received.mode = .received := by decide

theorem witness_SendStartsItsWait : inSession.gaps = [] ∧ inSession.mode = .receiving ∧ 1 ≤ [0x42#8].length ∧
    [0x42#8].length ≤ inSession.cfg.txbufLen := by decide

/-- At 100 ms and at 99 ms. -/
theorem witness_TxwaitDecides : sending.gaps = [] ∧ { sending with mode := .transmitted }.mode = .transmitted ∧
    sending.mode ≠ .transmitted ∧
    100 ≤ (msInput { sending with inputs := { supplied with ms := [5100#32] } } - sending.txT0).toNat ∧
    (msInput { sending with inputs := { supplied with ms := [5099#32] } } - sending.txT0).toNat < 100 := by decide

theorem witness_SendEndsWithItsWait : sending.cfg.valid = true ∧ sending.gaps = [] ∧ sending.agenda = [] ∧
    sending.phase = .txwait ∧ { sending with mode := .transmitted }.mode = .transmitted ∧ sending.mode ≠ .transmitted ∧
    100 ≤ (msInput { sending with inputs := { supplied with ms := [5100#32] } } - sending.txT0).toNat ∧
    (msInput { sending with inputs := { supplied with ms := [5099#32] } } - sending.txT0).toNat < 100 := by decide

theorem witness_IrqCompletesThePendingOperation : inSession.mode = .receiving ∧ sending.mode = .transmitting ∧
    received.mode ≠ .receiving ∧ received.mode ≠ .transmitting := by decide

theorem witness_PollRunsTheFivePhases : inSession.gaps = [] ∧ inSession.sessActive = true := by decide

theorem witness_HealthCheckRecovers : inSession.gaps = [] ∧ (7#8).toNat < inSession.cfg.maxHops ∧
    healthInput inSession ≠ 0#8 ∧ healthInput { inSession with inputs := { supplied with health := [0#8] } } = 0#8 := by
  decide

/-- No packet; a packet of channel data; one of another type. -/
theorem witness_ReceptionOfAPacket : received.cfg.valid = true ∧ received.gaps = [] ∧
    cfgOf received.sp.flags ≠ received.cfg.reservedCfg ∧ inSession.mode ≠ .received ∧ received.mode = .received ∧
    (packetIn received).head? = some 0x00#8 ∧ 0x00#8 &&& received.cfg.typeMask = received.cfg.typeChannel ∧
    (packetIn { received with inputs := { supplied with pkt := [[0x02#8]] } }).head? = some 0x02#8 ∧
    0x02#8 &&& received.cfg.typeMask ≠ received.cfg.typeChannel := by decide

/-- V-D1 to V-D3: before the sampling point, at it, and at it again. -/
theorem witness_RssiSamplingPoint : tracking.gaps = [] ∧
    (tracking.lost.toNat < 2 ∧
      (tracking.interval.toNat : Int) - 1500 ≤ ((1033500#32 - tracking.tLast).toNat : Int) ∧
      (tracking.cfg.rssiOnce = false ∨ tracking.tRssi ≠ tracking.tLast)) ∧
    ¬ (tracking.interval.toNat : Int) - 1500 ≤ ((1033499#32 - tracking.tLast).toNat : Int) ∧
    ¬ (tracking.cfg.rssiOnce = false ∨ 1010000#32 ≠ tracking.tLast) := by decide

/-- One microsecond past each deadline, and at it. -/
theorem witness_LossPolicy : tracking.acq = true ∧ tracking.lost.toNat < tracking.hopcount.toNat ∧
    tracking.interval.toNat + 1000 < (1036001#32 - tracking.tLast).toNat ∧
    ¬ tracking.interval.toNat + 1000 < (1036000#32 - tracking.tLast).toNat ∧
    { tracking with lost := 3#8 }.lost = tracking.hopcount ∧
    tracking.interval.toNat * tracking.hopcount.toNat < (1085001#32 - tracking.tLast).toNat ∧
    ¬ tracking.interval.toNat * tracking.hopcount.toNat < (1085000#32 - tracking.tLast).toNat ∧
    inSession.acq = false ∧ inSession.interval.toNat * inSession.hopcount.toNat < (1075001#32 - inSession.tLast).toNat := by
  decide

theorem witness_HopPhase : inSession.cfg.valid = true ∧ inSession.gaps = [] ∧ inSession.idx.toNat < inSession.cfg.maxHops ∧
    inSession.hopnow = false ∧ { inSession with hopnow := true }.hopnow = true := by decide

/-- The invariants hold in the session's first state. -/
theorem inSession_linkInv : LinkInv inSession where
  agenda := by decide
  phase := .inl rfl
  hopnow := rfl
  mode := by decide
  idx_lt := by decide
  hopcount_le := by decide
  session := fun _ => {
    cfg_ok := by decide
    profile_ok := by decide
    hopcount_cached := by decide
    hopcount_pos := by decide
    idx_lt := by decide
    hop_ne := by decide
    lost_le := by decide
    interval_cached := by decide
    interval_whole := by decide
    interval_low := by decide
    interval_high := by decide }
  rssi_cnt := by decide
  rssi_sum := by decide
  not_acq := fun _ => by decide
  quality_lt := by decide

/-- The invariants hold where a packet waits. -/
theorem received_linkInv : LinkInv received where
  agenda := by decide
  phase := .inl rfl
  hopnow := rfl
  mode := by decide
  idx_lt := by decide
  hopcount_le := by decide
  session := fun h =>
    let i := inSession_linkInv.session h
    { cfg_ok := i.cfg_ok, profile_ok := i.profile_ok, hopcount_cached := i.hopcount_cached
      hopcount_pos := i.hopcount_pos, idx_lt := i.idx_lt, hop_ne := i.hop_ne, lost_le := i.lost_le
      interval_cached := i.interval_cached, interval_whole := i.interval_whole, interval_low := i.interval_low
      interval_high := i.interval_high }
  rssi_cnt := by decide
  rssi_sum := by decide
  not_acq := fun _ => by decide
  quality_lt := by decide

theorem witness_ReceiveBeatsTheDeadlines : received.cfg.valid = true ∧ LinkInv received ∧ received.gaps = [] ∧
    received.sessActive = true ∧ received.mode = .received ∧ healthInput (tookUs received) ≠ 0#8 :=
  ⟨by decide, received_linkInv, by decide, by decide, by decide, by decide⟩

/-- An `IRQ` and a command inside the `POLL`. -/
theorem witness_PollLeavesTheSessionAlone :
    let s := { inSession with gaps := [[.irq], [.cmd [0x44#8]]] }
    isNext (exec .poll s) = true ∧ noResetInside s = true := by decide

theorem witness_WritesOfMode : received.gaps = [] ∧ isNext (exec .poll received) = true := by decide

theorem witness_SetupAndPollTuneTheTransceiver_setup :
    let s := { loaded with gaps := [[.irq]], inputs := supplied }
    s.cfg.valid = true ∧ setupCheck s = none ∧ noResetInside s = true ∧ isNext (exec .setup s) = true := by decide

theorem inSession_tuned : Tuned inSession where
  chsel := by decide
  txhdr := by decide
  rxhdr := by decide

theorem witness_SetupAndPollTuneTheTransceiver_poll : inSession.cfg.valid = true ∧ LinkInv inSession ∧ Tuned inSession ∧
    noResetInside inSession = true ∧ isNext (exec .poll inSession) = true :=
  ⟨by decide, inSession_linkInv, inSession_tuned, by decide, by decide⟩

/-- A `POLL` is presented that hops, its transceiver hung. -/
theorem witness_StepKeepsTheTransceiverTuned :
    let s := { inSession with
      agenda := [.cmd [0x44#8]], inputs := { supplied with us := [1075001#32], health := [0#8] } }
    LinkInv s ∧ (s.sessActive = true → Tuned s) ∧
      (∀ bytes r, s.agenda = .cmd bytes :: r → bytes.head? ≠ some 0x31#8 ∧ bytes.head? ≠ some 0x32#8) ∧
      isNext (step s) = true ∧ (after .poll s).sessActive = true ∧ (after .poll s).idx = 1#8 :=
  have h := inSession_linkInv
  ⟨⟨by decide, h.phase, h.hopnow, h.mode, h.idx_lt, h.hopcount_le, fun hs => ⟨(h.session hs).1, (h.session hs).2,
      (h.session hs).3, (h.session hs).4, (h.session hs).5, (h.session hs).6, (h.session hs).7, (h.session hs).8,
      (h.session hs).9, (h.session hs).10, (h.session hs).11⟩, h.rssi_cnt, h.rssi_sum, h.not_acq, h.quality_lt⟩,
    fun _ => ⟨inSession_tuned.chsel, inSession_tuned.txhdr, inSession_tuned.rxhdr⟩,
    fun bytes r he => by simp at he; simp [← he.1],
    by decide, by decide, by decide⟩

theorem witness_QualityBitsAreOutcomes : 1 < [true, false].length ∧ 1 < 2 := by decide

/-- The eighth and the ninth sample. -/
theorem witness_RssiFilter : inSession.gaps = [] ∧ (8#8).toNat ≤ 8 ∧ (2040#16).toNat ≤ 255 * (8#8).toNat ∧
    (7#8).toNat < 8 ∧ (1785#16).toNat ≤ 255 * (7#8).toNat := by decide

theorem witness_FilterNeverOvershoots : 255 ≤ 255 := by decide

/-- The instants of an operation, a `RESET` in the fourth of them: an `IRQ` edge and commands presented before it, events after it
in its own instant, and one more instant. -/
def resetInFourth : List (List Gap) :=
  [[], [.irq], [.cmd [0x00#8]]] ++ ([.cmd [0x44#8], .irq] ++ .reset :: [.irq]) :: [[.irq]]

/-- Accepted operations that come to the `RESET` in their fourth instant; a step whose answer, of a waiting `SEND`, comes to it. -/
theorem witness_ResetInsideAbandonsTheOperation_everywhere :
    (∀ g ∈ [[], [Gap.irq], [.cmd [0x00#8]]], .reset ∉ g) ∧ .reset ∉ [Gap.cmd [0x44#8], .irq] ∧
    (∀ i ∈ [Instr.setup, .rxenter, .txstart [0x42#8], .send [0x42#8], .progch 1#8],
      (after i { loaded with inputs := supplied, gaps := resetInFourth }).gaps.length ≤ [[Gap.irq]].length) ∧
    (after .poll { inSession with gaps := resetInFourth }).gaps.length ≤ [[Gap.irq]].length ∧
    (match step { sending with mode := .transmitted, gaps := resetInFourth } with
      | .next t => decide (t.gaps.length ≤ [[Gap.irq]].length)
      | _ => false) = true := by decide

/-- A `RESET` in the middle of an accepted `POLL` (rules R256, R290): of answers only those of the two commands refused before
it, and what was to follow in its instant presented next. -/
theorem test_reset_inside_poll :
    (puts .poll { inSession with gaps := resetInFourth }).filter Output.isAnswer =
      [.reply .refused [], .reply .refused []] ∧
    (after .poll { inSession with gaps := resetInFourth }).mode = .idle ∧
    (after .poll { inSession with gaps := resetInFourth }).sessActive = false ∧
    (after .poll { inSession with gaps := resetInFourth }).agenda = [.irq] := by decide

/-- An accepted command; a `POLL` that its test refuses, the `RESET` before its answer; a command during a `SEND` and an
unassigned code, the `RESET` before their answers. -/
theorem witness_ResetInsideAbandonsTheOperation :
    let g : List Gap := [.irq] ++ .reset :: [.cmd [0x00#8]]
    let p := { loaded with gaps := List.replicate 2 [] ++ g :: [[.irq]] }
    let b := { presenting (.cmd [0x00#8]) sending with gaps := List.replicate 1 [] ++ g :: [] }
    let u := { presenting (.cmd [0x46#8]) loaded with gaps := List.replicate 1 [] ++ g :: [] }
    (∀ e ∈ [Gap.irq], e = .irq) ∧ opClass .rxenter = .cmd ∧ { inSession with gaps := g :: [[.irq]] }.gaps = g :: [[.irq]] ∧
    opClass .poll = .cmd ∧ exec .poll { p with gaps := [] } = .next (refusedWith 0x05#8 { p with gaps := [] }) ∧
    b.cfg.valid = true ∧ b.agenda = [.cmd [0x00#8]] ∧ b.phase ≠ .idle ∧
    u.cfg.valid = true ∧ u.agenda = [.cmd [0x46#8]] ∧ ∀ i, opClass i = .cmd → opcode i ≠ 0x46#8 := by
  refine ⟨by decide, rfl, rfl, rfl, rfl, by decide, by decide, by decide, by decide, by decide, fun i => ?_⟩
  cases i <;> simp [opClass, opcode]

/-- A `RESET` before the answer of a refused `POLL` (rules R256, R290): no answer, and `STATUS` and `REFUSE_CODE` are 0; before the
record of a busy refusal it ends the waiting `SEND` too. -/
theorem test_reset_inside_refusal :
    puts .poll { loaded with gaps := [[], [], [.reset]] } = [] ∧
    (after .poll { loaded with gaps := [[], [], [.reset]] }).refuseCode = 0#8 ∧
    (match step { presenting (.cmd [0x00#8]) sending with gaps := [[.reset]] } with
      | .next t => t.phase == .idle && t.out == sending.out && !t.refused
      | _ => false) = true := by decide

theorem witness_EventsInsideOperations : { inSession with gaps := [[.irq]] }.gaps = [[.irq]] ∧ inSession.mode = .receiving ∧
    inSession.cfg.txFromReceived = false ∧ { loaded with gaps := [[], [], [.irq]] }.gaps = [[], [], [.irq]] ∧
    { inSession with gaps := [[], [.irq]] }.gaps = [[], [.irq]] ∧ 1 ≤ [0x42#8].length ∧
    (List.replicate 21 0#8).length ≤ inSession.cfg.txbufLen ∧
    { loaded with gaps := [[], [.irq]], mode := .receiving }.mode = .receiving ∧ loaded.sessActive = false ∧
    { loaded with gaps := [[.cmd [0x44#8]]] }.gaps = [[.cmd [0x44#8]]] ∧
    { loaded with gaps := [[.cmd []]] }.gaps = [[.cmd []]] := by decide

theorem witness_StepKeepsTheLinkInvariants : LinkInv inSession ∧ isNext (step inSession) = true :=
  ⟨inSession_linkInv, by decide⟩

/-- The link is acquired and no slot is lost: bit 0 of the mask is 1. -/
theorem tracking_qualityInv : QualityInv tracking where
  missed := fun _ _ _ k hk => by simp [tracking, inSession, loaded, State.reset, State.initial] at hk
  received := fun _ _ _ _ => by decide

theorem tracking_linkInv : LinkInv tracking where
  agenda := by decide
  phase := .inl rfl
  hopnow := rfl
  mode := by decide
  idx_lt := by decide
  hopcount_le := by decide
  session := fun h =>
    let i := inSession_linkInv.session h
    { cfg_ok := i.cfg_ok, profile_ok := i.profile_ok, hopcount_cached := i.hopcount_cached
      hopcount_pos := i.hopcount_pos, idx_lt := i.idx_lt, hop_ne := i.hop_ne, lost_le := i.lost_le
      interval_cached := i.interval_cached, interval_whole := i.interval_whole, interval_low := i.interval_low
      interval_high := i.interval_high }
  rssi_cnt := by decide
  rssi_sum := by decide
  not_acq := by decide
  quality_lt := by decide

theorem witness_StepKeepsTheQualityHistory : LinkInv tracking ∧ QualityInv tracking ∧ isNext (step tracking) = true :=
  ⟨tracking_linkInv, tracking_qualityInv, by decide⟩

theorem loaded_heldInv : HeldInv loaded where
  rx := fun i => ⟨fun _ => Nat.zero_le i, fun _ => rfl⟩
  tx := fun i => ⟨fun _ => Nat.zero_le i, fun _ => rfl⟩
  frame_len := by decide
  frame_max := by decide
  frame_val := fun v hv => by cases hv

theorem witness_StepKeepsWhichElementsHoldValues : HeldInv loaded ∧
    isNext (step (presenting (.cmd [0x42#8, 0x01#8, 0x42#8]) loaded)) = true := ⟨loaded_heldInv, by decide⟩

theorem witness_StepKeepsTheArraysCanonical : canonical loaded = true ∧
    isNext (step (presenting (.cmd [0x01#8, 0x01#8, 0x01#8, 0x01#8, 0x00#8]) loaded)) = true := by decide

theorem witness_StepKeepsConfigurationAndHistory :
    isNext (step (presenting (.cmd [0x44#8]) inSession)) = true := by decide

theorem witness_OnlyResetClearsStatusOrWritesALockedSession :
    let s := presenting (.cmd [0x01#8, 0x07#8, 0x00#8, 0x01#8, 0x00#8]) { inSession with hang := true, txto := true, refused := true }
    isNext (step s) = true ∧ noResetInside s = true ∧ s.agenda.head? ≠ some .reset ∧ s.sessActive = true ∧ s.hang = true ∧
      s.txto = true ∧ s.refused = true := by decide

end Sys2Proof.Tests
end

section
/-! What a step takes up, once for every property of steps: the cases of `fetch` by what the agenda and the phase say
(rules R31, R103 to R105, R256). -/

namespace Sys2Proof.Machine

/-- What `fetch` can take up in `s`, and in which state it is then done. -/
inductive TakenUp (s : State) : Fetched → Prop
  | idle : TakenUp s (.idle { s with agenda := s.agenda.tail })
  | refuse (c : RefuseCode) : TakenUp s (.refuse c { s with agenda := s.agenda.tail })
  | stuck : TakenUp s .stuck
  | own {i : Instr} (hp : phaseUop s.phase = some i) : TakenUp s (.own i { s with agenda := s.agenda.tail })
  | irq {r : List Presented} (ha : s.agenda = .irq :: r) : TakenUp s (.run .irq { s with agenda := r })
  | reset {r : List Presented} (ha : s.agenda = .reset :: r) : TakenUp s (.run .reset { s with agenda := r })
  | uop {code : Byte} {r : List Presented} {i : Instr} (ha : s.agenda = .uop code :: r) (hc : opClass i = .uop) :
      TakenUp s (.run i { s with agenda := r })
  | cmd {bytes rest : List Byte} {r : List Presented} {i : Instr} (ha : s.agenda = .cmd bytes :: r)
      (hp : s.phase = .idle) (hd : decode bytes = .ok (i, rest)) (hc : opClass i = .cmd) :
      TakenUp s (.run i { s with agenda := requeue rest r })

/-- The sequencer left to itself waits, or takes up the micro-operation of its phase (rule R31). -/
theorem fetchOwn_takenUp (s : State) : TakenUp s (fetchOwn { s with agenda := s.agenda.tail }) := by
  unfold fetchOwn
  cases hp : phaseUop ({ s with agenda := s.agenda.tail } : State).phase with
  | none => exact .idle
  | some i => exact .own hp

/-- Command decode takes up a command only in `PH_IDLE`, and only one of class CMD (rules R103, R256). -/
theorem fetchCommand_takenUp {s : State} {bytes : List Byte} {r : List Presented} (ha : s.agenda = .cmd bytes :: r) :
    TakenUp s (fetchCommand bytes { s with agenda := r }) := by
  obtain rfl : s.agenda.tail = r := by rw [ha]; rfl
  unfold fetchCommand
  split
  · exact .refuse _
  · rename_i hp
    split
    · rename_i hd
      split
      · rename_i hc; exact .cmd ha (not_not.1 hp) hd hc
      · exact .refuse _
    · exact .idle
    · exact .refuse _
    · exact .stuck

/-- A trace code takes up a micro-operation or is refused (rule R105). -/
theorem fetchUop_takenUp {s : State} {code : Byte} {r : List Presented} (ha : s.agenda = .uop code :: r) :
    TakenUp s (fetchUop code { s with agenda := r }) := by
  obtain rfl : s.agenda.tail = r := by rw [ha]; rfl
  unfold fetchUop
  split
  · split
    · rename_i hc; exact .uop ha hc
    · exact .refuse _
  · exact .refuse _

/-- Where nothing is presented, or a `tick`, the sequencer is left to itself (rule R31). -/
theorem fetch_own {s : State} (h : s.agenda = [] ∨ s.agenda.head? = some .tick) :
    fetch s = fetchOwn { s with agenda := s.agenda.tail } := by
  cases ha : s.agenda with
  | nil =>
    have hs : ({ s with agenda := [] } : State) = s := by rw [← ha]
    simp only [fetch, ha, List.tail_nil, hs]
  | cons x r =>
    simp only [ha, reduceCtorEq, List.head?_cons, Option.some.injEq, false_or] at h
    subst h
    simp only [fetch, ha, List.tail_cons]

theorem fetch_takenUp (s : State) : TakenUp s (fetch s) := by
  by_cases ho : s.agenda = [] ∨ s.agenda.head? = some .tick
  · rw [fetch_own ho]
    exact fetchOwn_takenUp s
  · unfold fetch
    split <;> rename_i ha
    · exact absurd (.inl ha) ho
    · exact absurd (.inr (congrArg List.head? ha)) ho
    · exact .irq ha
    · exact .reset ha
    · exact fetchUop_takenUp ha
    · exact fetchCommand_takenUp ha

/-- Whether doing what is taken up leaves `t`. -/
def Fetched.Leaves (t : State) : Fetched → Prop
  | .idle u => t = u
  | .refuse c u => t = final (Machine.refuse c) u
  | .stuck => False
  | .run i u => exec i u = .next t
  | .own i u => ∃ v, exec i u = .next v ∧ t = resume v

/-- A step that leaves a next state: the configuration is valid, and what `fetch` took up leaves that state (rule R8). -/
theorem step_next {s t : State} (h : step s = .next t) :
    s.cfg.valid = true ∧ ∃ f, TakenUp s f ∧ f.Leaves t := by
  unfold step at h
  split at h
  swap; · cases h
  rename_i hv
  refine ⟨hv, fetch s, fetch_takenUp s, ?_⟩
  cases hf : fetch s with
  | idle u => rw [hf] at h; injection h with h; exact h.symm
  | refuse c u => rw [hf] at h; injection h with h; exact h.symm
  | stuck => rw [hf] at h; cases h
  | run i u => rw [hf] at h; exact h
  | own i u =>
    rw [hf] at h
    simp only at h
    cases hu : exec i u with
    | next v => rw [hu] at h; injection h with h; exact ⟨v, hu, h.symm⟩
    | fault f => rw [hu] at h; cases h
    | refused r => rw [hu] at h; cases h

end Sys2Proof.Machine
end

section
/-! The invariants of rule R53 inside an operation: what of them every atomic step keeps (`LinkCore`), and that each write
of a register keeps it. -/

namespace Sys2Proof.Machine

/-! ## The hop list and the interval -/

/-- Below `hopCount` no entry is the zero sentinel (rule R151). -/
theorem hopAt_ne_zero_of_lt_hopCount {hop : Memory} {maxHops k : Nat} (h : k < hopCount hop maxHops) :
    hopAt hop k ≠ 0#8 := by
  obtain ⟨-, -, hne, -⟩ := hopScan_spec hop maxHops 0
  exact hne k (Nat.zero_le k) h

theorem hopCount_le (hop : Memory) (maxHops : Nat) : hopCount hop maxHops ≤ maxHops := by
  obtain ⟨-, hle, -⟩ := hopScan_spec hop maxHops 0
  unfold hopCount
  omega

/-- A hop list that does not begin with the sentinel has an entry (rules R8, R151, R191). -/
theorem one_le_hopCount {hop : Memory} {maxHops : Nat} (hm : 1 ≤ maxHops) (h0 : hopAt hop 0 ≠ 0#8) :
    1 ≤ hopCount hop maxHops := by
  by_contra hlt
  have hz : hopScan hop 0 maxHops = 0 := by unfold hopCount at hlt; omega
  obtain ⟨-, -, -, h | h⟩ := hopScan_spec hop maxHops 0
  · omega
  · rw [hz] at h; exact h0 h

/-- `ADVANCE` stays among the valid entries (rule R152). -/
theorem nextIndex_lt_hopcount {cfg : Config} {hop : Memory} {hopcount idx : Byte} (hi : idx.toNat < hopcount.toNat) :
    (nextIndex cfg hop hopcount idx).toNat < hopcount.toNat := by
  unfold nextIndex
  simp only
  split
  · simp only [BitVec.toNat_zero]; omega
  · rename_i h
    have hne : idx.toNat + 1 ≠ hopcount.toNat := fun he => h (.inl he)
    have := Nat.mod_le (idx.toNat + 1) (2 ^ 8)
    rw [BitVec.toNat_ofNat]
    omega

/-- Rounding up gives whole milliseconds (rule R141). -/
theorem intervalOf_mod (cfg : Config) (sp : SessionParams) : intervalOf cfg sp % 1000 = 0 := Nat.mul_mod_right _ _

/-- The margin alone is two milliseconds (rules R7, R141). -/
theorem le_intervalOf (cfg : Config) (sp : SessionParams) : 2000 ≤ intervalOf cfg sp := by
  have h : 2000 ≤ intervalSum cfg sp.flags (cfg.bitrateOf sp.modemIdx.toNat) := by
    simp only [intervalSum, Config.marginMain]
    omega
  simp only [intervalOf, ceilMs]
  omega

/-! ## What every atomic step keeps -/

/-- `LinkInv` but for what an operation breaks until it ends: `phase`, `hopnow`, and the outcomes before acquisition. -/
structure LinkCore (s : State) : Prop where
  valid : s.cfg.valid = true
  agenda : s.agenda.all Presented.fromOutside = true
  mode : s.mode ≠ .available
  idx_lt : s.idx.toNat < s.cfg.maxHops
  hopcount_le : s.hopcount.toNat ≤ s.cfg.maxHops
  session : s.sessActive = true → SessionInv s
  rssi_cnt : s.rssiCnt.toNat ≤ 8
  rssi_sum : s.rssiSum.toNat ≤ 255 * s.rssiCnt.toNat
  quality_lt : s.quality < 2 ^ s.cfg.qw

/-- No outcome stands recorded before acquisition (rule R53). -/
abbrev BlankUntilAcq (s : State) : Prop := s.acq = false → s.quality = 0 ∧ s.lost = 0#8

/-- What holds at each atomic step of a `POLL`, but while `P2_RXPROC` records a packet. -/
structure PollInv (s : State) : Prop extends LinkCore s where
  blank : BlankUntilAcq s

/-- What holds at each atomic step of every other operation: the invariants of rule R53, the configuration valid. -/
structure Resting (s : State) : Prop extends PollInv s where
  phase : s.phase = .idle ∨ s.phase = .txwait
  hopnow : s.hopnow = false

theorem resting_iff {s : State} : Resting s ↔ s.cfg.valid = true ∧ LinkInv s := by
  constructor
  · exact fun h => ⟨h.valid, { h with not_acq := h.blank }⟩
  · exact fun ⟨hv, h⟩ => { h with valid := hv, blank := h.not_acq }

/-- `t` has what `s` has in the fields `SessionInv` speaks of. -/
structure SameSession (s t : State) : Prop where
  cfg : t.cfg = s.cfg := by rfl
  sp : t.sp = s.sp := by rfl
  idx : t.idx = s.idx := by rfl
  hopcount : t.hopcount = s.hopcount := by rfl
  lost : t.lost = s.lost := by rfl
  interval : t.interval = s.interval := by rfl

/-- `t` has what `s` has in the fields `LinkCore` speaks of; `mode` may change, but not to `Available`. -/
structure SameCore (s t : State) : Prop extends SameSession s t where
  agenda : t.agenda = s.agenda := by rfl
  mode : s.mode ≠ .available → t.mode ≠ .available := by exact id
  sessActive : t.sessActive = s.sessActive := by rfl
  rssiCnt : t.rssiCnt = s.rssiCnt := by rfl
  rssiSum : t.rssiSum = s.rssiSum := by rfl
  quality : t.quality = s.quality := by rfl

/-- The same of `LinkInv`. -/
structure SameLink (s t : State) : Prop extends SameCore s t where
  acq : t.acq = s.acq := by rfl
  phase : t.phase = s.phase := by rfl
  hopnow : t.hopnow = s.hopnow := by rfl

theorem SessionInv.congr {s t : State} (h : SessionInv s) (e : SameSession s t) : SessionInv t where
  cfg_ok := by rw [e.cfg, e.sp]; exact h.cfg_ok
  profile_ok := by rw [e.cfg, e.sp]; exact h.profile_ok
  hopcount_cached := by rw [e.cfg, e.sp, e.hopcount]; exact h.hopcount_cached
  hopcount_pos := by rw [e.hopcount]; exact h.hopcount_pos
  idx_lt := by rw [e.idx, e.hopcount]; exact h.idx_lt
  hop_ne := by rw [e.sp, e.idx]; exact h.hop_ne
  lost_le := by rw [e.lost, e.hopcount]; exact h.lost_le
  interval_cached := by rw [e.cfg, e.sp, e.interval]; exact h.interval_cached
  interval_whole := by rw [e.interval]; exact h.interval_whole
  interval_low := by rw [e.interval]; exact h.interval_low
  interval_high := by rw [e.interval]; exact h.interval_high

theorem LinkCore.congr {s t : State} (h : LinkCore s) (e : SameCore s t) : LinkCore t where
  valid := by rw [e.cfg]; exact h.valid
  agenda := by rw [e.agenda]; exact h.agenda
  mode := e.mode h.mode
  idx_lt := by rw [e.idx, e.cfg]; exact h.idx_lt
  hopcount_le := by rw [e.hopcount, e.cfg]; exact h.hopcount_le
  session := fun hs => (h.session (e.sessActive ▸ hs)).congr e.toSameSession
  rssi_cnt := by rw [e.rssiCnt]; exact h.rssi_cnt
  rssi_sum := by rw [e.rssiSum, e.rssiCnt]; exact h.rssi_sum
  quality_lt := by rw [e.quality, e.cfg]; exact h.quality_lt

theorem BlankUntilAcq.congr {s t : State} (h : BlankUntilAcq s) (ha : t.acq = s.acq) (hq : t.quality = s.quality)
    (hl : t.lost = s.lost) : BlankUntilAcq t := by
  unfold BlankUntilAcq
  rw [ha, hq, hl]
  exact h

theorem PollInv.congr {s t : State} (h : PollInv s) (e : SameCore s t) (ha : t.acq = s.acq) : PollInv t :=
  ⟨h.toLinkCore.congr e, h.blank.congr ha e.quality e.lost⟩

theorem Resting.congr {s t : State} (h : Resting s) (e : SameLink s t) : Resting t :=
  ⟨h.toPollInv.congr e.toSameCore e.acq, by rw [e.phase]; exact h.phase, by rw [e.hopnow]; exact h.hopnow⟩

/-- `IRQ` leaves no mode `Available` (rule R203). -/
theorem irqMode_ne_available {m : RadioMode} (h : m ≠ .available) : irqMode m ≠ .available := by
  cases m <;> simp_all [irqMode]

/-! ## The writes of the operations -/

namespace LinkCore

variable {s : State}

/-- `HOPCNT` writes again what a session has cached (rule R151). -/
theorem hopcnt (h : LinkCore s) : LinkCore (hopcntWrite s) :=
  have hc : (hopcntWrite s).hopcount.toNat = hopCount s.sp.hop s.cfg.maxHops := hopCount_toNat h.valid _
  { h with
    hopcount_le := hc.trans_le (hopCount_le _ _)
    session := fun hs => (h.session hs).congr
      { hopcount := BitVec.eq_of_toNat_eq (hc.trans (h.session hs).hopcount_cached.symm) } }

/-- `INTERVAL` writes again what a session has cached (rule R141). -/
theorem interval (h : LinkCore s) : LinkCore (intervalWrite s) :=
  { h with
    session := fun hs => (h.session hs).congr
      { interval := by
          rw [intervalWrite_interval, ← (h.session hs).interval_cached, BitVec.ofNat_toNat, BitVec.setWidth_eq] } }

/-- `ADVANCE` goes to a valid entry of the hop list (rule R152). -/
theorem advance (h : LinkCore s) : LinkCore (advanceWrite s) :=
  { h with
    idx_lt := nextIndex_lt_maxHops h.idx_lt
    session := fun hs =>
      have i := h.session hs
      have hlt : (advanceWrite s).idx.toNat < s.hopcount.toNat := nextIndex_lt_hopcount i.idx_lt
      { i with
        idx_lt := hlt
        hop_ne := hopAt_ne_zero_of_lt_hopCount (i.hopcount_cached ▸ hlt) } }

/-- Outside a session SessionParameters are free (rule R176). -/
theorem wrreg (h : LinkCore s) (hs : s.sessActive = false) (sp : SessionParams) : LinkCore { s with sp := sp } :=
  { h with session := fun ht => absurd (hs.symm.trans ht) Bool.false_ne_true }

/-- `ENDSESS` leaves no session (rule R180). -/
theorem endsess (h : LinkCore s) : LinkCore { s with sessActive := false, consumerAttached := false } :=
  { h with session := nofun }

/-- A sample keeps the accumulator's bounds, the ninth empties it (rule R233). -/
theorem rssiAccumulate (h : LinkCore s) (v : Byte) : LinkCore (rssiAccumulate v s) := by
  rcases Nat.lt_or_ge s.rssiCnt.toNat 8 with hc | hc
  · have hv := v.isLt
    have hsum := h.rssi_sum
    have hcnt : (s.rssiCnt + 1#8).toNat = s.rssiCnt.toNat + 1 := by
      rw [BitVec.toNat_add, BitVec.toNat_ofNat]; omega
    have hadd : (s.rssiSum + v.setWidth 16).toNat = s.rssiSum.toNat + v.toNat := by
      rw [BitVec.toNat_add, BitVec.toNat_setWidth]; omega
    rw [rssiAccumulate_fewer hc]
    exact { h with
      session := fun hs => (h.session hs).congr {}
      rssi_cnt := by simp only [hcnt]; omega
      rssi_sum := by simp only [hcnt, hadd]; omega }
  · rw [rssiAccumulate_ninth (Nat.le_antisymm h.rssi_cnt hc)]
    exact { h with
      session := fun hs => (h.session hs).congr {}
      rssi_cnt := Nat.zero_le _
      rssi_sum := Nat.le_refl _ }

/-- Any quality mask of `QW` bits and any count of lost slots up to `hopcount` do (rule R53). -/
theorem outcome (h : LinkCore s) {q : Nat} {n : Byte} (hq : q < 2 ^ s.cfg.qw)
    (hn : s.sessActive = true → n.toNat ≤ s.hopcount.toNat) : LinkCore { s with quality := q, lost := n } :=
  { h with
    quality_lt := hq
    session := fun hs => { h.session hs with lost_le := hn hs } }

end LinkCore

/-- The RSSI filter writes neither `quality` nor `lost` (rule R233). -/
theorem PollInv.rssiAccumulate {s : State} (h : PollInv s) (v : Byte) : PollInv (rssiAccumulate v s) := by
  refine ⟨h.toLinkCore.rssiAccumulate v, ?_⟩
  unfold Machine.rssiAccumulate
  simp only
  split <;> exact h.blank

/-- A shift keeps `QW` bits (rules R230, R231). -/
theorem qualityShift_lt (qw q : Nat) (b : Bool) : qualityShift qw q b < 2 ^ qw := Nat.mod_lt _ (Nat.two_pow_pos qw)

/-- The record of a reception: no slot is lost any more (rule R198). -/
theorem LinkCore.rxRecord {s : State} (h : LinkCore s) : LinkCore (rxRecord s) :=
  (h.outcome (n := 0#8) (qualityShift_lt s.cfg.qw s.quality true) fun _ => Nat.zero_le _).congr {}

/-- The cases of the loss policy (rule R200). -/
theorem lossPolicy_cases (s : State) :
    (s.acq = true ∧ s.lost.toNat < s.hopcount.toNat ∧ lossPolicy s = lossMiss s) ∨
    (s.acq = true ∧ s.lost = s.hopcount ∧ lossPolicy s = lossResync s) ∨
    (s.acq = false ∧ lossPolicy s = lossScan s) ∨ lossPolicy s = s := by
  unfold lossPolicy
  simp only
  split
  · rename_i ha
    split
    · rename_i hm; exact .inl ⟨ha, hm.1, rfl⟩
    · split
      · rename_i hr; exact .inr (.inl ⟨ha, hr.1, rfl⟩)
      · exact .inr (.inr (.inr rfl))
  · rename_i ha
    split
    · exact .inr (.inr (.inl ⟨Bool.eq_false_iff.2 ha, rfl⟩))
    · exact .inr (.inr (.inr rfl))

/-- `P4_LOSS` counts no slot beyond `hopcount`, and none before acquisition (rules R53, R200). -/
theorem PollInv.lossPolicy {s : State} (h : PollInv s) : PollInv (lossPolicy s) := by
  rcases lossPolicy_cases s with ⟨ha, hl, he⟩ | ⟨ha, -, he⟩ | ⟨-, he⟩ | he <;> rw [he]
  · have hadd : (s.lost + 1#8).toNat ≤ s.hopcount.toNat := by
      rw [BitVec.toNat_add, BitVec.toNat_ofNat]; omega
    exact ⟨(h.outcome (n := s.lost + 1#8) (qualityShift_lt s.cfg.qw s.quality false) fun _ => hadd).congr {},
      fun hf => absurd (ha.symm.trans hf) nofun⟩
  · exact ⟨(h.outcome (q := 0) (Nat.two_pow_pos _) fun hs => (h.session hs).lost_le).congr {},
      fun hf => absurd (ha.symm.trans hf) nofun⟩
  · exact h.congr {} rfl
  · exact h

/-- What `SETUP` has made sure of when it takes its clock sample (rule R191). -/
structure SetupReady (s : State) : Prop where
  check : setupCheck s = none
  hopcount : s.hopcount.toNat = hopCount s.sp.hop s.cfg.maxHops
  interval : s.interval.toNat = intervalOf s.cfg s.sp

/-- `HOPCNT` and `INTERVAL` cache what an accepted `SETUP` asks for (rule R191). -/
theorem setupReady_of_check {s : State} (hv : s.cfg.valid = true) (hc : setupCheck s = none) :
    SetupReady (intervalWrite (hopcntWrite s)) where
  check := hc
  hopcount := hopCount_toNat hv _
  interval := by
    obtain ⟨-, -, -, hlt⟩ := setupCheck_eq_none.1 hc
    simp only [intervalWrite_interval, BitVec.toNat_ofNat]
    exact Nat.mod_eq_of_lt (hlt.trans (by decide))

/-- A session begins with everything rule R53 asks of one (rule R191). -/
theorem SetupReady.session {s : State} (h : SetupReady s) (hv : s.cfg.valid = true) (now : Word) :
    SessionInv (setupInit now s) := by
  obtain ⟨hcfg, hprof, h0, hlt⟩ := setupCheck_eq_none.1 h.check
  have hpos : 1 ≤ s.hopcount.toNat := h.hopcount ▸ one_le_hopCount (Config.valid_maxHops hv).1 h0
  exact {
    cfg_ok := hcfg
    profile_ok := hprof
    hopcount_cached := h.hopcount
    hopcount_pos := hpos
    idx_lt := hpos
    hop_ne := h0
    lost_le := Nat.zero_le _
    interval_cached := h.interval
    interval_whole := h.interval ▸ intervalOf_mod _ _
    interval_low := h.interval ▸ le_intervalOf _ _
    interval_high := h.interval ▸ hlt }

/-- The registers of an accepted `SETUP` meet the invariants (rules R53, R191). -/
theorem Resting.setupInit {s : State} (h : Resting s) (hr : SetupReady s) (now : Word) : Resting (setupInit now s) :=
  { h with
    idx_lt := (Config.valid_maxHops h.valid).1
    session := fun _ => hr.session h.valid now
    rssi_cnt := Nat.zero_le _
    rssi_sum := Nat.zero_le _
    quality_lt := Nat.two_pow_pos _
    blank := fun _ => ⟨rfl, rfl⟩
    hopnow := rfl }

/-- The reset registers meet the invariants, whatever comes from outside next (rules R52, R53). -/
theorem resting_resetRegisters {s : State} (hv : s.cfg.valid = true) {a : List Presented}
    (ha : a.all Presented.fromOutside = true) : Resting { resetRegisters s with agenda := a } where
  valid := hv
  agenda := ha
  mode := nofun
  idx_lt := (Config.valid_maxHops hv).1
  hopcount_le := Nat.zero_le _
  session := nofun
  rssi_cnt := Nat.zero_le _
  rssi_sum := Nat.zero_le _
  quality_lt := Nat.two_pow_pos _
  blank := fun _ => ⟨rfl, rfl⟩
  phase := .inl rfl
  hopnow := rfl

/-- What was to happen inside an operation comes from outside (rules R256, R290). -/
theorem presented_fromOutside (g : List Gap) {a : List Presented} (ha : a.all Presented.fromOutside = true) :
    (g.map Gap.presented ++ a).all Presented.fromOutside = true := by
  rw [List.all_append, ha, Bool.and_true, List.all_map, List.all_eq_true]
  intro e _
  cases e <;> rfl

end Sys2Proof.Machine
end

section
/-! Every step keeps the invariants of rule R53: the instants inside an operation, its atomic steps, the operations, and
what the sequencer runs on its own. -/

namespace Sys2Proof.Machine

/-- A sequence whose first member leaves `P`, from which the others go on. -/
theorem Ends.step {P R : State → Prop} {Q : Unit → State → Prop} {m : Steps Unit} {ms : List (Steps Unit)} {s : State}
    (h : Ends m s (fun _ => P) R) (hms : ∀ t, P t → Ends (inOrder ms) t Q R) : Ends (inOrder (m :: ms)) s Q R :=
  Ends.cons (h.mono (fun _ => hms) fun _ => id)

theorem Ends.last {P R : State → Prop} {m : Steps Unit} {s : State} (h : Ends m s (fun _ => P) R) :
    Ends (inOrder [m]) s (fun _ => P) R := h.step fun _ ht => Ends.nil ht

/-- `P` speaks only of the fields of `LinkInv`, and asks at least what a `RESET` inside an operation needs. -/
structure LinkKept (P : State → Prop) : Prop where
  same : ∀ {s t}, P s → SameLink s t → P t
  core : ∀ {s}, P s → LinkCore s

theorem linkKept_core : LinkKept LinkCore := ⟨fun h e => h.congr e.toSameCore, id⟩

theorem linkKept_recorded : LinkKept fun s => LinkCore s ∧ s.acq = true :=
  ⟨fun h e => ⟨h.1.congr e.toSameCore, e.acq.trans h.2⟩, And.left⟩

theorem linkKept_poll : LinkKept PollInv := ⟨fun h e => h.congr e.toSameCore e.acq, PollInv.toLinkCore⟩

theorem linkKept_resting : LinkKept Resting := ⟨Resting.congr, fun h => h.toLinkCore⟩

theorem SetupReady.congr {s t : State} (h : SetupReady s) (e : SameLink s t) : SetupReady t where
  check := by
    obtain ⟨hcfg, hprof, h0, hlt⟩ := setupCheck_eq_none.1 h.check
    rw [setupCheck_eq_none, e.cfg, e.sp]
    exact ⟨hcfg, hprof, h0, hlt⟩
  hopcount := by rw [e.hopcount, e.sp, e.cfg]; exact h.hopcount
  interval := by rw [e.interval, e.sp, e.cfg]; exact h.interval

theorem linkKept_setup : LinkKept fun s => Resting s ∧ SetupReady s :=
  ⟨fun h e => ⟨h.1.congr e, h.2.congr e⟩, fun h => h.1.toLinkCore⟩

section

variable {P : State → Prop} (K : LinkKept P)

include K

/-- An instant inside an operation keeps `P`; a `RESET` there leaves the reset registers (rules R256, R258). -/
theorem LinkKept.point : PointKeeps P Resting :=
  pointKeeps_of (fun _ _ h => K.same h {}) (fun _ h => K.same h { mode := irqMode_ne_available })
    (fun _ h => K.same h {})
    (fun _ g h => resting_resetRegisters (K.core h).valid (presented_fromOutside g (K.core h).agenda))

theorem LinkKept.put (o : Output) (s : State) (_ : o.isAnswer = false) (h : P s) : P (put o s) := K.same h {}

theorem LinkKept.note (c : RefuseCode) (s : State) (h : P s) : P (noteRefusal c s) := K.same h {}

variable {s : State} (h : P s)

include h

theorem LinkKept.emit (o : Output) : Ends (emit o) s (fun _ => P) Resting :=
  emit_ends K.point h fun _ ht => K.same ht {}

theorem LinkKept.reinit : Ends reinit s (fun _ => P) Resting := reinit_ends K.point K.put h

theorem LinkKept.progch (i : Byte) : Ends (progch i) s (fun _ => P) Resting :=
  progch_ends K.point K.put K.note h i

theorem LinkKept.writeMode {m : RadioMode} (hm : m ≠ .available) : Ends (writeMode m) s (fun _ => P) Resting :=
  writeMode_ends K.point h fun _ ht => K.same ht { mode := fun _ => hm }

theorem LinkKept.rxenter : Ends rxenter s (fun _ => P) Resting :=
  rxenter_ends K.point K.put (fun _ ht => K.same ht { mode := fun _ => nofun }) h

/-- A change of registers that `P` does not speak of. -/
theorem LinkKept.update {f : State → State} (e : SameLink s (f s)) : Ends (update f) s (fun _ => P) Resting :=
  update_ends (K.same h e)

/-- The consumer's call and the decoding before it touch no register of the link (rules R198, R204). -/
theorem LinkKept.rxDecode (bytes : List Byte) : Ends (rxDecode bytes) s (fun _ => P) Resting := by
  have hty : Ends (typeByte bytes) s (fun _ => P) Resting := by
    cases bytes with
    | nil => exact K.same h {}
    | cons b r => exact h
  refine Ends.andThen (hty.mono (fun ty t ht => ?_) fun _ => id)
  refine Ends.onlyIf (fun _ => Ends.step (P := P) ?_ fun u hu => Ends.last (P := P) ?_) fun _ => ht
  · exact Ends.inPlace (fun c _ => K.note c t ht) fun _ => K.update ht {}
  · exact Ends.onlyIf (fun _ => K.emit hu _) fun _ => hu

end

/-! ## The phases of `POLL` -/

section

variable {s : State} (h : PollInv s)

include h

theorem PollInv.p1Health : Ends p1Health s (fun _ => PollInv) Resting := by
  have K := linkKept_poll
  refine Ends.andThen (reading_ends K.point h fun t ht => ?_)
  have hread : PollInv (put (.transport (.regRead t.cfg.regHealth (healthInput t))) (tookHealth t)) := K.same ht {}
  refine Ends.onlyIf (fun _ => ?_) fun _ => hread
  exact Ends.step (K.update hread {}) fun u hu => Ends.step (K.reinit hu) fun v hv =>
    Ends.step (K.progch hv v.idx) fun _ hw => Ends.last (K.rxenter hw)

/-- While the packet is recorded `quality` and `lost` run ahead of `acq` (rule R198). -/
theorem PollInv.rxPacket : Ends rxPacket s (fun _ => PollInv) Resting := by
  have K := linkKept_poll
  refine Ends.andThen (reading_ends K.point h fun t ht => ?_)
  refine Ends.step (P := PollInv) (K.same ht {}) fun t ht => ?_
  refine Ends.step (P := PollInv) (Ends.andThen (reading_ends K.point ht fun u hu => K.same hu {})) fun t ht => ?_
  refine Ends.step (P := LinkCore) (update_ends ht.rxRecord) fun t ht => ?_
  refine Ends.step (linkKept_core.rxDecode ht _) fun t ht => ?_
  refine Ends.step (P := fun u => LinkCore u ∧ u.acq = true) (update_ends ⟨ht.congr {}, rfl⟩) fun t ht => ?_
  refine Ends.step (linkKept_recorded.rxenter ht) fun t ht => ?_
  exact Ends.last (P := PollInv) (update_ends ⟨ht.1.congr {}, fun ha => absurd (ht.2.symm.trans ha) nofun⟩)

theorem PollInv.p2Rxproc : Ends p2Rxproc s (fun _ => PollInv) Resting :=
  Ends.andThen (readMode_ends linkKept_poll.point h fun _ ht =>
    Ends.onlyIf (fun _ => ht.rxPacket) fun _ => ht)

theorem PollInv.p3Rssi : Ends p3Rssi s (fun _ => PollInv) Resting := by
  have K := linkKept_poll
  refine Ends.onlyIf (fun _ => Ends.step (K.update h {}) fun t ht => ?_) fun _ => h
  refine Ends.last (P := PollInv) (Ends.andThen (reading_ends K.point ht fun u hu => ?_))
  have hread : PollInv (put (.transport (.regRead u.cfg.regRssi (rssiInput u))) (tookRssi u)) := K.same hu {}
  exact hread.rssiAccumulate (rssiInput u)

/-- After `P5_HOP` no hop is asked for (rule R201). -/
theorem PollInv.p5Hop : Ends p5Hop s (fun _ t => PollInv t ∧ t.hopnow = false) Resting := by
  have K := linkKept_poll
  refine Ends.onlyIf (fun _ => ?_) fun hn => ⟨h, hn⟩
  refine Ends.step (P := PollInv) (update_ends ⟨h.advance, h.blank⟩) fun t ht => ?_
  refine Ends.step (K.progch ht t.idx) fun u hu => ?_
  exact Ends.last (P := fun u => PollInv u ∧ u.hopnow = false) (update_ends ⟨hu.congr {} rfl, rfl⟩)

theorem PollInv.setPhase (p : Phase) : Ends (setPhase p) s (fun _ => PollInv) Resting :=
  setPhase_ends (h.congr {} rfl)

/-- A `POLL` ends idle, with no hop asked for (rules R53, R195). -/
theorem PollInv.pollSteps : Ends pollSteps s (fun _ => Resting) Resting := by
  have K := linkKept_poll
  refine Ends.step (K.emit h _) fun t ht => ?_
  refine Ends.step (P := PollInv) (Ends.andThen (reading_ends K.point ht fun u hu => K.same hu {})) fun t ht => ?_
  refine Ends.step (ht.setPhase _) fun t ht => Ends.step ht.p1Health fun t ht => ?_
  refine Ends.step (ht.setPhase _) fun t ht => Ends.step ht.p2Rxproc fun t ht => ?_
  refine Ends.step (ht.setPhase _) fun t ht => Ends.step ht.p3Rssi fun t ht => ?_
  refine Ends.step (ht.setPhase _) fun t ht => ?_
  refine Ends.step (P := PollInv) (update_ends ht.lossPolicy) fun t ht => ?_
  refine Ends.step (ht.setPhase _) fun t ht => Ends.step ht.p5Hop fun t ht => ?_
  exact Ends.last (P := Resting) (setPhase_ends ⟨ht.1.congr {} rfl, .inl rfl, ht.2⟩)

end

/-! ## The other operations -/

section

variable {s : State} (h : Resting s)

include h

theorem Resting.txstartSteps (d : List Byte) : Ends (txstartSteps d) s (fun _ => Resting) Resting := by
  have K := linkKept_resting
  exact Ends.step (K.update h {}) fun t ht => Ends.step (K.emit ht _) fun u hu =>
    Ends.step (K.writeMode hu nofun) fun v hv => Ends.last (K.emit hv _)

theorem Resting.sendSteps (d : List Byte) : Ends (sendSteps d) s (fun _ => Resting) Resting := by
  refine Ends.step (h.txstartSteps d) fun t ht => Ends.last (P := Resting) (Ends.andThen ?_)
  exact reading_ends linkKept_resting.point ht fun u hu => ⟨hu.toPollInv.congr {} rfl, .inr rfl, hu.hopnow⟩

/-- An accepted `SETUP` meets the invariants at each of its steps (rule R191). -/
theorem Resting.setupSteps (hc : setupCheck s = none) : Ends setupSteps s (fun _ => Resting) Resting := by
  have K := linkKept_resting
  have hcached : Resting (intervalWrite (hopcntWrite s)) := { h with toLinkCore := h.hopcnt.interval }
  refine Ends.cons (update_ends (Ends.cons (update_ends ?_)))
  refine Ends.step (P := Resting) (Ends.andThen (reading_ends linkKept_setup.point
    ⟨hcached, setupReady_of_check h.valid hc⟩ fun u hu => ?_)) fun t ht => ?_
  · have hus : Resting (tookUs u) ∧ SetupReady (tookUs u) := linkKept_setup.same hu {}
    exact hus.1.setupInit hus.2 _
  · exact Ends.step (K.reinit ht) fun u hu => Ends.step (K.progch hu _) fun v hv =>
      Ends.last (K.rxenter hv)

theorem Resting.txwait : Ends txwait s (fun _ => Resting) Resting := by
  have K := linkKept_resting
  refine Ends.step (K.emit h _) fun t ht => Ends.last (P := Resting) ?_
  exact Ends.andThen (readMode_ends K.point ht fun u hu => Ends.andThen (reading_ends K.point hu fun v hv =>
    K.same hv {}))

/-- A command whose steps, where its tests pass, keep the invariants. -/
theorem Resting.command {check : State → Option RefuseCode} {steps : List (Steps Unit)} {value : State → List Byte}
    (hs : ∀ t, Resting t → check t = none → Ends (inOrder steps) t (fun _ => Resting) Resting) :
    Resting (command check steps value s) := by
  have K := linkKept_resting
  have hans : ∀ r v t, Resting t → Resting (put (.reply r v) t) := fun _ _ _ ht => K.same ht {}
  refine (tested_ends (Q := fun _ => Resting) K.point h (fun c t ht _ => ?_) fun t ht hc => ?_).final
  · exact refuse_ends K.point K.note (hans _) ht c
  · exact Ends.append ((hs t ht hc).mono (fun _ u hu =>
      Ends.last (P := Resting) (reply_ends K.point hu (hans _))) fun _ => id)

theorem Resting.refuse (c : RefuseCode) : Resting (final (refuse c) s) :=
  (refuse_ends (Q := fun _ => Resting) linkKept_resting.point linkKept_resting.note
    (fun _ _ ht => linkKept_resting.same ht {}) h c).final

/-- A command of one step. -/
theorem Resting.command_single {check : State → Option RefuseCode} {m : Steps Unit} {value : State → List Byte}
    (hm : ∀ t, Resting t → check t = none → Ends m t (fun _ => Resting) Resting) :
    Resting (Machine.command check [m] value s) :=
  h.command fun t ht hc => Ends.last (hm t ht hc)

/-- The end of the operation in progress (rules R194, R195). -/
theorem Resting.finish (r : ResultCode) : Resting (final (finish r) s) := by
  have K := linkKept_resting
  have hidle : Resting { s with phase := .idle } := ⟨h.toPollInv.congr {} rfl, .inl rfl, h.hopnow⟩
  refine Ends.final (Ends.step (P := Resting) (setPhase_ends hidle) fun t ht => ?_)
  exact Ends.last (P := Resting) (reply_ends K.point ht fun _ _ hu => K.same hu {})

theorem Resting.resume : Resting (resume s) := by
  rcases h.phase with hp | hp <;> simp only [Machine.resume, hp]
  · exact h
  · cases s.txRet with
    | none => exact h
    | some r => exact h.finish _

end

/-- An accepted `WRREG` is outside a session (rule R176). -/
theorem sessActive_of_wrregCheck {rn : Half} {n : Nat} {s : State} (h : wrregCheck rn n s = none) :
    s.sessActive = false := by
  unfold wrregCheck at h
  cases hs : s.sessActive with
  | false => rfl
  | true =>
    rw [hs] at h
    split at h
    · cases h
    · split at h <;> cases h

theorem Resting.wrregWrite {s : State} (h : Resting s) {rn : Half} {v : List Byte}
    (hc : wrregCheck rn v.length s = none) : Resting (wrregWrite rn v s) := by
  unfold Machine.wrregWrite
  split
  · exact h
  · exact { h with toLinkCore := h.wrreg (sessActive_of_wrregCheck hc) _ }

/-- Every command keeps the invariants (rule R53). -/
theorem Resting.exec_cmd {s t : State} (h : Resting s) {i : Instr} (hi : opClass i = .cmd) (he : exec i s = .next t) :
    Resting t := by
  have K := linkKept_resting
  cases i <;> simp only [opClass, reduceCtorEq] at hi <;> clear hi <;> injection he with he <;> subst he
  case nop | rdreg | pktsize | pack => exact h.command fun _ ht _ => Ends.nil ht
  case wrreg => exact h.command_single fun _ ht hc => update_ends (ht.wrregWrite hc)
  case attach => exact h.command_single fun _ ht _ => K.update ht {}
  case unpack => exact h.command_single fun _ ht _ => K.update ht {}
  case interval => exact h.command_single fun _ ht _ => update_ends { ht with toLinkCore := ht.interval }
  case hopcnt => exact h.command_single fun _ ht _ => update_ends { ht with toLinkCore := ht.hopcnt }
  case advance => exact h.command_single fun _ ht _ => update_ends { ht with toLinkCore := ht.advance }
  case progch k => exact h.command_single fun _ ht _ => progchSteps_ends K.point K.put ht k
  case setup => exact h.command_single fun _ ht hc => ht.setupSteps hc
  case rxenter => exact h.command_single fun _ ht _ => K.rxenter ht
  case txstart d => exact h.command_single fun _ ht _ => ht.txstartSteps d
  case send d =>
    exact (tested_ends K.point h (fun c t ht _ => refuse_ends K.point K.note (fun _ _ hu => K.same hu {}) ht c)
      fun _ ht _ => ht.sendSteps d).final
  case poll => exact h.command_single fun _ ht _ => ht.pollSteps
  case endsess => exact h.command_single fun _ ht _ => update_ends { ht with toLinkCore := ht.endsess }

/-- The bytes after a frame come from outside as well (rule R103). -/
theorem requeue_fromOutside (rest : List Byte) {a : List Presented} (h : a.all Presented.fromOutside = true) :
    (requeue rest a).all Presented.fromOutside = true := by
  unfold requeue
  split
  · exact h
  · rw [List.all_cons, h]
    rfl

/-- Another agenda from outside. -/
theorem Resting.withAgenda {s : State} (h : Resting s) {a : List Presented}
    (ha : a.all Presented.fromOutside = true) : Resting { s with agenda := a } :=
  { h with agenda := ha, session := fun hs => (h.session hs).congr {} }

/-- What a step takes up from a state that meets the invariants leaves one that does (rules R31, R53). -/
theorem Resting.takenUp {s t : State} (h : Resting s) {f : Fetched} (hf : TakenUp s f) (hl : f.Leaves t) :
    Resting t := by
  have hall := h.agenda
  have hout : ∀ {x r}, s.agenda = x :: r → x.fromOutside = true ∧ r.all Presented.fromOutside = true := fun ha => by
    simpa only [ha, List.all_cons, Bool.and_eq_true] using hall
  have htail : Resting { s with agenda := s.agenda.tail } := h.withAgenda <| by
    cases ha : s.agenda with
    | nil => rfl
    | cons x r => exact (hout ha).2
  cases hf with
  | idle => exact hl ▸ htail
  | refuse c => exact hl ▸ htail.refuse c
  | stuck => exact hl.elim
  | @own i hp =>
    obtain ⟨v, hv, rfl⟩ := hl
    rcases h.phase with hi | hi <;> rw [hi] at hp <;> simp only [phaseUop, reduceCtorEq, Option.some.injEq] at hp
    subst hp
    injection hv with hv
    subst hv
    exact Resting.resume htail.txwait.final
  | irq ha =>
    injection hl with hl
    subst hl
    exact linkKept_resting.same (h.withAgenda (hout ha).2) { mode := irqMode_ne_available }
  | reset ha =>
    injection hl with hl
    subst hl
    exact resting_resetRegisters h.valid (hout ha).2
  | uop ha hc => exact absurd (hout ha).1 nofun
  | cmd ha hp hd hc => exact (h.withAgenda (requeue_fromOutside _ (hout ha).2)).exec_cmd hc hl

/-- Settles O55: the invariants of rule R53 hold at each atomic step, in the weaker form `PollInv` inside a `POLL`. -/
theorem stepKeepsTheLinkInvariants : Obligations.StepKeepsTheLinkInvariants := by
  intro s t h hstep
  obtain ⟨hv, f, hf, hl⟩ := step_next hstep
  exact (resting_iff.1 ((resting_iff.2 ⟨hv, h⟩).takenUp hf hl)).2

end Sys2Proof.Machine
end

section
/-! Which elements of the buffers and of the ChannelFrame hold a value (rules R46, R47): the writes of `rxbuf`, `txbuf` and
`frame` set their length registers with them, and the channels of an accepted `UNPACK` are as many as `frame_cnt` says. -/

namespace Sys2Proof.Machine

/-- A block of bytes in a buffer, with its length in the length register (rule R46). -/
theorem bufferHeld_bufferOf {sp : Space} (hs : unlisted sp = none) {bytes : List Byte} (h : bytes.length ≤ 255) :
    BufferHeld sp (bufferOf bytes) (BitVec.ofNat 8 bytes.length) := by
  intro i
  rw [memRead_bufferOf hs, List.getElem?_eq_none_iff, BitVec.toNat_ofNat, Nat.mod_eq_of_lt (by omega)]

/-- Four channels for each whole group of five bytes (rule R122). -/
theorem unpackGroups_length {g : Nat} {p : List Byte} (h : 5 * g ≤ p.length) : (unpackGroups g p).length = 4 * g := by
  induction g generalizing p with
  | zero => simp [unpackGroups]
  | succ g ih =>
    match p with
    | q0 :: q1 :: q2 :: q3 :: q4 :: r =>
      have hr : 5 * g ≤ r.length := by simp only [List.length_cons] at h; omega
      simp only [unpackGroups, List.length_append, ih hr, unpackGroup, List.length_cons, List.length_nil]
      omega
    | [] | [_] | [_, _] | [_, _, _] | [_, _, _, _] => simp only [List.length_cons, List.length_nil] at h; omega

/-- A 10-bit channel (rule R93). -/
theorem joinChannel_le (hi : BitVec 2) (lo : Byte) : (joinChannel hi lo).toNat ≤ 1023 := by
  have h := (hi ++ lo).isLt
  rw [joinChannel, BitVec.toNat_setWidth, Nat.mod_eq_of_lt (by omega)]
  omega

theorem unpackGroups_le {g : Nat} {p : List Byte} : ∀ v ∈ unpackGroups g p, v.toNat ≤ 1023 := by
  induction g, p using unpackGroups.induct with
  | case1 g q0 q1 q2 q3 q4 r ih =>
    intro v hv
    rw [unpackGroups, List.mem_append] at hv
    rcases hv with hv | hv
    · simp only [unpackGroup, List.mem_cons, List.not_mem_nil, or_false] at hv
      rcases hv with rfl | rfl | rfl | rfl <;> exact joinChannel_le _ _
    · exact ih v hv
  | case2 g p hp =>
    intro v hv
    rw [unpackGroups] at hv
    · cases hv
    · exact hp

/-- The auxiliary law reaches 1011 (rule R94). -/
theorem auxChannel_le (s : BitVec 2) : (auxChannel s).toNat ≤ 1023 := by
  revert s; decide

theorem unpackAux_le (a : Byte) : ∀ v ∈ unpackAux a, v.toNat ≤ 1023 := by
  intro v hv
  simp only [unpackAux, List.mem_cons, List.not_mem_nil, or_false] at hv
  rcases hv with rfl | rfl | rfl | rfl <;> exact auxChannel_le _

/-- As many channels as the configuration has (rules R122, R124 iv). -/
theorem unpackChannels_length {cfg : Config} {c : BitVec 3} {p : List Byte} (h : p.length = cfg.payloadLen c) :
    (unpackChannels cfg c p).length = cfg.channelCount c := by
  have hg : 5 * cfg.ngroupsOf c ≤ p.length := by rw [h]; exact Nat.le_add_right _ _
  simp only [unpackChannels, List.length_append, unpackGroups_length hg, Config.channelCount]
  rcases Nat.mod_two_eq_zero_or_one c.toNat with ha | ha
  · simp [Config.auxOf, ha]
  · simp [Config.auxOf, ha, unpackAux]

theorem unpackChannels_le (cfg : Config) (c : BitVec 3) (p : List Byte) :
    ∀ v ∈ unpackChannels cfg c p, v.toNat ≤ 1023 := by
  intro v hv
  simp only [unpackChannels, List.mem_append] at hv
  rcases hv with hv | hv
  · exact unpackGroups_le v hv
  · split at hv
    · exact unpackAux_le _ v hv
    · cases hv

namespace HeldInv

variable {s : State} (h : HeldInv s)

include h

theorem rxStore {bytes : List Byte} (hb : bytes.length ≤ 255) : HeldInv (rxStore bytes s) :=
  { h with rx := bufferHeld_bufferOf rfl hb }

theorem txLoad {d : List Byte} (hd : d.length ≤ 255) : HeldInv (txLoad d s) :=
  { h with tx := bufferHeld_bufferOf rfl hd }

/-- An accepted `UNPACK` (rules R47, R122). -/
theorem unpackWrite (hv : s.cfg.valid = true) {c : BitVec 3} {p : List Byte}
    (hc : unpackCheck s.cfg c p.length = none) : HeldInv (unpackWrite c p s) := by
  obtain ⟨hres, hlen⟩ := unpackCheck_eq_none.1 hc
  obtain ⟨-, -, hmax⟩ := Config.valid_proper hv hres
  have hcnt : (Machine.unpackWrite c p s).frameCnt.toNat = s.cfg.channelCount c := by
    rw [unpackWrite_frameCnt, BitVec.toNat_ofNat, Nat.mod_eq_of_lt (by omega)]
  exact { h with
    frame_len := by rw [hcnt]; exact unpackChannels_length hlen
    frame_max := hcnt.trans_le hmax
    frame_val := unpackChannels_le _ _ _ }

end HeldInv

/-- After a `RESET` no element holds a value (rules R46, R47, R51). -/
theorem heldInv_resetRegisters (s : State) (a : List Presented) : HeldInv { resetRegisters s with agenda := a } where
  rx := fun i => ⟨fun _ => Nat.zero_le i, fun _ => rfl⟩
  tx := fun i => ⟨fun _ => Nat.zero_le i, fun _ => rfl⟩
  frame_len := rfl
  frame_max := Nat.zero_le _
  frame_val := nofun

/-- `HeldInv` under a valid configuration, which bounds a packet's length and the number of channels (rule R8). -/
abbrev HeldUnder (s : State) : Prop := s.cfg.valid = true ∧ HeldInv s

/-- `t` has what `s` has in the fields `HeldUnder` speaks of. -/
structure SameHeld (s t : State) : Prop where
  cfg : t.cfg = s.cfg := by rfl
  rxbuf : t.rxbuf = s.rxbuf := by rfl
  rxLen : t.rxLen = s.rxLen := by rfl
  txbuf : t.txbuf = s.txbuf := by rfl
  txLen : t.txLen = s.txLen := by rfl
  frame : t.frame = s.frame := by rfl
  frameCnt : t.frameCnt = s.frameCnt := by rfl

theorem HeldUnder.congr {s t : State} (h : HeldUnder s) (e : SameHeld s t) : HeldUnder t where
  left := by rw [e.cfg]; exact h.1
  right :=
    { rx := by rw [e.rxbuf, e.rxLen]; exact h.2.rx
      tx := by rw [e.txbuf, e.txLen]; exact h.2.tx
      frame_len := by rw [e.frame, e.frameCnt]; exact h.2.frame_len
      frame_max := by rw [e.frameCnt]; exact h.2.frame_max
      frame_val := by rw [e.frame]; exact h.2.frame_val }

theorem heldUnder_closed : StepClosed HeldUnder HeldUnder where
  point := pointKeeps_of (fun _ _ h => h.congr {})
    (fun _ h => h.congr {}) (fun _ h => h.congr {})
    (fun s _ h => ⟨h.1, heldInv_resetRegisters s _⟩)
  same := fun _ _ h e => h.congr ⟨e.cfg, e.rxbuf, e.rxLen, e.txbuf, e.txLen, e.frame, e.frameCnt⟩
  put := fun _ _ _ h => h.congr {}
  note := fun _ _ h => h.congr {}
  hang := fun _ h => h.congr {}
  rx := fun _ _ h hb => ⟨h.1, h.2.rxStore (hb.trans_le (Config.valid_pktsize h.1 _).1)⟩
  unpack := fun _ _ _ h hc => ⟨h.1, h.2.unpackWrite h.1 hc⟩
  txwait := fun _ _ _ h => h.congr {}
  txLoad := fun _ _ h _ hd => ⟨h.1, h.2.txLoad hd⟩
  txT0 := fun _ _ h => h.congr {}
  hopcnt := fun _ h => h.congr {}
  interval := fun _ h => h.congr {}
  endsess := fun _ h => h.congr {}
  attach := fun _ h => h.congr {}
  setup := fun _ _ h => h.congr {}

/-- A `WRREG` writes no buffer and no ChannelFrame (rule R176). -/
theorem HeldUnder.wrregWrite {s : State} (h : HeldUnder s) (rn : Half) (v : List Byte) :
    HeldUnder (wrregWrite rn v s) := by
  unfold Machine.wrregWrite
  split
  · exact h
  · exact h.congr {}

/-- Settles O57: every write of a buffer or of the ChannelFrame writes its length with it. -/
theorem stepKeepsWhichElementsHoldValues : Obligations.StepKeepsWhichElementsHoldValues := by
  intro s t h hstep
  refine (stepClosed_step heldUnder_closed ?_ (fun _ => id) (fun hv => ⟨hv, h⟩) ?_ ?_ ?_ hstep).2
  · exact fun _ _ _ hs => hs.congr {}
  · exact fun _ hs => hs.congr {}
  · exact fun a hs _ => ⟨hs.1, heldInv_resetRegisters s a⟩
  · exact fun _ rn v _ hu _ _ _ _ => hu.wrregWrite rn v

end Sys2Proof.Machine
end

section
/-! What only a `RESET` undoes: the sticky bits of `STATUS`, and the SessionParameters of a session (rules R24, R49, R253). -/

namespace Sys2Proof.Machine

/-- From `s` to `t` no sticky bit was cleared and, if a session was active in `s`, SessionParameters were not written. -/
structure Sticky (s t : State) : Prop where
  sp : s.sessActive = true → t.sp = s.sp
  hang : s.hang = true → t.hang = true
  txto : s.txto = true → t.txto = true
  refused : s.refused = true → t.refused = true

/-- `t` is not abandoned later: no `RESET` stands inside. -/
abbrev StickyNoReset (s t : State) : Prop := Sticky s t ∧ noResetInside t = true

/-- `u` has what `t` has in `STATUS`, SessionParameters and the instants to come. -/
structure SameSticky (t u : State) : Prop where
  sp : u.sp = t.sp := by rfl
  hang : u.hang = t.hang := by rfl
  txto : u.txto = t.txto := by rfl
  refused : u.refused = t.refused := by rfl
  gaps : u.gaps = t.gaps := by rfl

theorem StickyNoReset.congr {s t u : State} (h : StickyNoReset s t) (e : SameSticky t u) : StickyNoReset s u where
  left :=
    { sp := fun hs => e.sp.trans (h.1.sp hs)
      hang := fun hs => e.hang.trans (h.1.hang hs)
      txto := fun hs => e.txto.trans (h.1.txto hs)
      refused := fun hs => e.refused.trans (h.1.refused hs) }
  right := by rw [noResetInside, e.gaps]; exact h.2

theorem stickyNoReset_closed (s : State) : StepClosed (StickyNoReset s) fun _ => False where
  point := pointKeeps_noReset (P := Sticky s) (fun _ _ h => { h with }) (fun _ h => { h with })
    (fun _ h => { h with refused := fun _ => rfl })
  same := fun _ _ h e => h.congr ⟨e.sp, e.hang, e.txto, e.refused, e.gaps⟩
  put := fun _ _ _ h => h.congr {}
  note := fun _ _ h => ⟨{ h.1 with refused := fun _ => rfl }, h.2⟩
  hang := fun _ h => ⟨{ h.1 with hang := fun _ => rfl }, h.2⟩
  rx := fun _ _ h _ => h.congr {}
  unpack := fun _ _ _ h _ => h.congr {}
  txwait := fun _ _ _ h => ⟨{ h.1 with txto := fun hs => by simp [txwaitWrite, h.1.txto hs] }, h.2⟩
  txLoad := fun _ _ h _ _ => h.congr {}
  txT0 := fun _ _ h => h.congr {}
  hopcnt := fun _ h => h.congr {}
  interval := fun _ h => h.congr {}
  endsess := fun _ h => h.congr {}
  attach := fun _ h => h.congr {}
  setup := fun _ _ h => h.congr {}

/-- A `WRREG` is accepted only outside a session (rules R24, R176). -/
theorem stickyNoReset_wrreg (s : State) : WrregKeeps (StickyNoReset s) s := by
  intro rn v t h _ _ hact hc
  have hs : s.sessActive = false := hact ▸ sessActive_of_wrregCheck hc
  unfold wrregWrite
  split
  · exact h
  · exact ⟨{ h.1 with sp := fun ha => absurd (hs.symm.trans ha) nofun }, h.2⟩

/-- Settles O60: no change of state but a `RESET` clears a sticky bit, and an accepted `WRREG` is outside a session. -/
theorem onlyResetClearsStatusOrWritesALockedSession : Obligations.OnlyResetClearsStatusOrWritesALockedSession := by
  intro s t hstep hno hhead
  have h : StickyNoReset s t := by
    refine stepClosed_step (stickyNoReset_closed s) ?_ (fun _ => False.elim) (fun _ => ⟨⟨fun _ => rfl, id, id, id⟩, hno⟩)
      ?_ ?_ (fun _ => stickyNoReset_wrreg s) hstep
    · exact fun _ _ _ hu => hu.congr {}
    · exact fun _ hu => hu.congr {}
    · exact fun a _ ha => absurd (by rw [ha]; rfl) hhead
  exact ⟨h.1.sp, h.1.hang, h.1.txto, h.1.refused⟩

end Sys2Proof.Machine
end

section
/-! The sequencer left to itself, and the state after `RESET` (rules R31, R51 to R53, R290). -/

namespace Sys2Proof.Machine

/-- Settles O8: `fetch` answers by the phase alone. -/
theorem stepRunsTheSequencerOnItsOwn : Obligations.StepRunsTheSequencerOnItsOwn := by
  intro s hv ha
  constructor
  · intro hp
    simp only [step, hv, if_true, fetch_own ha, fetchOwn, hp]
  · intro i u hp he
    simp only [step, hv, if_true, fetch_own ha, fetchOwn, hp, he]

/-- An element of a hop list with nothing listed reads 0 (rules R23, R51). -/
theorem hopAt_nil (i : Nat) : hopAt [] i = 0#8 := rfl

/-- What a register reads after `RESET` (rule R51). -/
theorem regValue_resetRegisters (s : State) (r : Reg) :
    regValue (resetRegisters s) r = match r with
      | .frame _ | .rxbuf _ | .txbuf _ => none
      | _ => some 0 := by
  cases r with
  | hop i => exact congrArg (fun b : Byte => some b.toNat) (hopAt_nil i)
  | linkFlags => exact congrArg some (linkFlagsWord_toNat _)
  | status => exact congrArg some (statusWord_toNat _)
  | _ => rfl

/-- Settles O51. -/
theorem resetPutsEveryRegisterAtItsValue : Obligations.ResetPutsEveryRegisterAtItsValue := fun s =>
  ⟨resetRegisters s, rfl, rfl, rfl, rfl, rfl, rfl, rfl, rfl, rfl, rfl, rfl, rfl, rfl, regValue_resetRegisters s⟩

/-- The reset state is what a `RESET` leaves of itself, with nothing presented (rules R52, R290). -/
theorem reset_eq_resetRegisters : State.reset = { resetRegisters State.reset with agenda := [] } := rfl

/-- Before the first session the quality bitmask says nothing (rule R235). -/
theorem qualityInv_of_inactive {s : State} (h : s.sessActive = false) : QualityInv s where
  missed := fun hs => absurd (h.symm.trans hs) nofun
  received := fun hs => absurd (h.symm.trans hs) nofun

/-- Settles O54: the reset state is one that a `RESET` leaves under the valid configuration TC1 (log entry 2). -/
theorem resetMeetsTheInvariants : Obligations.ResetMeetsTheInvariants := by
  have hv : State.reset.cfg.valid = true := by decide
  have hrest : Resting State.reset := reset_eq_resetRegisters ▸ resting_resetRegisters hv rfl
  exact ⟨hv, (resting_iff.1 hrest).2, qualityInv_of_inactive rfl,
    reset_eq_resetRegisters ▸ heldInv_resetRegisters State.reset [], reset_canonical⟩

end Sys2Proof.Machine
end

section
/-! The byte arrays keep their canonical form (rule R60, log entry 22): a buffer is only ever written as one block from index
0, and the hop list only by a `WRREG`, element by element. -/

namespace Sys2Proof.Machine

theorem canonical_iff {s : State} :
    canonical s = true ↔ memWf .hop s.sp.hop = true ∧ memWf .rxbuf s.rxbuf = true ∧ memWf .txbuf s.txbuf = true := by
  rw [canonical, Bool.and_eq_true, Bool.and_eq_true, and_assoc]

/-- `t` has the byte arrays of `s`. -/
structure SameArrays (s t : State) : Prop where
  hop : t.sp.hop = s.sp.hop := by rfl
  rxbuf : t.rxbuf = s.rxbuf := by rfl
  txbuf : t.txbuf = s.txbuf := by rfl

theorem canonical_congr {s t : State} (h : canonical s = true) (e : SameArrays s t) : canonical t = true := by
  rw [canonical, e.hop, e.rxbuf, e.txbuf]
  exact h

/-- A block written from index 0 is in canonical form (rule R46). -/
theorem memWf_bufferOf {sp : Space} (hs : unlisted sp = none) (bytes : List Byte) : memWf sp (bufferOf bytes) = true :=
  memWf_memBlock hs 0 bytes

theorem canonical_rxStore {s : State} (h : canonical s = true) (bytes : List Byte) : canonical (rxStore bytes s) = true :=
  have ⟨hhop, _, htx⟩ := canonical_iff.1 h
  canonical_iff.2 ⟨hhop, memWf_bufferOf rfl bytes, htx⟩

theorem canonical_txLoad {s : State} (h : canonical s = true) (d : List Byte) : canonical (txLoad d s) = true :=
  have ⟨hhop, hrx, _⟩ := canonical_iff.1 h
  canonical_iff.2 ⟨hhop, hrx, memWf_bufferOf rfl d⟩

/-- Of the registers of SessionParameters only a hop-list element is part of a byte array (rules R23, R176). -/
theorem memWf_writeReg_hop {sp : SessionParams} (h : memWf .hop sp.hop = true) (v : Nat) (r : Reg) :
    memWf .hop (writeReg sp v r).hop = true := by
  cases r with
  | hop i => exact memWf_memWrite h i _
  | _ => exact h

theorem canonical_wrregWrite {s : State} (h : canonical s = true) (rn : Half) (v : List Byte) :
    canonical (wrregWrite rn v s) = true := by
  unfold wrregWrite
  split
  · exact h
  · obtain ⟨hhop, hrx, htx⟩ := canonical_iff.1 h
    exact canonical_iff.2 ⟨memWf_writeReg_hop hhop _ _, hrx, htx⟩

/-- After a `RESET` no element of an array is listed (rule R51). -/
theorem canonical_resetRegisters (s : State) (a : List Presented) :
    canonical { resetRegisters s with agenda := a } = true := rfl

theorem canonical_closed : StepClosed (fun s => canonical s = true) fun s => canonical s = true where
  point := pointKeeps_of (fun _ _ h => canonical_congr h {}) (fun _ h => canonical_congr h {})
    (fun _ h => canonical_congr h {}) (fun s _ _ => canonical_resetRegisters s _)
  same := fun _ _ h e => canonical_congr h ⟨congrArg SessionParams.hop e.sp, e.rxbuf, e.txbuf⟩
  put := fun _ _ _ h => canonical_congr h {}
  note := fun _ _ h => canonical_congr h {}
  hang := fun _ h => canonical_congr h {}
  rx := fun bytes _ h _ => canonical_rxStore h bytes
  unpack := fun _ _ _ h _ => canonical_congr h {}
  txwait := fun _ _ _ h => canonical_congr h {}
  txLoad := fun d _ h _ _ => canonical_txLoad h d
  txT0 := fun _ _ h => canonical_congr h {}
  hopcnt := fun _ h => canonical_congr h {}
  interval := fun _ h => canonical_congr h {}
  endsess := fun _ h => canonical_congr h {}
  attach := fun _ h => canonical_congr h {}
  setup := fun _ _ h => canonical_congr h {}

/-- Settles O58: the writes of an array are blocks in the buffers and single elements of the hop list. -/
theorem stepKeepsTheArraysCanonical : Obligations.StepKeepsTheArraysCanonical := by
  intro s t h hstep
  refine stepClosed_step canonical_closed ?_ (fun _ => id) (fun _ => h) ?_ ?_ ?_ hstep
  · exact fun _ _ _ hs => canonical_congr hs {}
  · exact fun _ hs => canonical_congr hs {}
  · exact fun a _ _ => canonical_resetRegisters s a
  · exact fun _ rn v _ hu _ _ _ _ => canonical_wrregWrite hu rn v

end Sys2Proof.Machine
end

section
/-! What a `POLL` leaves alone (rules R72, R143, R205): the session, its cached values and the transmit side. -/

namespace Sys2Proof.Machine

/-- `t` has what `s` has of the configuration, the session, its cached values and the transmit side. -/
structure SessionAndTransmitKept (s t : State) : Prop where
  cfg : t.cfg = s.cfg := by rfl
  sp : t.sp = s.sp := by rfl
  sessActive : t.sessActive = s.sessActive := by rfl
  consumerAttached : t.consumerAttached = s.consumerAttached := by rfl
  hopcount : t.hopcount = s.hopcount := by rfl
  interval : t.interval = s.interval := by rfl
  txbuf : t.txbuf = s.txbuf := by rfl
  txLen : t.txLen = s.txLen := by rfl
  txT0 : t.txT0 = s.txT0 := by rfl
  txto : t.txto = s.txto := by rfl

theorem SessionAndTransmitKept.trans {s t u : State} (h : SessionAndTransmitKept s t)
    (e : SessionAndTransmitKept t u) : SessionAndTransmitKept s u where
  cfg := e.cfg.trans h.cfg
  sp := e.sp.trans h.sp
  sessActive := e.sessActive.trans h.sessActive
  consumerAttached := e.consumerAttached.trans h.consumerAttached
  hopcount := e.hopcount.trans h.hopcount
  interval := e.interval.trans h.interval
  txbuf := e.txbuf.trans h.txbuf
  txLen := e.txLen.trans h.txLen
  txT0 := e.txT0.trans h.txT0
  txto := e.txto.trans h.txto

theorem SameNamed.sessionAndTransmitKept {s t : State} (e : SameNamed s t) : SessionAndTransmitKept s t :=
  { e with }

/-- No change of state inside a `POLL` but a `RESET` touches the session or the transmit side. -/
theorem sessionAndTransmitKept_closed (s : State) :
    PollClosed (fun t => SessionAndTransmitKept s t ∧ noResetInside t = true) fun _ => False where
  point := pointKeeps_noReset (P := SessionAndTransmitKept s) (fun _ _ h => h.trans {}) (fun _ h => h.trans {})
    (fun _ h => h.trans {})
  same := fun _ _ h e => ⟨h.1.trans e.sessionAndTransmitKept, by rw [noResetInside, e.gaps]; exact h.2⟩
  put := fun _ _ _ h => ⟨h.1.trans {}, h.2⟩
  note := fun _ _ h => ⟨h.1.trans {}, h.2⟩
  hang := fun _ h => ⟨h.1.trans {}, h.2⟩
  rx := fun _ _ h _ => ⟨h.1.trans {}, h.2⟩
  unpack := fun _ _ _ h _ => ⟨h.1.trans {}, h.2⟩

/-- A `POLL`, refused or not, in which no `RESET` stands. -/
theorem sessionAndTransmitKept_poll {s : State} (hno : noResetInside s = true) :
    SessionAndTransmitKept s (command pollCheck [pollSteps] noValue s) := by
  have C := sessionAndTransmitKept_closed s
  refine pollClosed_command C (fun _ _ _ ht => ht.1.trans {}) (fun _ => False.elim) ⟨{}, hno⟩ fun t ht _ => ?_
  exact Ends.last (pollClosed_poll C ht)

/-- Settles O43: the steps of a `POLL` write neither the session nor the transmit side. -/
theorem pollLeavesTheSessionAlone : Obligations.PollLeavesTheSessionAlone := by
  intro s t hpoll hno
  injection hpoll with hpoll
  subst hpoll
  have k := sessionAndTransmitKept_poll hno
  exact ⟨k.cfg, k.sp, k.sessActive, k.consumerAttached, k.hopcount, k.interval, k.txbuf, k.txLen, k.txT0, k.txto⟩

end Sys2Proof.Machine
end

section
/-! The command frames (rules R103 to R108): the decoder accepts exactly the frames of well-formed operations, where only
bits 7:3 of a `cfg` byte are free (`decode_eq_ok_iff`), and rejects exactly the codes of no operation as unassigned. -/

namespace Sys2Proof

/-! ## Two-byte values and counted lists -/

@[simp] theorem loByte_half (lo hi : Byte) : loByte (half lo hi) = lo := BitVec.extractLsb'_append_eq_right

@[simp] theorem hiByte_half (lo hi : Byte) : hiByte (half lo hi) = hi := BitVec.extractLsb'_append_eq_left

/-- What a length byte says: the list is that long, and its length fits the byte (rule R103). -/
theorem length_eq_toNat_iff {α : Type} {l : List α} {n : Byte} :
    l.length = n.toNat ↔ l.length ≤ maxCount ∧ n = countByte l := by
  constructor
  · intro h
    refine ⟨?_, ?_⟩
    · have := n.isLt
      simp only [maxCount]
      omega
    · rw [countByte, h, BitVec.ofNat_toNat, BitVec.setWidth_eq]
  · rintro ⟨h, rfl⟩
    exact (countByte_toNat h).symm

theorem takeBytes_eq_some_iff {n : Byte} {bytes d rest : List Byte} :
    takeBytes n.toNat bytes = some (d, rest) ↔ d.length ≤ maxCount ∧ n = countByte d ∧ bytes = d ++ rest := by
  rw [← and_assoc, ← length_eq_toNat_iff]
  constructor
  · exact fun h => (takeBytes_some h).symm
  · rintro ⟨h, rfl⟩
    rw [← h]
    exact takeBytes_append d rest

/-- Two-byte values are read from the bytes that write them (rule R106). -/
theorem takeHalves_eq_halvesBytes {n : Nat} {bytes rest : List Byte} {d : List Half}
    (h : takeHalves n bytes = some (d, rest)) : d.length = n ∧ bytes = halvesBytes d ++ rest := by
  induction n, bytes using takeHalves.induct generalizing d with
  | case1 r =>
    simp only [takeHalves, Option.some.injEq, Prod.mk.injEq] at h
    obtain ⟨rfl, rfl⟩ := h
    exact ⟨rfl, rfl⟩
  | case2 n lo hi r ih =>
    simp only [takeHalves, Option.map_eq_some_iff, Prod.mk.injEq] at h
    obtain ⟨⟨e, f⟩, he, rfl, rfl⟩ := h
    obtain ⟨hl, rfl⟩ := ih he
    simp [halvesBytes, hl]
  | case3 => simp_all [takeHalves]

theorem takeHalves_eq_some_iff {n : Byte} {bytes rest : List Byte} {d : List Half} :
    takeHalves n.toNat bytes = some (d, rest) ↔
      d.length ≤ maxCount ∧ n = countByte d ∧ bytes = halvesBytes d ++ rest := by
  rw [← and_assoc, ← length_eq_toNat_iff]
  constructor
  · exact takeHalves_eq_halvesBytes
  · rintro ⟨h, rfl⟩
    rw [← h]
    exact takeHalves_append d rest

/-! ## What the decoder of each operand format accepts (rule R107) -/

theorem decodeWrreg_eq_ok_iff {bytes rest : List Byte} {i : Instr} : decodeWrreg bytes = .ok (i, rest) ↔
    ∃ rn v, v.length ≤ maxCount ∧ i = .wrreg rn v ∧ bytes = operands (.wrreg rn v) ++ rest := by
  constructor
  · fun_cases decodeWrreg bytes with
    | case1 lo hi n r v rest' ht =>
      rintro ⟨⟩
      obtain ⟨hl, rfl, rfl⟩ := takeBytes_eq_some_iff.1 ht
      exact ⟨half lo hi, v, hl, rfl, by simp [operands]⟩
    | case2 | case3 => nofun
  · rintro ⟨rn, v, hl, rfl, rfl⟩
    simp [decodeWrreg, operands, takeBytes_eq_some_iff.2 ⟨hl, rfl, rfl⟩]

theorem decodeRdreg_eq_ok_iff {bytes rest : List Byte} {i : Instr} : decodeRdreg bytes = .ok (i, rest) ↔
    ∃ rn, i = .rdreg rn ∧ bytes = operands (.rdreg rn) ++ rest := by
  constructor
  · fun_cases decodeRdreg bytes with
    | case1 lo hi rest' =>
      rintro ⟨⟩
      exact ⟨half lo hi, rfl, by simp [operands]⟩
    | case2 => nofun
  · rintro ⟨rn, rfl, rfl⟩
    simp [decodeRdreg, operands]

theorem decodePktsize_eq_ok_iff {bytes rest : List Byte} {i : Instr} : decodePktsize bytes = .ok (i, rest) ↔
    ∃ f, i = .pktsize f ∧ bytes = f :: rest := by
  cases bytes with
  | nil => simp [decodePktsize]
  | cons f r => simp [decodePktsize, eq_comm]

theorem decodeProgch_eq_ok_iff {bytes rest : List Byte} {i : Instr} : decodeProgch bytes = .ok (i, rest) ↔
    ∃ k, i = .progch k ∧ bytes = k :: rest := by
  cases bytes with
  | nil => simp [decodeProgch]
  | cons k r => simp [decodeProgch, eq_comm]

theorem decodeUnpack_eq_ok_iff {bytes rest : List Byte} {i : Instr} : decodeUnpack bytes = .ok (i, rest) ↔
    ∃ b p, p.length ≤ maxCount ∧ i = .unpack (cfgField b) p ∧ bytes = b :: countByte p :: p ++ rest := by
  constructor
  · fun_cases decodeUnpack bytes with
    | case1 b n r p rest' ht =>
      rintro ⟨⟩
      obtain ⟨hl, rfl, rfl⟩ := takeBytes_eq_some_iff.1 ht
      exact ⟨b, p, hl, rfl, rfl⟩
    | case2 | case3 => nofun
  · rintro ⟨b, p, hl, rfl, rfl⟩
    simp [decodeUnpack, takeBytes_eq_some_iff.2 ⟨hl, rfl, rfl⟩]

theorem decodePack_eq_ok_iff {bytes rest : List Byte} {i : Instr} : decodePack bytes = .ok (i, rest) ↔
    ∃ b ch, ch.length ≤ maxCount ∧ i = .pack (cfgField b) ch ∧ bytes = b :: countByte ch :: halvesBytes ch ++ rest := by
  constructor
  · fun_cases decodePack bytes with
    | case1 b n r ch rest' ht =>
      rintro ⟨⟩
      obtain ⟨hl, rfl, rfl⟩ := takeHalves_eq_some_iff.1 ht
      exact ⟨b, ch, hl, rfl, rfl⟩
    | case2 | case3 => nofun
  · rintro ⟨b, ch, hl, rfl, rfl⟩
    simp [decodePack, takeHalves_eq_some_iff.2 ⟨hl, rfl, rfl⟩]

theorem decodePayload_eq_ok_iff {op : List Byte → Instr} {bytes rest : List Byte} {i : Instr} :
    decodePayload op bytes = .ok (i, rest) ↔
      ∃ d, d.length ≤ maxCount ∧ i = op d ∧ bytes = countByte d :: d ++ rest := by
  constructor
  · fun_cases decodePayload op bytes with
    | case1 n r d rest' ht =>
      rintro ⟨⟩
      obtain ⟨hl, rfl, rfl⟩ := takeBytes_eq_some_iff.1 ht
      exact ⟨d, hl, rfl, rfl⟩
    | case2 | case3 => nofun
  · rintro ⟨d, hl, rfl, rfl⟩
    simp [decodePayload, takeBytes_eq_some_iff.2 ⟨hl, rfl, rfl⟩]

/-! ## The decoder by the operation whose code stands first -/

/-- The decoder of the operand bytes after the code of `i`: it looks at the code of `i` only. -/
def decodeOperands : Instr → List Byte → Decoded
  | .wrreg .. => decodeWrreg
  | .rdreg _ => decodeRdreg
  | .pktsize _ => decodePktsize
  | .unpack .. => decodeUnpack
  | .pack .. => decodePack
  | .progch _ => decodeProgch
  | .txstart _ => decodePayload .txstart
  | .send _ => decodePayload .send
  | i => fun r => .ok (i, r)

theorem decode_opcode_cons (i : Instr) (r : List Byte) : decode (opcode i :: r) = decodeOperands i r := by
  cases i <;> rfl

/-- The table of the decoder has no row that is not an operation's: one operation for each row, in the order of rule R107. -/
theorem decodeOp_eq_badOpcode {n : Nat} (h : ∀ i, (opcode i).toNat ≠ n) (r : List Byte) :
    decodeOp n r = .error .badOpcode := by
  unfold decodeOp
  split
  exacts [absurd rfl (h .nop), absurd rfl (h (.wrreg 0 [])), absurd rfl (h (.rdreg 0)), absurd rfl (h .attach),
    absurd rfl (h (.pktsize 0)), absurd rfl (h (.unpack 0 [])), absurd rfl (h (.pack 0 [])), absurd rfl (h .interval),
    absurd rfl (h .hopcnt), absurd rfl (h .advance), absurd rfl (h (.progch 0)), absurd rfl (h .setup),
    absurd rfl (h .rxenter), absurd rfl (h (.txstart [])), absurd rfl (h (.send [])), absurd rfl (h .poll),
    absurd rfl (h .endsess), absurd rfl (h .irq), absurd rfl (h .reset), absurd rfl (h .p1Health),
    absurd rfl (h .p2Rxproc), absurd rfl (h .p3Rssi), absurd rfl (h .p4Loss), absurd rfl (h .p5Hop),
    absurd rfl (h .txwait), absurd rfl (h .qhit), absurd rfl (h .qmiss), absurd rfl (h .qclr),
    absurd rfl (h .rssisamp), absurd rfl (h .rssiclr), rfl]

/-- An unassigned code is rejected, whatever follows (rules R107, R108). -/
theorem decode_unassigned {c : Byte} (h : ∀ i, opcode i ≠ c) (r : List Byte) : decode (c :: r) = .error .badOpcode :=
  decodeOp_eq_badOpcode (fun i hi => h i (BitVec.eq_of_toNat_eq hi)) r

/-- Behind an assigned code no bytes are rejected as unassigned: the only error there is that they end too early (rule
R103). -/
theorem decodeOperands_ne_badOpcode (i : Instr) (r : List Byte) : decodeOperands i r ≠ .error .badOpcode := by
  cases i with
  | wrreg => change decodeWrreg r ≠ _; fun_cases decodeWrreg r <;> nofun
  | rdreg => change decodeRdreg r ≠ _; fun_cases decodeRdreg r <;> nofun
  | pktsize => change decodePktsize r ≠ _; fun_cases decodePktsize r <;> nofun
  | unpack => change decodeUnpack r ≠ _; fun_cases decodeUnpack r <;> nofun
  | pack => change decodePack r ≠ _; fun_cases decodePack r <;> nofun
  | progch => change decodeProgch r ≠ _; fun_cases decodeProgch r <;> nofun
  | txstart => change decodePayload _ r ≠ _; fun_cases decodePayload _ r <;> nofun
  | send => change decodePayload _ r ≠ _; fun_cases decodePayload _ r <;> nofun
  | _ => nofun

/-! ## Frames -/

/-- The operand bytes of a frame of the operation: those `operands` writes, or the same with any bits 7:3 in the `cfg` byte of
`UNPACK` and `PACK` (rule R106). -/
inductive OperandBytes : Instr → List Byte → Prop
  | written (i : Instr) : OperandBytes i (operands i)
  | unpack (b : Byte) (p : List Byte) : OperandBytes (.unpack (cfgField b) p) (b :: countByte p :: p)
  | pack (b : Byte) (ch : List Half) : OperandBytes (.pack (cfgField b) ch) (b :: countByte ch :: halvesBytes ch)

/-- The free bits leave the length of the frame alone (rule R103). -/
theorem OperandBytes.length_eq {i : Instr} {ops : List Byte} (h : OperandBytes i ops) :
    ops.length = (operands i).length := by
  cases h <;> rfl

theorem decodeOperands_of_operandBytes {i : Instr} {ops : List Byte} (hw : i.wellFormed = true)
    (ho : OperandBytes i ops) (rest : List Byte) : decodeOperands i (ops ++ rest) = .ok (i, rest) := by
  cases ho with
  | unpack b p => exact decodeUnpack_eq_ok_iff.2 ⟨b, p, (wellFormed_unpack _ _).1 hw, rfl, rfl⟩
  | pack b ch => exact decodePack_eq_ok_iff.2 ⟨b, ch, (wellFormed_pack _ _).1 hw, rfl, rfl⟩
  | written =>
    cases i with
    | wrreg rn v => exact decodeWrreg_eq_ok_iff.2 ⟨rn, v, (wellFormed_wrreg _ _).1 hw, rfl, rfl⟩
    | rdreg rn => exact decodeRdreg_eq_ok_iff.2 ⟨rn, rfl, rfl⟩
    | unpack c p =>
      exact decodeUnpack_eq_ok_iff.2 ⟨c.setWidth 8, p, (wellFormed_unpack _ _).1 hw, by rw [cfgField_setWidth], rfl⟩
    | pack c ch =>
      exact decodePack_eq_ok_iff.2 ⟨c.setWidth 8, ch, (wellFormed_pack _ _).1 hw, by rw [cfgField_setWidth], rfl⟩
    | txstart d => exact decodePayload_eq_ok_iff.2 ⟨d, (wellFormed_txstart _).1 hw, rfl, rfl⟩
    | send d => exact decodePayload_eq_ok_iff.2 ⟨d, (wellFormed_send _).1 hw, rfl, rfl⟩
    | _ => rfl

theorem operandBytes_of_decodeOperands {j i : Instr} {r rest : List Byte} (h : decodeOperands j r = .ok (i, rest)) :
    i.wellFormed = true ∧ opcode i = opcode j ∧ ∃ ops, OperandBytes i ops ∧ r = ops ++ rest := by
  cases j with
  | wrreg =>
    obtain ⟨rn, v, hl, rfl, rfl⟩ := decodeWrreg_eq_ok_iff.1 h
    exact ⟨(wellFormed_wrreg _ _).2 hl, rfl, _, .written _, rfl⟩
  | rdreg =>
    obtain ⟨rn, rfl, rfl⟩ := decodeRdreg_eq_ok_iff.1 h
    exact ⟨rfl, rfl, _, .written _, rfl⟩
  | pktsize =>
    obtain ⟨f, rfl, rfl⟩ := decodePktsize_eq_ok_iff.1 h
    exact ⟨rfl, rfl, _, .written _, rfl⟩
  | unpack =>
    obtain ⟨b, p, hl, rfl, rfl⟩ := decodeUnpack_eq_ok_iff.1 h
    exact ⟨(wellFormed_unpack _ _).2 hl, rfl, _, .unpack b p, rfl⟩
  | pack =>
    obtain ⟨b, ch, hl, rfl, rfl⟩ := decodePack_eq_ok_iff.1 h
    exact ⟨(wellFormed_pack _ _).2 hl, rfl, _, .pack b ch, rfl⟩
  | progch =>
    obtain ⟨k, rfl, rfl⟩ := decodeProgch_eq_ok_iff.1 h
    exact ⟨rfl, rfl, _, .written _, rfl⟩
  | txstart =>
    obtain ⟨d, hl, rfl, rfl⟩ := decodePayload_eq_ok_iff.1 h
    exact ⟨(wellFormed_txstart _).2 hl, rfl, _, .written _, rfl⟩
  | send =>
    obtain ⟨d, hl, rfl, rfl⟩ := decodePayload_eq_ok_iff.1 h
    exact ⟨(wellFormed_send _).2 hl, rfl, _, .written _, rfl⟩
  | _ =>
    cases h
    exact ⟨rfl, rfl, [], .written _, rfl⟩

/-- The decoder accepts exactly the frames of well-formed operations, whatever follows them (rules R103, R107). -/
theorem decode_eq_ok_iff {bytes rest : List Byte} {i : Instr} : decode bytes = .ok (i, rest) ↔
    i.wellFormed = true ∧ ∃ ops, OperandBytes i ops ∧ bytes = opcode i :: ops ++ rest := by
  constructor
  · intro h
    cases bytes with
    | nil => cases h
    | cons c r =>
      by_cases hc : ∃ j, opcode j = c
      · obtain ⟨j, rfl⟩ := hc
        rw [decode_opcode_cons] at h
        obtain ⟨hw, hj, ops, ho, rfl⟩ := operandBytes_of_decodeOperands h
        exact ⟨hw, ops, ho, by rw [hj]; rfl⟩
      · rw [decode_unassigned (not_exists.1 hc)] at h
        cases h
  · rintro ⟨hw, ops, ho, rfl⟩
    rw [List.cons_append, decode_opcode_cons]
    exact decodeOperands_of_operandBytes hw ho rest

/-! ## The statements -/

/-- Settles O1. -/
theorem decodeInvertsEncode : Obligations.DecodeInvertsEncode := fun i _ hw =>
  decode_eq_ok_iff.2 ⟨hw, operands i, .written i, rfl⟩

/-- Settles O2: the frame is the code and the operand bytes; decoding reads these, and nothing of what follows. -/
theorem frameIsDelimitedByCodeAndLength : Obligations.FrameIsDelimitedByCodeAndLength := by
  intro bytes i rest h
  obtain ⟨hw, ops, ho, hb⟩ := decode_eq_ok_iff.1 h
  exact ⟨hw, opcode i :: ops, hb, rfl, congrArg (· + 1) ho.length_eq, fun _ => decode_eq_ok_iff.2 ⟨hw, ops, ho, rfl⟩⟩

/-- Settles O3. -/
theorem unassignedCodesAreRejected : Obligations.UnassignedCodesAreRejected := by
  intro c r
  refine ⟨?_, fun h => decode_unassigned h r⟩
  rintro h i rfl
  rw [decode_opcode_cons] at h
  exact decodeOperands_ne_badOpcode i r h

/-- Settles O4: both decoders read their first byte through `cfgField`. -/
theorem cfgOperandsIgnoreBitsSevenToThree : Obligations.CfgOperandsIgnoreBitsSevenToThree := by
  intro b r
  have hunpack : decodeUnpack (b :: r) = decodeUnpack ((b &&& 0x07#8) :: r) := by
    cases r <;> simp [decodeUnpack, cfgField_and]
  have hpack : decodePack (b :: r) = decodePack ((b &&& 0x07#8) :: r) := by
    cases r <;> simp [decodePack, cfgField_and]
  exact ⟨hunpack, hpack⟩

/-- Settles O5: each frame is a closed list of bytes, and the decoder evaluates on it. -/
theorem writtenOutFramesDecode : Obligations.WrittenOutFramesDecode := by
  unfold Obligations.WrittenOutFramesDecode
  decide

end Sys2Proof
end

section
/-! What a step does with what is presented: a command, an edge on a pin, a micro-operation by its trace code (rules R103 to
R105, R170, R254, R274). -/

namespace Sys2Proof.Machine

theorem step_eq_exec {s t : State} {i : Instr} (hv : s.cfg.valid = true) (hf : fetch s = .run i t) :
    step s = exec i t := by
  simp only [step, hv, if_true, hf]

/-- Command decode accepts a command of class CMD in `PH_IDLE` (rules R103, R256). -/
theorem fetchCommand_eq_run {s : State} {bytes rest : List Byte} {i : Instr} (hp : s.phase = .idle)
    (hd : decode bytes = .ok (i, rest)) (hc : opClass i = .cmd) :
    fetchCommand bytes s = .run i { s with agenda := requeue rest s.agenda } := by
  simp only [fetchCommand, hp, hd, hc, ne_eq, not_true_eq_false, if_false, if_true]

/-- The trace code of a micro-operation is its whole frame (rule R105). -/
theorem decode_traceCode {i : Instr} (hc : opClass i = .uop) : decode [opcode i] = .ok (i, []) := by
  cases i <;> cases hc <;> rfl

theorem fetchUop_opcode {i : Instr} (hc : opClass i = .uop) (s : State) : fetchUop (opcode i) s = .run i s := by
  simp only [fetchUop, decode_traceCode hc, hc, if_true]

/-- Settles O6. -/
theorem stepRunsThePresentedCommand : Obligations.StepRunsThePresentedCommand := by
  intro s bytes r i rest hv hp ha hd hc
  have hf : fetch s = fetchCommand bytes { s with agenda := r } := by simp only [fetch, ha]
  exact step_eq_exec hv (hf.trans (fetchCommand_eq_run hp hd hc))

/-- Settles O7: `fetch` answers by the item presented, before it looks at the phase. -/
theorem stepServesPinsAndMicroOperations : Obligations.StepServesPinsAndMicroOperations := by
  intro s r hv
  refine ⟨fun ha => ?_, fun ha => ?_, fun i hc ha => ?_⟩
  · exact step_eq_exec hv (by simp only [fetch, ha])
  · exact step_eq_exec hv (by simp only [fetch, ha])
  · have hf : fetch s = fetchUop (opcode i) { s with agenda := r } := by simp only [fetch, ha]
    exact step_eq_exec hv (hf.trans (fetchUop_opcode hc _))

/-- Settles O27: exclusive or with one byte is injective. -/
theorem headerBytesAreDistinct : Obligations.HeaderBytesAreDistinct := by
  intro magic magic' i j
  refine ⟨fun hij h => hij ((BitVec.xor_right_inj _).1 h), fun h => ?_⟩
  have hlow : magic.extractLsb' 0 8 = magic'.extractLsb' 0 8 := by
    apply BitVec.eq_of_toNat_eq
    simpa using h
  exact congrArg (· ^^^ i) hlow

end Sys2Proof.Machine
end

section
/-! The Packet Codec: what `PKTSIZE`, `UNPACK` and `PACK` return and write, their refusals, and the codec laws (rules R121
to R124; formats G10 and AUX, rules R93 and R94). -/

namespace Sys2Proof.Machine

/-! ## Bit fields -/

/-- Field `k` of a byte as a number (rule R93). -/
theorem field2_toNat (b : Byte) (k : Nat) : (field2 b k).toNat = b.toNat / 4 ^ k % 4 := by
  rw [field2, BitVec.extractLsb'_toNat, Nat.shiftRight_eq_div_pow, Nat.pow_mul]

theorem loByte_toNat (h : Half) : (loByte h).toNat = h.toNat % 256 := BitVec.extractLsb'_toNat ..

theorem topBits_toNat (ch : Half) : (topBits ch).toNat = ch.toNat / 256 % 4 := by
  rw [topBits, BitVec.extractLsb'_toNat, Nat.shiftRight_eq_div_pow]

theorem joinChannel_toNat (hi : BitVec 2) (lo : Byte) : (joinChannel hi lo).toNat = 256 * hi.toNat + lo.toNat := by
  have hor : hi.toNat <<< 8 ||| lo.toNat = hi.toNat <<< 8 + lo.toNat := (Nat.shiftLeft_add_eq_or_of_lt lo.isLt _).symm
  have := hi.isLt
  have := lo.isLt
  rw [joinChannel, BitVec.toNat_setWidth, BitVec.toNat_append, hor, Nat.shiftLeft_eq]
  omega

theorem auxChannel_toNat (f : BitVec 2) : (auxChannel f).toNat = f.toNat * 333 + 12 := by
  revert f; decide

/-- A 10-bit channel is its low byte and its 2-bit field (rule R93). -/
theorem joinChannel_topBits_loByte {ch : Half} (h : ch.toNat ≤ 1023) : joinChannel (topBits ch) (loByte ch) = ch := by
  apply BitVec.eq_of_toNat_eq
  rw [joinChannel_toNat, topBits_toNat, loByte_toNat]
  omega

@[simp] theorem loByte_joinChannel (hi : BitVec 2) (lo : Byte) : loByte (joinChannel hi lo) = lo := by
  apply BitVec.eq_of_toNat_eq
  have := lo.isLt
  rw [loByte_toNat, joinChannel_toNat]
  omega

@[simp] theorem topBits_joinChannel (hi : BitVec 2) (lo : Byte) : topBits (joinChannel hi lo) = hi := by
  apply BitVec.eq_of_toNat_eq
  have := hi.isLt
  have := lo.isLt
  rw [topBits_toNat, joinChannel_toNat]
  omega

/-- The fields of a byte written from four fields (rule R93). -/
theorem field2_append (f0 f1 f2 f3 : BitVec 2) :
    field2 (f3 ++ f2 ++ f1 ++ f0) 0 = f0 ∧ field2 (f3 ++ f2 ++ f1 ++ f0) 1 = f1 ∧
      field2 (f3 ++ f2 ++ f1 ++ f0) 2 = f2 ∧ field2 (f3 ++ f2 ++ f1 ++ f0) 3 = f3 := by
  revert f0 f1 f2 f3; decide

/-- A byte is its four fields (rule R93). -/
@[simp] theorem append_field2 (b : Byte) : field2 b 3 ++ field2 b 2 ++ field2 b 1 ++ field2 b 0 = b := by
  revert b; decide

/-- A value that is already a level quantises to that level (rule R123). -/
@[simp] theorem quantise_auxChannel (f : BitVec 2) : quantise (auxChannel f) = f := by
  revert f; decide

/-! ## Groups of five bytes and of four channels (rule R93) -/

theorem exists_five_cons {p : List Byte} (h : 5 ≤ p.length) :
    ∃ q0 q1 q2 q3 q4 r, p = q0 :: q1 :: q2 :: q3 :: q4 :: r := by
  match p, h with
  | q0 :: q1 :: q2 :: q3 :: q4 :: r, _ => exact ⟨q0, q1, q2, q3, q4, r, rfl⟩

theorem exists_four_cons {ch : List Half} (h : 4 ≤ ch.length) :
    ∃ c0 c1 c2 c3 r, ch = c0 :: c1 :: c2 :: c3 :: r := by
  match ch, h with
  | c0 :: c1 :: c2 :: c3 :: r, _ => exact ⟨c0, c1, c2, c3, r, rfl⟩

theorem packGroups_length {n : Nat} {ch : List Half} (h : 4 * n ≤ ch.length) : (packGroups n ch).length = 5 * n := by
  induction n generalizing ch with
  | zero => rfl
  | succ n ih =>
    obtain ⟨c0, c1, c2, c3, r, rfl⟩ := exists_four_cons (ch := ch) (by omega)
    simp only [List.length_cons] at h
    simp only [packGroups, packGroup, List.length_append, List.length_cons, List.length_nil, ih (ch := r) (by omega)]
    omega

/-- Channel `k` of group `g` (rule R122). -/
theorem unpackGroups_getElem? {n g k : Nat} {p : List Byte} (h : 5 * n ≤ p.length) (hg : g < n) (hk : k < 4) :
    (unpackGroups n p)[4 * g + k]? =
      some (joinChannel (field2 (p.getD (5 * g + 4) 0#8) k) (p.getD (5 * g + k) 0#8)) := by
  induction n generalizing p g with
  | zero => omega
  | succ n ih =>
    obtain ⟨q0, q1, q2, q3, q4, r, rfl⟩ := exists_five_cons (p := p) (by omega)
    cases g with
    | zero => interval_cases k <;> rfl
    | succ g =>
      have ih := ih (p := r) (g := g) (by simp only [List.length_cons] at h; omega) (by omega)
      rw [show 4 * (g + 1) + k = 4 * g + k + 4 by omega, show 5 * (g + 1) + 4 = 5 * g + 4 + 5 by omega,
        show 5 * (g + 1) + k = 5 * g + k + 5 by omega]
      exact ih

/-- Low byte `k` of group `g`, and field `k` of its fifth byte (rule R123). -/
theorem packGroups_getD {n g k : Nat} {ch : List Half} (h : 4 * n ≤ ch.length) (hg : g < n) (hk : k < 4) :
    (packGroups n ch).getD (5 * g + k) 0#8 = loByte (ch.getD (4 * g + k) 0#16) ∧
      field2 ((packGroups n ch).getD (5 * g + 4) 0#8) k = topBits (ch.getD (4 * g + k) 0#16) := by
  induction n generalizing ch g with
  | zero => omega
  | succ n ih =>
    obtain ⟨c0, c1, c2, c3, r, rfl⟩ := exists_four_cons (ch := ch) (by omega)
    cases g with
    | zero =>
      obtain ⟨h0, h1, h2, h3⟩ := field2_append (topBits c0) (topBits c1) (topBits c2) (topBits c3)
      interval_cases k
      exacts [⟨rfl, h0⟩, ⟨rfl, h1⟩, ⟨rfl, h2⟩, ⟨rfl, h3⟩]
    | succ g =>
      have ih := ih (ch := r) (g := g) (by simp only [List.length_cons] at h; omega) (by omega)
      rw [show 4 * (g + 1) + k = 4 * g + k + 4 by omega, show 5 * (g + 1) + k = 5 * g + k + 5 by omega,
        show 5 * (g + 1) + 4 = 5 * g + 4 + 5 by omega]
      exact ih

/-- Packing the channels of the groups at the front of a payload gives these groups back, whatever channels follow (rule
R124 iii). -/
theorem packGroups_unpackGroups {n : Nat} {p : List Byte} (h : 5 * n ≤ p.length) (l : List Half) :
    packGroups n (unpackGroups n p ++ l) = p.take (5 * n) := by
  induction n generalizing p with
  | zero => rfl
  | succ n ih =>
    obtain ⟨q0, q1, q2, q3, q4, r, rfl⟩ := exists_five_cons (p := p) (by omega)
    have ih := ih (p := r) (by simp only [List.length_cons] at h; omega)
    simp only [unpackGroups, unpackGroup, List.cons_append, List.nil_append, packGroups, packGroup, loByte_joinChannel,
      topBits_joinChannel, append_field2, ih]
    rfl

/-! ## The channels of a payload, and the payload of channels -/

theorem auxOf_eq_zero_or_one (c : BitVec 3) : Config.auxOf c = 0 ∨ Config.auxOf c = 1 := Nat.mod_two_eq_zero_or_one _

/-- The groups stand at the front of a payload (rule R92). -/
theorem groups_le_of_length {cfg : Config} {c : BitVec 3} {p : List Byte} (h : p.length = cfg.payloadLen c) :
    5 * cfg.ngroupsOf c ≤ p.length := by
  rw [h]; exact Nat.le_add_right ..

theorem groups_le_of_count {cfg : Config} {c : BitVec 3} {ch : List Half} (h : ch.length = cfg.channelCount c) :
    4 * cfg.ngroupsOf c ≤ ch.length := by
  rw [h]; exact Nat.le_add_right ..

/-- The auxiliary byte stands behind the groups (rule R92). -/
theorem drop_groups_of_length {cfg : Config} {c : BitVec 3} {p : List Byte} (h : p.length = cfg.payloadLen c)
    (ha : Config.auxOf c = 1) : p.drop (5 * cfg.ngroupsOf c) = [p.getD (5 * cfg.ngroupsOf c) 0#8] := by
  have hlt : 5 * cfg.ngroupsOf c < p.length := by rw [h, Config.payloadLen, ha]; omega
  have hnil : p.drop (5 * cfg.ngroupsOf c + 1) = [] := List.drop_eq_nil_of_le (by rw [h, Config.payloadLen, ha])
  rw [List.drop_eq_getElem_cons hlt, hnil, List.getD_eq_getElem _ _ hlt]

/-- The auxiliary channels stand behind those of the groups (rule R123). -/
theorem drop_groups_of_count {cfg : Config} {c : BitVec 3} {ch : List Half} (h : ch.length = cfg.channelCount c)
    (ha : Config.auxOf c = 1) : ∃ a0 a1 a2 a3, ch.drop (4 * cfg.ngroupsOf c) = [a0, a1, a2, a3] := by
  have hl : (ch.drop (4 * cfg.ngroupsOf c)).length = 4 := by rw [List.length_drop, h, Config.channelCount, ha]; omega
  match ch.drop (4 * cfg.ngroupsOf c), hl with
  | [a0, a1, a2, a3], _ => exact ⟨a0, a1, a2, a3, rfl⟩

section

variable {cfg : Config} {c : BitVec 3} {p : List Byte} (h : p.length = cfg.payloadLen c)

include h

/-- The 10-bit channels of a payload (rules R93, R122). -/
theorem unpackChannels_group {g k : Nat} (hg : g < cfg.ngroupsOf c) (hk : k < 4) :
    (unpackChannels cfg c p)[4 * g + k]? =
      some (joinChannel (field2 (p.getD (5 * g + 4) 0#8) k) (p.getD (5 * g + k) 0#8)) := by
  have hlen := unpackGroups_length (groups_le_of_length h)
  rw [unpackChannels, List.getElem?_append_left (by omega), unpackGroups_getElem? (groups_le_of_length h) hg hk]

/-- The auxiliary channels of a payload (rules R94, R122). -/
theorem unpackChannels_aux (ha : Config.auxOf c = 1) {j : Nat} (hj : j < 4) :
    (unpackChannels cfg c p)[4 * cfg.ngroupsOf c + j]? =
      some (auxChannel (field2 (p.getD (5 * cfg.ngroupsOf c) 0#8) (3 - j))) := by
  have hlen := unpackGroups_length (groups_le_of_length h)
  rw [unpackChannels, List.getElem?_append_right (by omega), hlen, Nat.add_sub_cancel_left, if_pos ha,
    drop_groups_of_length h ha]
  interval_cases j <;> rfl

/-- Rule R124 (iii). -/
theorem packPayload_unpackChannels : packPayload cfg c (unpackChannels cfg c p) = p := by
  have hp := groups_le_of_length h
  have hlen := unpackGroups_length hp
  rw [packPayload, unpackChannels, packGroups_unpackGroups hp, ← hlen, List.drop_left]
  rcases auxOf_eq_zero_or_one c with ha | ha
  · rw [if_neg (by omega), List.append_nil, List.take_of_length_le (by rw [h, Config.payloadLen, ha]; rfl)]
  · rw [if_pos ha, if_pos ha, drop_groups_of_length h ha]
    simp only [List.headD_cons, unpackAux, packAux, quantise_auxChannel, append_field2]
    rw [← drop_groups_of_length h ha, List.take_append_drop]

end

section

variable {cfg : Config} {c : BitVec 3} {ch : List Half} (h : ch.length = cfg.channelCount c)

include h

theorem packPayload_length : (packPayload cfg c ch).length = cfg.payloadLen c := by
  rw [packPayload, List.length_append, packGroups_length (groups_le_of_count h), Config.payloadLen]
  rcases auxOf_eq_zero_or_one c with ha | ha
  · rw [ha]; rfl
  · obtain ⟨a0, a1, a2, a3, hd⟩ := drop_groups_of_count h ha
    rw [hd, ha]; rfl

/-- The groups of a payload are those of its 10-bit channels (rule R123). -/
theorem packPayload_getD_group {i : Nat} (hi : i < 5 * cfg.ngroupsOf c) :
    (packPayload cfg c ch).getD i 0#8 = (packGroups (cfg.ngroupsOf c) ch).getD i 0#8 :=
  List.getD_append _ _ _ _ (by rw [packGroups_length (groups_le_of_count h)]; exact hi)

/-- The low bytes of a payload and its 2-bit fields (rules R93, R123). -/
theorem packPayload_group {g k : Nat} (hg : g < cfg.ngroupsOf c) (hk : k < 4) :
    (packPayload cfg c ch).getD (5 * g + k) 0#8 = loByte (ch.getD (4 * g + k) 0#16) ∧
      field2 ((packPayload cfg c ch).getD (5 * g + 4) 0#8) k = topBits (ch.getD (4 * g + k) 0#16) := by
  rw [packPayload_getD_group h (by omega), packPayload_getD_group h (by omega)]
  exact packGroups_getD (groups_le_of_count h) hg hk

/-- The fields of the auxiliary byte (rules R94, R123). -/
theorem packPayload_aux (ha : Config.auxOf c = 1) {j : Nat} (hj : j < 4) :
    field2 ((packPayload cfg c ch).getD (5 * cfg.ngroupsOf c) 0#8) (3 - j) =
      quantise (ch.getD (4 * cfg.ngroupsOf c + j) 0#16) := by
  obtain ⟨a0, a1, a2, a3, hd⟩ := drop_groups_of_count h ha
  have hlen := packGroups_length (groups_le_of_count h)
  have hch : ch.getD (4 * cfg.ngroupsOf c + j) 0#16 = [a0, a1, a2, a3].getD j 0#16 := by
    rw [← hd, List.getD_eq_getElem?_getD, List.getD_eq_getElem?_getD, List.getElem?_drop]
  rw [packPayload, List.getD_append_right _ _ _ _ (by omega), hlen, Nat.sub_self, if_pos ha, hd, hch]
  obtain ⟨h0, h1, h2, h3⟩ := field2_append (quantise a3) (quantise a2) (quantise a1) (quantise a0)
  interval_cases j
  exacts [h3, h2, h1, h0]

/-- Rule R124 (i). -/
theorem unpackChannels_packPayload_group {g k : Nat} (hg : g < cfg.ngroupsOf c) (hk : k < 4)
    (hv : (ch.getD (4 * g + k) 0#16).toNat ≤ 1023) :
    (unpackChannels cfg c (packPayload cfg c ch))[4 * g + k]? = some (ch.getD (4 * g + k) 0#16) := by
  obtain ⟨hlow, hfield⟩ := packPayload_group h hg hk
  rw [unpackChannels_group (packPayload_length h) hg hk, hlow, hfield, joinChannel_topBits_loByte hv]

end

/-! ## The refusal tests -/

theorem unpackCheck_reserved (cfg : Config) (n : Nat) : unpackCheck cfg cfg.reservedCfg n = some .reservedCfg :=
  if_pos rfl

theorem unpackCheck_badLength {cfg : Config} {c : BitVec 3} {n : Nat} (hc : c ≠ cfg.reservedCfg)
    (hn : n ≠ cfg.payloadLen c) : unpackCheck cfg c n = some .badLength := by
  rw [unpackCheck, if_neg hc, if_pos hn]

theorem packCheck_reserved (cfg : Config) (ch : List Half) : packCheck cfg cfg.reservedCfg ch = some .reservedCfg :=
  if_pos rfl

theorem packCheck_badLength {cfg : Config} {c : BitVec 3} {ch : List Half} (hc : c ≠ cfg.reservedCfg)
    (hn : ch.length ≠ cfg.channelCount c) : packCheck cfg c ch = some .badLength := by
  rw [packCheck, if_neg hc, if_pos hn]

/-- The range test of `PACK` looks at the 10-bit channels only (rule R123). -/
theorem any_take_over_iff {ch : List Half} {n : Nat} (h : n ≤ ch.length) :
    (ch.take n).any (fun v => 1023 < v.toNat) = true ↔ ∃ k < n, 1023 < (ch.getD k 0#16).toNat := by
  simp only [List.any_eq_true, decide_eq_true_eq, List.mem_take_iff_getElem]
  constructor
  · rintro ⟨_, ⟨k, hk, rfl⟩, hv⟩
    exact ⟨k, by omega, by rwa [List.getD_eq_getElem]⟩
  · rintro ⟨k, hk, hv⟩
    rw [List.getD_eq_getElem _ _ (by omega)] at hv
    exact ⟨_, ⟨k, by omega, rfl⟩, hv⟩

section

variable {cfg : Config} {c : BitVec 3} {ch : List Half} (hc : c ≠ cfg.reservedCfg) (hn : ch.length = cfg.channelCount c)

include hc hn

theorem packCheck_badValue (hv : ∃ k < 4 * cfg.ngroupsOf c, 1023 < (ch.getD k 0#16).toNat) :
    packCheck cfg c ch = some .badValue := by
  rw [packCheck, if_neg hc, if_neg (not_not.2 hn), if_pos ((any_take_over_iff (groups_le_of_count hn)).2 hv)]

theorem packCheck_accepted (hv : ∀ k < 4 * cfg.ngroupsOf c, (ch.getD k 0#16).toNat ≤ 1023) :
    packCheck cfg c ch = none := by
  rw [packCheck, if_neg hc, if_neg (not_not.2 hn), if_neg]
  rw [any_take_over_iff (groups_le_of_count hn)]
  rintro ⟨k, hk, hlt⟩
  exact absurd (hv k hk) (by omega)

end

/-! ## What the operations leave -/

section

variable {s : State} (h : s.gaps = [])

include h

theorem exec_pktsize (flags : Byte) : exec (.pktsize flags) s =
    .next { s with out := s.out ++ [.reply .ok [BitVec.ofNat 8 (s.cfg.pktsizeOf (cfgOf flags))]] } :=
  congrArg Host.Outcome.next (command_done h rfl rfl h)

theorem exec_unpack_refused {c : BitVec 3} {p : List Byte} {e : RefuseCode}
    (hc : unpackCheck s.cfg c p.length = some e) : exec (.unpack c p) s = .next (refusedWith e.code s) :=
  congrArg Host.Outcome.next (command_refusedWith h hc)

theorem exec_unpack_accepted {c : BitVec 3} {p : List Byte} (hc : unpackCheck s.cfg c p.length = none) :
    exec (.unpack c p) s =
      .next (put (.reply .ok [(unpackWrite c p s).frameCnt.setWidth 8]) (unpackWrite c p s)) :=
  congrArg Host.Outcome.next (command_done h hc rfl h)

theorem exec_pack_refused {c : BitVec 3} {ch : List Half} {e : RefuseCode} (hc : packCheck s.cfg c ch = some e) :
    exec (.pack c ch) s = .next (refusedWith e.code s) :=
  congrArg Host.Outcome.next (command_refusedWith h hc)

theorem exec_pack_accepted {c : BitVec 3} {ch : List Half} (hc : packCheck s.cfg c ch = none) :
    exec (.pack c ch) s = .next { s with out := s.out ++ [.reply .ok (packReply s.cfg c ch)] } :=
  congrArg Host.Outcome.next (command_done h hc rfl h)

end

/-- The number of channels of a configuration fits `frame_cnt` (rules R8, R47). -/
theorem unpackWrite_frameCnt_toNat {s : State} {c : BitVec 3} (hv : s.cfg.valid = true) (hc : c ≠ s.cfg.reservedCfg)
    (p : List Byte) : (unpackWrite c p s).frameCnt.toNat = s.cfg.channelCount c := by
  obtain ⟨-, -, hmax⟩ := Config.valid_proper hv hc
  rw [unpackWrite_frameCnt, BitVec.toNat_ofNat, Nat.mod_eq_of_lt (by omega)]

/-- An element of `frame` holds a value only below `frame_cnt` (rule R47). -/
theorem regValue_frame_of_lt {s : State} {i : Nat} {v : Half} (hi : i < s.frameCnt.toNat) (hv : s.frame[i]? = some v) :
    regValue s (.frame i) = some v.toNat := by
  simp only [regValue, if_pos hi, hv, Option.map_some]

theorem regValue_frame_of_le {s : State} {i : Nat} (hi : s.frameCnt.toNat ≤ i) : regValue s (.frame i) = none :=
  if_neg (by omega)

/-! ## The statements -/

/-- Settles O15: the table's only zero entry is the reserved one (rule R8). -/
theorem pktsizeReturnsTheTableEntry : Obligations.PktsizeReturnsTheTableEntry := by
  intro s flags hv h
  have hcfg : (cfgOf flags).toNat = flags.toNat % 8 := cfgField_toNat flags
  have hsize : s.cfg.pktsize.getD (flags.toNat % 8) 0 = s.cfg.pktsizeOf (cfgOf flags) := by rw [← hcfg]; rfl
  rw [hsize, ← hcfg, BitVec.toNat_inj]
  obtain ⟨hle, -⟩ := Config.valid_pktsize hv (cfgOf flags)
  refine ⟨exec_pktsize h flags, ⟨fun h0 => ?_, fun he => ?_⟩, by omega⟩
  · by_contra hc
    obtain ⟨-, hne, -⟩ := Config.valid_proper hv hc
    exact hne h0
  · rw [he, Config.valid_reserved hv]

/-- Settles O16, channel by channel: what is written is `unpackWrite`. -/
theorem unpackWritesTheChannels : Obligations.UnpackWritesTheChannels := by
  intro s c p hv h hc hp
  have hlen : p.length = s.cfg.payloadLen c := hp
  have hcnt : (unpackWrite c p s).frameCnt.toNat = 4 * s.cfg.ngroupsOf c + 4 * (c.toNat % 2) :=
    unpackWrite_frameCnt_toNat hv hc p
  refine ⟨_, exec_unpack_accepted h (unpackCheck_eq_none.2 ⟨hc, hlen⟩), hcnt, fun g hg k hk => ?_,
    fun ha j hj => ?_, fun k hk => regValue_frame_of_le hk, rfl⟩
  · refine (regValue_frame_of_lt (lt_of_lt_of_eq (by omega) hcnt.symm) (unpackChannels_group hlen hg hk)).trans ?_
    rw [joinChannel_toNat, field2_toNat]
  · refine (regValue_frame_of_lt (lt_of_lt_of_eq (by omega) hcnt.symm) (unpackChannels_aux hlen ha hj)).trans ?_
    rw [auxChannel_toNat, field2_toNat]

/-- Settles O17, byte by byte: a 10-bit channel has nothing above its 2-bit field. -/
theorem packReturnsThePayload : Obligations.PackReturnsThePayload := by
  intro s c ch _ h hc hn hv
  have hcount : ch.length = s.cfg.channelCount c := hn
  have hlen : (packPayload s.cfg c ch).length = 5 * s.cfg.ngroupsOf c + c.toNat % 2 := packPayload_length hcount
  refine ⟨packPayload s.cfg c ch, ?_, hlen, fun g hg => ⟨fun k hk => ?_, fun k hk => ?_⟩, ?_⟩
  · rw [exec_pack_accepted h (packCheck_accepted hc hcount hv), ← hlen]
    rfl
  · obtain ⟨hlow, -⟩ := packPayload_group hcount hg hk
    rw [hlow, loByte_toNat]
  · have hrange := hv (4 * g + k) (by omega)
    obtain ⟨-, hfield⟩ := packPayload_group hcount hg hk
    rw [← field2_toNat, hfield, topBits_toNat]
    omega
  · rintro ha j hj _ rfl
    rw [← field2_toNat, packPayload_aux hcount ha hj, quantise_toNat]

/-- Settles O18: each test answers with its code, and the code has the number written out. -/
theorem codecRefusals : Obligations.CodecRefusals := by
  intro s c p ch h
  refine ⟨?_, fun hc => ⟨fun hp => ?_, fun hn => ?_, fun hn hv => ?_⟩⟩
  · rintro rfl
    exact ⟨exec_unpack_refused h (unpackCheck_reserved ..), exec_pack_refused h (packCheck_reserved ..)⟩
  · exact exec_unpack_refused h (unpackCheck_badLength hc hp)
  · exact exec_pack_refused h (packCheck_badLength hc hn)
  · exact exec_pack_refused h (packCheck_badValue hc hn hv)

/-- Settles O19: every 10-bit channel `k` is channel `k % 4` of group `k / 4`. -/
theorem codecLaws : Obligations.CodecLaws := by
  intro cfg c hv hc
  obtain ⟨-, -, hmax⟩ := Config.valid_proper hv hc
  refine ⟨fun ch hn hrange => ⟨fun k hk => ?_, fun ha j hj => ?_⟩, fun p hp => packPayload_unpackChannels hp, rfl, hmax⟩
  · have hlt : k < ch.length := lt_of_lt_of_le hk (groups_le_of_count hn)
    have hround := unpackChannels_packPayload_group (g := k / 4) (k := k % 4) hn (by omega) (by omega)
    rw [Nat.div_add_mod] at hround
    rw [hround (hrange k hk), List.getD_eq_getElem _ _ hlt, List.getElem?_eq_getElem hlt]
  · rw [unpackChannels_aux (packPayload_length hn) ha hj, packPayload_aux hn ha hj, auxChannel, Nat.mul_comm]

end Sys2Proof.Machine
end

section
/-! The Timing Model: the interval formula and how it depends on the SessionParameters, what `INTERVAL` writes and returns, and
the refusals of `INTERVAL` and `PROGCH` (rules R140 to R142, R153). -/

namespace Sys2Proof.Machine

/-! ## Values as bytes -/

@[simp] theorem leBytes_length (n v : Nat) : (leBytes n v).length = n := by
  induction n generalizing v with
  | zero => rfl
  | succ n ih => exact congrArg Nat.succ (ih (v / 256))

/-- A value that fits into `n` bytes is read back from them (rules R106, R177). -/
theorem leValue_leBytes {n v : Nat} (h : v < 256 ^ n) : leValue (leBytes n v) = v := by
  induction n generalizing v with
  | zero => exact (Nat.lt_one_iff.1 h).symm
  | succ n ih =>
    have hrest : leValue (leBytes n (v / 256)) = v / 256 := ih (Nat.div_lt_of_lt_mul (by rwa [← Nat.pow_succ']))
    simp only [leBytes, leValue, hrest, BitVec.toNat_ofNat]
    exact Nat.mod_add_div v 256

/-! ## The interval formula -/

theorem ceilMs_le_ceilMs {r r' : Nat} (h : r ≤ r') : ceilMs r ≤ ceilMs r' := by
  unfold ceilMs
  gcongr

theorem overhead_le_overhead {div div' : Bool} (h : div ≤ div') : Config.overhead div ≤ Config.overhead div' := by
  revert div div'
  decide

/-- A longer packet, diversity and a lower bitrate each take no less air time (rule R140). -/
theorem airTime_le_airTime {n n' br br' : Nat} {div div' : Bool} (hn : n ≤ n') (hd : div ≤ div') (hpos : 1 ≤ br')
    (hbr : br' ≤ br) : airTime n div br ≤ airTime n' div' br' := by
  unfold airTime
  exact Nat.div_le_div (Nat.mul_le_mul_left _ (Nat.add_le_add hn (overhead_le_overhead hd))) hbr (by omega)

/-- The part of the sum that telemetry adds (rule R141) is nothing without it, and else monotone as the air time is. -/
theorem telemetryTime_le_telemetryTime {n br br' : Nat} {div div' tel tel' : Bool} (ht : tel ≤ tel') (hd : div ≤ div')
    (hpos : 1 ≤ br') (hbr : br' ≤ br) :
    (if tel then airTime n div br + Config.marginTelem else 0) ≤
      if tel' then airTime n div' br' + Config.marginTelem else 0 := by
  cases tel with
  | false => exact Nat.zero_le _
  | true =>
    rw [if_pos rfl, if_pos (ht rfl)]
    exact Nat.add_le_add_right (airTime_le_airTime le_rfl hd hpos hbr) _

/-- Every clause of rule R142 on the order of two intervals at once: the interval is monotone in the packet size, in the two
enables and against the bitrate. -/
theorem intervalOf_le_intervalOf {cfg : Config} {sp sp' : SessionParams}
    (hn : cfg.pktsizeOf (cfgOf sp.flags) ≤ cfg.pktsizeOf (cfgOf sp'.flags))
    (hd : divEn cfg sp.flags ≤ divEn cfg sp'.flags) (ht : telEn cfg sp.flags ≤ telEn cfg sp'.flags)
    (hpos : 1 ≤ cfg.bitrateOf sp'.modemIdx.toNat)
    (hbr : cfg.bitrateOf sp'.modemIdx.toNat ≤ cfg.bitrateOf sp.modemIdx.toNat) :
    intervalOf cfg sp ≤ intervalOf cfg sp' :=
  ceilMs_le_ceilMs <| Nat.add_le_add (Nat.add_le_add_right (airTime_le_airTime hn hd hpos hbr) _)
    (telemetryTime_le_telemetryTime ht hd hpos hbr)

/-! ## The refusal tests -/

theorem intervalCheck_badProfile {s : State} (h : s.cfg.nprofiles ≤ s.sp.modemIdx.toNat) :
    intervalCheck s = some .badProfile := if_pos h

theorem intervalCheck_intervalRange {s : State} (hp : s.sp.modemIdx.toNat < s.cfg.nprofiles)
    (hr : 2 ^ 31 ≤ intervalOf s.cfg s.sp) : intervalCheck s = some .intervalRange :=
  (if_neg (Nat.not_le.2 hp)).trans (if_pos hr)

theorem progchCheck_badIndex {s : State} {i : Byte} (h : s.cfg.maxHops ≤ i.toNat) :
    progchCheck i s = some .badIndex := if_pos h

/-! ## What the operations leave -/

section

variable {s : State} (h : s.gaps = [])

include h

theorem exec_interval_refused {e : RefuseCode} (hc : intervalCheck s = some e) :
    exec .interval s = .next (refusedWith e.code s) :=
  congrArg Host.Outcome.next (command_refusedWith h hc)

theorem exec_interval_accepted (hc : intervalCheck s = none) : exec .interval s =
    .next (put (.reply .ok (leBytes 4 (intervalWrite s).interval.toNat)) (intervalWrite s)) :=
  congrArg Host.Outcome.next (command_done h hc rfl h)

theorem exec_progch_refused {i : Byte} {e : RefuseCode} (hc : progchCheck i s = some e) :
    exec (.progch i) s = .next (refusedWith e.code s) :=
  congrArg Host.Outcome.next (command_refusedWith h hc)

end

/-! ## The statements -/

/-- Settles O20: below 2^31 the value fits `interval` and the four bytes of the answer. -/
theorem intervalFollowsTheFormula : Obligations.IntervalFollowsTheFormula := by
  intro s r h hp hr hlt
  obtain rfl : r = intervalOf s.cfg s.sp := hr.trans (intervalOf_eq_intervalMicros s.cfg s.sp).symm
  have hnat : (intervalWrite s).interval.toNat = intervalOf s.cfg s.sp := by
    rw [intervalWrite_interval, BitVec.toNat_ofNat, Nat.mod_eq_of_lt (by omega)]
  refine ⟨_, ?_, leBytes_length 4 _, leValue_leBytes (by omega)⟩
  rw [exec_interval_accepted h (intervalCheck_eq_none.2 ⟨hp, hlt⟩), hnat]
  rfl

/-- Settles O21: each clause on two SessionParameters is `intervalOf_le_intervalOf` with equality but in one place. -/
theorem intervalProperties : Obligations.IntervalProperties := by
  rintro cfg sp sp' _ _ _ _ _ _ _ _ rfl rfl rfl rfl hpos rfl rfl rfl rfl
  refine ⟨fun hn hb hd ht => ?packetSize, intervalOf_mod cfg sp, le_intervalOf cfg sp, fun hb hn hd ht => ?bitrate,
    fun h0 _ hn hb hd => ?telemetry, fun h0 _ hn hb ht => ?diversity⟩
  case packetSize => exact intervalOf_le_intervalOf hn hd.le ht.le (hb ▸ hpos) hb.ge
  case bitrate => exact intervalOf_le_intervalOf hn.ge hd.ge ht.ge hpos hb
  case telemetry => exact intervalOf_le_intervalOf hn.le hd.le (h0 ▸ Bool.false_le _) (hb ▸ hpos) hb.ge
  case diversity => exact intervalOf_le_intervalOf hn.le (h0 ▸ Bool.false_le _) ht.le (hb ▸ hpos) hb.ge

/-- Settles O22: each test answers with its code, and the code has the number written out. -/
theorem timingAndHopRefusals : Obligations.TimingAndHopRefusals := by
  intro s i h
  refine ⟨fun hp => ?_, fun hp hr => ?_, fun hi => ?_⟩
  · exact exec_interval_refused h (intervalCheck_badProfile hp)
  · exact exec_interval_refused h (intervalCheck_intervalRange hp hr)
  · exact exec_progch_refused h (progchCheck_badIndex hi)

end Sys2Proof.Machine
end

section
/-! The Hop Sequencer: what `HOPCNT`, `ADVANCE` and `PROGCH` leave, and how `ADVANCE` cycles through a hop list that `HOPCNT` has
counted (rules R151 to R154). -/

namespace Sys2Proof.Machine

/-! ## Counting the hop list -/

/-- The scan ends at the end of the hop list or at the zero sentinel (rule R151). -/
theorem hopCount_eq_or_hopAt_eq_zero (hop : Memory) (maxHops : Nat) :
    hopCount hop maxHops = maxHops ∨ hopAt hop (hopCount hop maxHops) = 0#8 := by
  obtain ⟨-, -, -, hend⟩ := hopScan_spec hop maxHops 0
  exact hend.imp_left fun h => h.trans (Nat.zero_add maxHops)

/-! ## The next index -/

theorem nextIndex_wraps {cfg : Config} {hop : Memory} {hopcount idx : Byte}
    (h : idx.toNat + 1 = hopcount.toNat ∨ idx.toNat + 1 = cfg.maxHops ∨ hopAt hop (idx.toNat + 1) = 0#8) :
    nextIndex cfg hop hopcount idx = 0#8 := if_pos h

theorem nextIndex_steps {cfg : Config} {hop : Memory} {hopcount idx : Byte}
    (h : ¬(idx.toNat + 1 = hopcount.toNat ∨ idx.toNat + 1 = cfg.maxHops ∨ hopAt hop (idx.toNat + 1) = 0#8)) :
    nextIndex cfg hop hopcount idx = idx + 1#8 := by
  have hnext : nextIndex cfg hop hopcount idx = BitVec.ofNat 8 (idx.toNat + 1) := if_neg h
  rw [hnext, BitVec.ofNat_add, BitVec.ofNat_toNat, BitVec.setWidth_eq]

section

variable {cfg : Config} {hop : Memory} {hopcount : Byte} (hc : hopcount.toNat = hopCount hop cfg.maxHops)

include hc

/-- Before the last entry of a counted hop list none of the three tests of `ADVANCE` holds (rule R152, corner case a). -/
theorem nextIndex_toNat_of_lt {idx : Byte} (h : idx.toNat + 1 < hopcount.toNat) :
    (nextIndex cfg hop hopcount idx).toNat = idx.toNat + 1 := by
  have hle : hopcount.toNat ≤ cfg.maxHops := hc.trans_le (hopCount_le hop cfg.maxHops)
  have hne : hopAt hop (idx.toNat + 1) ≠ 0#8 := hopAt_ne_zero_of_lt_hopCount (hc ▸ h)
  rw [nextIndex_steps (not_or.2 ⟨h.ne, not_or.2 ⟨(h.trans_le hle).ne, hne⟩⟩)]
  bv_omega

/-- Fewer than `hopcount` advances from index 0 count up (rule R154 iii). -/
theorem nextIndex_iterate_toNat {k : Nat} (hk : k < hopcount.toNat) :
    ((nextIndex cfg hop hopcount)^[k] 0#8).toNat = k := by
  induction k with
  | zero => rfl
  | succ k ih =>
    have hprev := ih (Nat.lt_of_succ_lt hk)
    rw [Function.iterate_succ_apply', nextIndex_toNat_of_lt hc (by rwa [hprev]), hprev]

/-- The advance after those wraps (rule R154 i). -/
theorem nextIndex_iterate_hopcount (hpos : 1 ≤ hopcount.toNat) :
    (nextIndex cfg hop hopcount)^[hopcount.toNat] 0#8 = 0#8 := by
  obtain ⟨m, hm⟩ : ∃ m, hopcount.toNat = m + 1 := Nat.exists_eq_succ_of_ne_zero (Nat.ne_of_gt hpos)
  have hlast : ((nextIndex cfg hop hopcount)^[m] 0#8).toNat = m := nextIndex_iterate_toNat hc (by omega)
  rw [hm, Function.iterate_succ_apply', nextIndex_wraps (.inl (by rw [hlast, hm]))]

end

/-! ## The header byte -/

/-- Only the low byte of `magic` enters the header byte (rule R95). -/
theorem headerByte_eq_setWidth (magic : Word) (i : Byte) : headerByte magic i = BitVec.setWidth 8 magic ^^^ i := by
  rw [headerByte, BitVec.setWidth_eq_extractLsb' (by decide)]

/-! ## What the operations leave -/

theorem progchCheck_accepted {s : State} {i : Byte} (h : i.toNat < s.cfg.maxHops) : progchCheck i s = none :=
  if_neg (Nat.not_le.2 h)

section

variable {s : State} (h : s.gaps = [])

include h

theorem exec_hopcnt : exec .hopcnt s = .next (put (.reply .ok [(hopcntWrite s).hopcount]) (hopcntWrite s)) :=
  congrArg Host.Outcome.next (command_done h rfl rfl h)

theorem exec_advance : exec .advance s = .next (put (.reply .ok [(advanceWrite s).idx]) (advanceWrite s)) :=
  congrArg Host.Outcome.next (command_done h rfl rfl h)

theorem exec_progch_accepted {i : Byte} (hi : i.toNat < s.cfg.maxHops) :
    exec (.progch i) s = .next (put (.reply .ok []) { s with out := s.out ++ progchEvents i s }) :=
  congrArg Host.Outcome.next
    (command_done h (progchCheck_accepted hi) (inOrder_step (progchSteps_quiet h i) (inOrder_nil _)) h)

end

/-! ## The statements -/

/-- Settles O23: the count fits its register, so `hopcount` is the scan's own result. -/
theorem hopcntCountsThePrefix : Obligations.HopcntCountsThePrefix := by
  intro s hv h
  refine ⟨_, exec_hopcnt h, ?_⟩
  rw [hopcntWrite_hopcount, hopCount_toNat hv]
  exact ⟨hopCount_le _ _, fun k hk => hopAt_ne_zero_of_lt_hopCount hk, hopCount_eq_or_hopAt_eq_zero _ _⟩

/-- Settles O25: an index that `ADVANCE` yields is below `hopcount`, and below it no entry is the sentinel. -/
theorem advanceCyclesThroughTheHopList : Obligations.AdvanceCyclesThroughTheHopList := by
  intro cfg hop hopcount _ hc hpos
  refine ⟨nextIndex_iterate_hopcount hc hpos, fun idx hi => ?_, fun k hk => nextIndex_iterate_toNat hc hk,
    fun idx hi => nextIndex_lt_hopcount hi⟩
  have hlt : (nextIndex cfg hop hopcount idx).toNat < hopcount.toNat := nextIndex_lt_hopcount hi
  exact hopAt_ne_zero_of_lt_hopCount (hc ▸ hlt)

/-- Settles O24: the two branches of `nextIndex`. -/
theorem advanceStepsTheIndex : Obligations.AdvanceStepsTheIndex := by
  intro s h
  refine ⟨fun hwrap => ?_, fun hcount hmax hzero => ?_⟩
  · rw [exec_advance h, advanceWrite, nextIndex_wraps hwrap]
    rfl
  · rw [exec_advance h, advanceWrite, nextIndex_steps (not_or.2 ⟨hcount, not_or.2 ⟨hmax, hzero⟩⟩)]
    rfl

/-- Settles O26: the write group and the answer are one list of outputs. -/
theorem progchWritesOneGroup : Obligations.ProgchWritesOneGroup := by
  intro s i h hi
  rw [exec_progch_accepted h hi, put, List.append_assoc, progchEvents, headerByte_eq_setWidth]
  rfl

end Sys2Proof.Machine
end

section
/-! The host-facing operations: the register map and the values behind it, what `WRREG` and `RDREG` make of them, and the
whole effect of `NOP`, `ATTACH` and `ENDSESS` (rules R51, R176 to R181). -/

namespace Sys2Proof.Machine

/-! ## The register map -/

theorem elementAt_base_add {base len i : Nat} (h : i < len) (f : Nat → Reg) :
    elementAt base len (base + i) f = some (f i) := by
  rw [elementAt, Nat.add_sub_cancel_left, if_pos ⟨Nat.le_add_right base i, h⟩]

theorem elementAt_eq_none {base len rn : Nat} (h : ¬ (base ≤ rn ∧ rn < base + len)) (f : Nat → Reg) :
    elementAt base len rn f = none :=
  if_neg (by omega)

/-- From 0x0100 on a number names an array element or nothing (rule R51). -/
theorem regOf_of_le {cfg : Config} {rn : Nat} (h : 0x0100 ≤ rn) :
    regOf cfg rn = (elementAt 0x0100 cfg.maxHops rn .hop).or ((elementAt 0x0200 16 rn .frame).or
      ((elementAt 0x0400 cfg.txbufLen rn .txbuf).or (elementAt 0x0300 cfg.rxbufLen rn .rxbuf))) := by
  rw [regOf, scalarReg_eq_none h, Option.none_or]

theorem regOf_hop {cfg : Config} {i : Nat} (hi : i < cfg.maxHops) : regOf cfg (0x0100 + i) = some (.hop i) := by
  rw [regOf_of_le (by omega), elementAt_base_add hi, Option.some_or]

/-! The array bases stand 256 numbers apart, so a hop list of at most 255 entries (rule R8) reaches no other array. -/

section

variable {cfg : Config} (hmax : cfg.maxHops ≤ 255) {i : Nat}

include hmax

theorem regOf_frame (hi : i < 16) : regOf cfg (0x0200 + i) = some (.frame i) := by
  rw [regOf_of_le (by omega), elementAt_eq_none (by omega), Option.none_or, elementAt_base_add hi, Option.some_or]

theorem regOf_txbuf (hi : i < cfg.txbufLen) : regOf cfg (0x0400 + i) = some (.txbuf i) := by
  rw [regOf_of_le (by omega), elementAt_eq_none (by omega), elementAt_eq_none (by omega), elementAt_base_add hi,
    Option.none_or, Option.none_or, Option.some_or]

theorem regOf_rxbuf (hi : i < cfg.rxbufLen) (hlt : i < 256) : regOf cfg (0x0300 + i) = some (.rxbuf i) := by
  rw [regOf_of_le (by omega), elementAt_eq_none (by omega), elementAt_eq_none (by omega),
    elementAt_eq_none (base := 0x0400) (by omega), elementAt_base_add hi, Option.none_or, Option.none_or, Option.none_or]

end

theorem regOf_registerMap (s : State) : ∀ row ∈ registerMap s, regOf s.cfg row.number = some row.reg :=
  List.map_inj_left.1 rfl

theorem regWidth_registerMap (s : State) : ∀ row ∈ registerMap s, regWidth s.cfg row.reg = row.width :=
  List.map_inj_left.1 rfl

theorem regWritable_registerMap (s : State) : ∀ row ∈ registerMap s, regWritable row.reg = row.writable :=
  List.map_inj_left.1 rfl

theorem regValue_registerMap (s : State) : ∀ row ∈ registerMap s, regValue s row.reg = some row.value := by
  refine List.map_inj_left.1 ?_
  simp only [registerMap, List.map_cons, List.map_nil, regValue, linkFlagsWord_toNat, statusWord_toNat]
  rfl

/-- The scalar registers have two runs of numbers (rule R51). -/
theorem registerMap_numbers (s : State) :
    (registerMap s).map RegisterRow.number = List.range 8 ++ List.range' 0x0010 21 := rfl

theorem scalarReg_eq_none_of_not_mem {s : State} {rn : Nat} (h : ∀ row ∈ registerMap s, row.number ≠ rn) :
    scalarReg rn = none := by
  have hruns : rn ∉ List.range 8 ++ List.range' 0x0010 21 := by
    rw [← registerMap_numbers s, List.mem_map]
    rintro ⟨row, hrow, hnum⟩
    exact h row hrow hnum
  fun_cases scalarReg rn with
  | case30 => rfl
  | _ => exact absurd (by decide) hruns

/-! ## The values of registers -/

/-- An output is no register. -/
theorem regValue_put (o : Output) (s : State) (r : Reg) : regValue (put o s) r = regValue s r := by
  cases r <;> rfl

theorem RadioMode.code_lt (m : RadioMode) : m.code < 2 ^ 3 := by
  cases m <;> decide

theorem Phase.code_lt (p : Phase) : p.code < 2 ^ 3 := by
  cases p <;> decide

/-- What an element of a buffer or of the channel frame holds fits its width. -/
theorem lt_of_held {w v : Nat} {c : Prop} [Decidable c] {o : Option (BitVec w)}
    (h : (if c then o.map BitVec.toNat else none) = some v) : v < 2 ^ w := by
  split at h
  · obtain ⟨b, -, rfl⟩ := Option.map_eq_some_iff.1 h
    exact b.isLt
  · cases h

/-- A register's value fits its width (rule R51); of `quality`, a natural in the model, that is to be supposed. -/
theorem regValue_lt {s : State} {r : Reg} {v : Nat} (h : regValue s r = some v) (hq : s.quality < 2 ^ s.cfg.qw) :
    v < 2 ^ regWidth s.cfg r := by
  cases r with
  | frame | rxbuf | txbuf => exact lt_of_held h
  | quality => exact Option.some.inj h ▸ hq
  | mode => exact Option.some.inj h ▸ s.mode.code_lt
  | phase => exact Option.some.inj h ▸ s.phase.code_lt
  | _ => exact Option.some.inj h ▸ BitVec.isLt _

/-- The bytes of a register value hold every value of its width (rule R106). -/
theorem two_pow_le_byteCount (w : Nat) : 2 ^ w ≤ 256 ^ byteCount w := by
  rw [show 256 = 2 ^ 8 from rfl, ← Nat.pow_mul, byteCount]
  exact Nat.pow_le_pow_right Nat.two_pos (by omega)

/-- A written register reads the value modulo its width (rules R11, R176). -/
theorem regValue_writeReg_same {s : State} {r : Reg} (hm : memWf .hop s.sp.hop = true) (hw : regWritable r = true)
    (v : Nat) : regValue { s with sp := writeReg s.sp v r } r = some (v % 2 ^ regWidth s.cfg r) := by
  cases r with
  | hop i =>
    refine congrArg some ((congrArg BitVec.toNat (hopAt_hopPut hm i (BitVec.ofNat 8 v) i)).trans ?_)
    rw [if_pos rfl]
    exact BitVec.toNat_ofNat ..
  | version | serialBaud | rfFreq | magic | rfPower | chSpacing | modemIdx | flags =>
    exact congrArg some (BitVec.toNat_ofNat ..)
  | _ => cases hw

/-- Any other register reads as before: each field of the SessionParameters is behind one register, and each entry of the hop
list behind one (rule R176). -/
theorem regValue_writeReg_ne {s : State} {r r' : Reg} (hm : memWf .hop s.sp.hop = true) (hne : r' ≠ r) (v : Nat) :
    regValue { s with sp := writeReg s.sp v r } r' = regValue s r' := by
  cases r' with
  | hop j =>
    cases r with
    | hop i =>
      have hji : j ≠ i := fun e => hne (congrArg Reg.hop e)
      exact congrArg (fun b : Byte => some b.toNat) ((hopAt_hopPut hm i _ j).trans (if_neg hji))
    | _ => rfl
  | version | serialBaud | rfFreq | magic | rfPower | chSpacing | modemIdx | flags =>
    cases r <;> first | exact absurd rfl hne | rfl
  | _ => rfl

/-! ## The refusal tests -/

section

variable {s : State} {rn : Half}

theorem wrregCheck_unassigned (hr : regOf s.cfg rn.toNat = none) (n : Nat) : wrregCheck rn n s = some .badReg := by
  rw [wrregCheck, hr]

theorem rdregCheck_unassigned (hr : regOf s.cfg rn.toNat = none) : rdregCheck rn s = some .badReg := by
  rw [rdregCheck, hr]

theorem attachCheck_attached (ha : s.consumerAttached = true) : attachCheck s = some .alreadyAttached := if_pos ha

theorem attachCheck_accepted (ha : s.consumerAttached = false) : attachCheck s = none :=
  if_neg (Bool.eq_false_iff.1 ha)

section

variable {r : Reg} (hr : regOf s.cfg rn.toNat = some r)

include hr

/-- The tests of `WRREG` on an assigned number, in their order (rule R176). -/
theorem wrregCheck_assigned (n : Nat) : wrregCheck rn n s =
    if regWritable r = false then some .badReg else if s.sessActive then some .sessionLocked
    else if n ≠ byteCount (regWidth s.cfg r) then some .badLength else none := by
  rw [wrregCheck, hr]

theorem wrregCheck_notWritable (hw : regWritable r = false) (n : Nat) : wrregCheck rn n s = some .badReg := by
  rw [wrregCheck_assigned hr, if_pos hw]

theorem wrregCheck_locked (hw : regWritable r = true) (ha : s.sessActive = true) (n : Nat) :
    wrregCheck rn n s = some .sessionLocked := by
  rw [wrregCheck_assigned hr, if_neg (ne_false_of_eq_true hw), if_pos ha]

theorem wrregCheck_unlocked (hw : regWritable r = true) (ha : s.sessActive = false) (n : Nat) :
    wrregCheck rn n s = if n ≠ byteCount (regWidth s.cfg r) then some .badLength else none := by
  rw [wrregCheck_assigned hr, if_neg (ne_false_of_eq_true hw), if_neg (ne_true_of_eq_false ha)]

theorem rdregCheck_noValue (hv : regValue s r = none) : rdregCheck rn s = some .noValue := by
  rw [rdregCheck, hr]
  exact if_pos hv

theorem rdregCheck_accepted {v : Nat} (hv : regValue s r = some v) : rdregCheck rn s = none := by
  rw [rdregCheck, hr]
  exact if_neg (hv ▸ Option.some_ne_none v)

theorem rdregBytes_eq_leBytes {v : Nat} (hv : regValue s r = some v) :
    rdregBytes rn s = leBytes (byteCount (regWidth s.cfg r)) v := by
  rw [rdregBytes, hr]
  exact congrArg (fun o => leBytes _ (Option.getD o 0)) hv

theorem wrregWrite_eq_writeReg (v : List Byte) :
    wrregWrite rn v s = { s with sp := writeReg s.sp (leValue v) r } := by
  rw [wrregWrite, hr]

end

end

/-! ## What the operations leave -/

section

variable {s : State} (h : s.gaps = []) {rn : Half} {v : List Byte}

include h

theorem exec_wrreg_refused {e : RefuseCode} (hc : wrregCheck rn v.length s = some e) :
    exec (.wrreg rn v) s = .next (refusedWith e.code s) :=
  congrArg Host.Outcome.next (command_refusedWith h hc)

theorem exec_wrreg_accepted {r : Reg} (hr : regOf s.cfg rn.toNat = some r) (hc : wrregCheck rn v.length s = none) :
    exec (.wrreg rn v) s = .next (put (.reply .ok []) { s with sp := writeReg s.sp (leValue v) r }) :=
  congrArg Host.Outcome.next
    (command_done h hc (inOrder_step (congrArg (Ran.done ()) (wrregWrite_eq_writeReg hr v)) (inOrder_nil _)) h)

theorem exec_rdreg_refused {e : RefuseCode} (hc : rdregCheck rn s = some e) :
    exec (.rdreg rn) s = .next (refusedWith e.code s) :=
  congrArg Host.Outcome.next (command_refusedWith h hc)

theorem exec_rdreg_accepted (hc : rdregCheck rn s = none) :
    exec (.rdreg rn) s = .next { s with out := s.out ++ [.reply .ok (rdregBytes rn s)] } :=
  congrArg Host.Outcome.next (command_done h hc rfl h)

theorem exec_attach_refused {e : RefuseCode} (hc : attachCheck s = some e) :
    exec .attach s = .next (refusedWith e.code s) :=
  congrArg Host.Outcome.next (command_refusedWith h hc)

theorem exec_attach_accepted (hc : attachCheck s = none) :
    exec .attach s = .next (put (.reply .ok []) { s with consumerAttached := true }) :=
  congrArg Host.Outcome.next (command_done h hc rfl h)

theorem exec_nop : exec .nop s = .next { s with out := s.out ++ [.reply .ok []] } :=
  congrArg Host.Outcome.next (command_done h rfl rfl h)

theorem exec_endsess : exec .endsess s =
    .next (put (.reply .ok []) { s with sessActive := false, consumerAttached := false }) :=
  congrArg Host.Outcome.next (command_done h rfl rfl h)

end

/-! ## The statements -/

/-- Settles O11: a write of the SessionParameters through one register, read back through each. -/
theorem wrregWritesItsRegister : Obligations.WrregWritesItsRegister := by
  intro s rn v r h hm hr hw ha hn
  have hc : wrregCheck rn v.length s = none := (wrregCheck_unlocked hr hw ha _).trans (if_neg (not_not.2 hn))
  refine ⟨_, exec_wrreg_accepted h hr hc, ?_, fun r' hne => ?_, rfl⟩
  · exact (regValue_put _ _ r).trans (regValue_writeReg_same hm hw _)
  · exact (regValue_put _ _ r').trans (regValue_writeReg_ne hm hne _)

/-- Settles O13: a value that fits the width fits the bytes of the answer; the map is read off row by row and array by
array. -/
theorem rdregReturnsTheRegister : Obligations.RdregReturnsTheRegister := by
  refine ⟨fun s rn r v h hr hv hq => ?answer, fun s hvalid => ?map⟩
  case answer =>
    have hfits : v < 256 ^ byteCount (regWidth s.cfg r) := (regValue_lt hv hq).trans_le (two_pow_le_byteCount _)
    refine ⟨_, exec_rdreg_accepted h (rdregCheck_accepted hr hv), ?_⟩
    rw [rdregBytes_eq_leBytes hr hv]
    exact ⟨leBytes_length _ _, leValue_leBytes hfits⟩
  case map =>
    obtain ⟨-, hmax⟩ := Config.valid_maxHops hvalid
    refine ⟨fun row hrow => ?rows, fun i hi => ⟨regOf_hop hi, rfl, rfl, rfl⟩,
      fun i hi => ⟨regOf_frame hmax hi, rfl, rfl⟩, fun i hi hlt => ⟨regOf_rxbuf hmax hi hlt, rfl, rfl⟩,
      fun i hi => ⟨regOf_txbuf hmax hi, rfl, rfl⟩, fun rn hscalar hhop hframe hrx htx => ?unassigned⟩
    case rows =>
      exact ⟨regOf_registerMap s row hrow, regWidth_registerMap s row hrow, regWritable_registerMap s row hrow,
        regValue_registerMap s row hrow⟩
    case unassigned =>
      rw [regOf, scalarReg_eq_none_of_not_mem hscalar, elementAt_eq_none hhop, elementAt_eq_none hframe,
        elementAt_eq_none htx, elementAt_eq_none hrx]
      rfl

/-- Settles O12: each test answers with its code, and the code has the number written out. -/
theorem hostPortRefusals : Obligations.HostPortRefusals := by
  intro s rn v h
  refine ⟨fun hr => ⟨?_, ?_⟩, fun r hr => ⟨fun hw => ?_, fun hw ha => ?_, fun hw ha hn => ?_, fun hv => ?_⟩, fun ha => ?_⟩
  · exact exec_wrreg_refused h (wrregCheck_unassigned hr _)
  · exact exec_rdreg_refused h (rdregCheck_unassigned hr)
  · exact exec_wrreg_refused h (wrregCheck_notWritable hr hw _)
  · exact exec_wrreg_refused h (wrregCheck_locked hr hw ha _)
  · exact exec_wrreg_refused h ((wrregCheck_unlocked hr hw ha _).trans (if_pos hn))
  · exact exec_rdreg_refused h (rdregCheck_noValue hr hv)
  · exact exec_attach_refused h (attachCheck_attached ha)

/-- Settles O14. -/
theorem attachEndSessionAndNop : Obligations.AttachEndSessionAndNop := fun _ h =>
  ⟨exec_nop h, fun ha => exec_attach_accepted h (attachCheck_accepted ha), exec_endsess h⟩

end Sys2Proof.Machine
end

section
/-! The Link State Machine outside a `POLL`: what `SETUP`, `RXENTER`, `TXSTART`, `SEND`, `TXWAIT` and `IRQ` leave, and the
refusals of the link's commands (rules R191 to R195, R202, R203). -/

namespace Sys2Proof.Machine

/-! ## The refusal tests -/

section

variable {s : State}

theorem setupCheck_reservedCfg (hc : cfgOf s.sp.flags = s.cfg.reservedCfg) : setupCheck s = some .reservedCfg :=
  if_pos hc

section

variable (hc : cfgOf s.sp.flags ≠ s.cfg.reservedCfg)

include hc

theorem setupCheck_badProfile (hp : s.cfg.nprofiles ≤ s.sp.modemIdx.toNat) : setupCheck s = some .badProfile :=
  (if_neg hc).trans (if_pos hp)

variable (hp : s.sp.modemIdx.toNat < s.cfg.nprofiles)

include hp

theorem setupCheck_emptyHoplist (h0 : hopAt s.sp.hop 0 = 0#8) : setupCheck s = some .emptyHoplist := by
  rw [setupCheck, if_neg hc, if_neg (Nat.not_le.2 hp), if_pos h0]

theorem setupCheck_intervalRange (h0 : hopAt s.sp.hop 0 ≠ 0#8) (hr : 2 ^ 31 ≤ intervalOf s.cfg s.sp) :
    setupCheck s = some .intervalRange := by
  have hi : intervalCheck s ≠ none := by rw [intervalCheck_intervalRange hp hr]; exact nofun
  rw [setupCheck, if_neg hc, if_neg (Nat.not_le.2 hp), if_neg h0, if_pos hi]

end

theorem txCheck_badMode (hm : txAllowed s.cfg s.mode = false) (n : Nat) : txCheck n s = some .badMode := if_pos hm

theorem txCheck_badLength {n : Nat} (hm : txAllowed s.cfg s.mode = true) (hn : n = 0 ∨ s.cfg.txbufLen < n) :
    txCheck n s = some .badLength :=
  (if_neg (ne_false_of_eq_true hm)).trans (if_pos hn)

theorem pollCheck_noSession (ha : s.sessActive = false) : pollCheck s = some .noSession := if_neg (ne_true_of_eq_false ha)

theorem pollCheck_accepted (ha : s.sessActive = true) : pollCheck s = none := if_pos ha

end

/-! ## What the operations leave when nothing happens inside them -/

section

variable {s : State} (h : s.gaps = [])

include h

theorem exec_setup_refused {e : RefuseCode} (hc : setupCheck s = some e) :
    exec .setup s = .next (refusedWith e.code s) :=
  congrArg Host.Outcome.next (command_refusedWith h hc)

theorem exec_setup_accepted (hm : 0 < s.cfg.maxHops) (hc : setupCheck s = none) :
    exec .setup s = .next (put (.reply .ok []) { setupInit (usInput s) (tookUs (intervalWrite (hopcntWrite s))) with
      mode := .receiving
      out := s.out ++ [.transport (.act (.reinit s.sp))] ++ progchEvents 0#8 s ++ rxenterEvents }) :=
  congrArg Host.Outcome.next (command_done h hc (inOrder_step (setupSteps_quiet h hm) (inOrder_nil _)) h)

theorem exec_rxenter : exec .rxenter s =
    .next (put (.reply .ok []) { s with mode := .receiving, out := s.out ++ rxenterEvents }) :=
  congrArg Host.Outcome.next (command_done h rfl (inOrder_step (rxenter_quiet h) (inOrder_nil _)) h)

theorem exec_txstart_refused {d : List Byte} {e : RefuseCode} (hc : txCheck d.length s = some e) :
    exec (.txstart d) s = .next (refusedWith e.code s) :=
  congrArg Host.Outcome.next (command_refusedWith h hc)

theorem exec_txstart_accepted {d : List Byte} (hc : txCheck d.length s = none) :
    exec (.txstart d) s = .next (put (.reply .ok []) { txLoad d s with
      mode := .transmitting, out := s.out ++ [.transport (.act (.txfifoWrite d)), .transport (.act .txOn)] }) :=
  congrArg Host.Outcome.next (command_done h hc (inOrder_step (txstartSteps_quiet h d) (inOrder_nil _)) h)

theorem exec_send_refused {d : List Byte} {e : RefuseCode} (hc : txCheck d.length s = some e) :
    exec (.send d) s = .next (refusedWith e.code s) :=
  congrArg Host.Outcome.next (final_done (tested_refused h hc))

theorem exec_send_accepted {d : List Byte} (hc : txCheck d.length s = none) :
    exec (.send d) s = .next { tookMs (txLoad d s) with
      mode := .transmitting, txT0 := msInput s, txRet := none, phase := .txwait
      out := s.out ++ [.transport (.act (.txfifoWrite d)), .transport (.act .txOn)] } :=
  congrArg Host.Outcome.next (final_done ((tested_passed h hc).trans (sendSteps_quiet h d)))

theorem exec_poll_refused {e : RefuseCode} (hc : pollCheck s = some e) :
    exec .poll s = .next (refusedWith e.code s) :=
  congrArg Host.Outcome.next (command_refusedWith h hc)

end

/-! ## `TXWAIT` and the end of a `SEND` -/

/-- What an iteration leaves, by what it decides: only a timeout writes `STATUS.TXTO` (rule R202). -/
theorem exec_txwait_of_txDecide {s : State} (h : s.gaps = []) {r : Option TxResult}
    (hr : txDecide s.mode (msInput s) s.txT0 = r) : exec .txwait s = .next { tookMs s with
      txRet := r, txto := s.txto || r == some .timeout, out := s.out ++ [.wdgKick] } := by
  subst hr
  exact congrArg Host.Outcome.next (final_done (txwait_quiet h))

theorem exec_txwait_no_timeout {s : State} (h : s.gaps = []) {r : Option TxResult}
    (hr : txDecide s.mode (msInput s) s.txT0 = r) (hne : r ≠ some .timeout) :
    exec .txwait s = .next { tookMs s with txRet := r, out := s.out ++ [.wdgKick] } := by
  have hto : (s.txto || r == some .timeout) = s.txto := by rw [beq_eq_false_iff_ne.2 hne, Bool.or_false]
  rw [exec_txwait_of_txDecide h hr, hto]
  rfl

theorem exec_txwait_timeout {s : State} (h : s.gaps = [])
    (hr : txDecide s.mode (msInput s) s.txT0 = some .timeout) :
    exec .txwait s = .next { tookMs s with txRet := some .timeout, txto := true, out := s.out ++ [.wdgKick] } := by
  rw [exec_txwait_of_txDecide h hr, beq_self_eq_true, Bool.or_true]

section

variable {s t : State} (hv : s.cfg.valid = true) (ha : s.agenda = []) (hp : s.phase = .txwait)
  (ht : exec .txwait s = .next t)

include hv ha hp ht

/-- With nothing presented a waiting `SEND` goes on with what one iteration leaves (rules R31, R194). -/
theorem step_waiting : step s = .next (resume t) := by
  have hs : ({ s with agenda := s.agenda.tail } : State) = s := by rw [ha, List.tail_nil, ← ha]
  exact (stepRunsTheSequencerOnItsOwn s hv (.inl ha)).2 .txwait t (by rw [hp]; rfl) (hs.symm ▸ ht)

variable (hpt : t.phase = .txwait)

include hpt

theorem step_waits_on (hr : t.txRet = none) : step s = .next t := by
  rw [step_waiting hv ha hp ht]
  simp only [resume, hpt, hr]

theorem step_ends_send (hq : t.gaps = []) {r : TxResult} (hr : t.txRet = some r) :
    step s = .next { t with phase := .idle, out := t.out ++ [.reply r.result []] } := by
  have hresume : resume t = final (finish r.result) t := by simp only [resume, hpt, hr]
  rw [step_waiting hv ha hp ht, hresume, final_done (finish_quiet hq _)]

end

/-! ## An event in the instant before an atomic step -/

section

variable {s t : State} (h : atPoint s = .done () t)

include h

theorem emit_of_atPoint (o : Output) : emit o s = .done () (put o t) := inOrder_step h (inOrder_step rfl rfl)

theorem act_of_atPoint (a : Action) : act a s = .done () (put (.transport (.act a)) t) := emit_of_atPoint h _

theorem writeMode_of_atPoint (m : RadioMode) : writeMode m s = .done () { t with mode := m } :=
  inOrder_step h (inOrder_step rfl rfl)

/-- A command's tests pass in the state that the instant before them leaves. -/
theorem tested_of_atPoint {check : State → Option RefuseCode} {m : Steps Unit} (hc : check t = none) :
    tested check m s = m t := by
  rw [tested, andThen_done h, hc]

end

theorem atPoint_irq {s : State} {l : List (List Gap)} (h : s.gaps = [.irq] :: l) :
    atPoint s = .done () (irqStep { s with gaps := l }) := by
  simp only [atPoint, h, serveGap]

/-- An `IRQ` before `A_TX_ON` finds `Transmitting` written (rules R193, R258). -/
theorem exec_txstart_irq {s : State} {d : List Byte} (h : s.gaps = [[], [], [], [.irq]])
    (hc : txCheck d.length s = none) : exec (.txstart d) s = .next { txLoad d s with
      gaps := [], mode := .transmitted
      out := s.out ++ [.transport (.act (.txfifoWrite d))] ++ [.noWake] ++ [.transport (.act .txOn)] ++
        [.reply .ok []] } := by
  have htests := tested_of_atPoint (check := txCheck d.length) (m := inOrder [txstartSteps d, reply .ok noValue])
    (atPoint_empty h) hc
  refine congrArg Host.Outcome.next (final_done (htests.trans (inOrder_step (inOrder_step rfl
    (inOrder_step (act_of_atPoint (by exact atPoint_empty rfl) _) (inOrder_step
      (writeMode_of_atPoint (by exact atPoint_empty rfl) _) (inOrder_step
        (act_of_atPoint (by exact atPoint_irq rfl) _) (inOrder_nil _)))))
    (inOrder_step (reply_quiet (by exact rfl) _ _) (inOrder_nil _)))))

/-! ## The statements -/

/-- Settles O30. -/
theorem rxenterEntersReceive : Obligations.RxenterEntersReceive := by
  intro s h
  rw [exec_rxenter h, put, List.append_assoc]
  rfl

/-- Settles O28. -/
theorem setupStartsTheSession : Obligations.SetupStartsTheSession := by
  intro s hv h hc hp h0 hlt
  have hmax : 1 ≤ s.cfg.maxHops := (Config.valid_maxHops hv).1
  exact exec_setup_accepted h hmax (setupCheck_eq_none.2 ⟨hc, hp, h0, hlt⟩)

/-- Settles O29: each test answers with its code, and the code has the number written out. -/
theorem linkRefusals : Obligations.LinkRefusals := by
  intro s d h
  refine ⟨fun hc => ?_, fun hc => ⟨fun hp => ?_, fun hp => ⟨fun h0 => ?_, fun h0 hr => ?_⟩⟩, fun hi hr hx => ?_,
    fun hm hn => ?_, fun ha => ?_⟩
  · exact exec_setup_refused h (setupCheck_reservedCfg hc)
  · exact exec_setup_refused h (setupCheck_badProfile hc hp)
  · exact exec_setup_refused h (setupCheck_emptyHoplist hc hp h0)
  · exact exec_setup_refused h (setupCheck_intervalRange hc hp h0 hr)
  · have hm : txAllowed s.cfg s.mode = false := by
      rw [← Bool.not_eq_true, txAllowed_iff]
      rintro (hi' | hr' | ⟨ht, hx'⟩)
      · exact hi hi'
      · exact hr hr'
      · exact hx.elim (fun hf => absurd (hf.symm.trans ht) nofun) fun hne => hne hx'
    exact ⟨exec_txstart_refused h (txCheck_badMode hm _), exec_send_refused h (txCheck_badMode hm _)⟩
  · have hc := txCheck_badLength (txAllowed_iff.2 hm) hn
    exact ⟨exec_txstart_refused h hc, exec_send_refused h hc⟩
  · exact exec_poll_refused h (pollCheck_noSession ha)

/-- Settles O32. -/
theorem sendStartsItsWait : Obligations.SendStartsItsWait := by
  intro s d h hm h1 hn
  refine ⟨_, exec_send_accepted h (txCheck_eq_none.2 ⟨txAllowed_iff.2 hm, h1, hn⟩), rfl, fun k => ?_⟩
  exact memRead_bufferOf rfl d k

/-- Settles O31: the payload is read back from `txbuf` as one block. -/
theorem txstartStartsATransmission : Obligations.TxstartStartsATransmission := by
  intro s d hm h1 hn
  have hc : txCheck d.length s = none := txCheck_eq_none.2 ⟨txAllowed_iff.2 hm, h1, hn⟩
  refine ⟨fun h => ⟨_, exec_txstart_accepted h hc, ?_, memRead_bufferOf rfl d⟩,
    fun h => ⟨_, exec_txstart_irq h hc, ?_, memRead_bufferOf rfl d⟩⟩
  · rw [put, List.append_assoc]
    rfl
  · simp only [List.append_assoc]
    rfl

/-- Settles O33: the three outcomes of `txDecide`. -/
theorem txwaitDecides : Obligations.TxwaitDecides := by
  intro s h
  refine ⟨fun hm => ?_, fun hm ht => ?_, fun hm ht => ?_⟩
  · exact exec_txwait_no_timeout h (hm ▸ txDecide_sent _ _) nofun
  · exact exec_txwait_timeout h (txDecide_timeout hm ht)
  · exact exec_txwait_no_timeout h (txDecide_wait hm ht) nofun

/-- Settles O34: the step is one `TXWAIT`, and a result ends the `SEND`. -/
theorem sendEndsWithItsWait : Obligations.SendEndsWithItsWait := by
  refine ⟨⟨rfl, rfl, rfl⟩, fun s hv h ha hp => ?_⟩
  obtain ⟨hsent, htimeout, hwait⟩ := txwaitDecides s h
  refine ⟨fun hm => ?_, fun hm ht => ?_, fun hm ht => ?_⟩
  · rw [step_ends_send hv ha hp (hsent hm) hp h rfl, List.append_assoc]
    rfl
  · rw [step_ends_send hv ha hp (htimeout hm ht) hp h rfl, List.append_assoc]
    rfl
  · exact step_waits_on hv ha hp (hwait hm ht) hp rfl

/-- Settles O35: `irqMode` is the identity but on the two pending modes. -/
theorem irqCompletesThePendingOperation : Obligations.IrqCompletesThePendingOperation := by
  intro s
  have hexec : exec .irq s = .next { s with mode := irqMode s.mode, out := s.out ++ [.noWake] } := rfl
  refine ⟨fun hm => ?_, fun hm => ?_, fun hr ht => ?_⟩
  · rw [hexec, hm]
    rfl
  · rw [hexec, hm]
    rfl
  · have hkeep : irqMode s.mode = s.mode := by
      cases hm : s.mode with
      | receiving => exact absurd hm hr
      | transmitting => exact absurd hm ht
      | _ => rfl
    rw [hexec, hkeep]

end Sys2Proof.Machine
end

section
/-! The poll cycle when nothing happens inside it: each of the five phases, and `POLL`, which runs them (rules R195 to R201,
R207). -/

namespace Sys2Proof.Machine

/-! ## The phases -/

theorem exec_p1Health_healthy {s : State} (h : s.gaps = []) (hv : healthInput s ≠ 0#8) :
    exec .p1Health s =
      .next { tookHealth s with out := s.out ++ [.transport (.regRead s.cfg.regHealth (healthInput s))] } :=
  congrArg Host.Outcome.next (final_done (p1Health_healthy h hv))

/-- Settles O37: the two outcomes of the health read. -/
theorem healthCheckRecovers : Obligations.HealthCheckRecovers := fun _ h hi =>
  ⟨exec_p1Health_healthy h, fun hv => congrArg Host.Outcome.next (final_done (p1Health_hung h hv hi))⟩

theorem isChannelData_iff {cfg : Config} {type : Byte} :
    isChannelData cfg type = true ↔ type &&& cfg.typeMask = cfg.typeChannel := beq_iff_eq

/-- `UNPACK` in place finds the payload length it asks for (rules R8, R198). -/
theorem unpackCheck_packet {cfg : Config} (hv : cfg.valid = true) {c : BitVec 3} (hc : c ≠ cfg.reservedCfg) :
    unpackCheck cfg c (cfg.pktsizeOf c - cfg.payloadOff) = none := by
  obtain ⟨hsize, -, -⟩ := Config.valid_proper hv hc
  exact unpackCheck_eq_none.2 ⟨hc, by rw [hsize, Nat.add_sub_cancel_left]⟩

/-- A packet of a session's configuration has a type byte (rules R8, R121). -/
theorem exists_packetIn_eq_cons {s : State} (hv : s.cfg.valid = true) (hc : cfgOf s.sp.flags ≠ s.cfg.reservedCfg) :
    ∃ type rest, packetIn s = type :: rest := by
  obtain ⟨-, hne, -⟩ := Config.valid_proper hv hc
  exact List.exists_cons_of_length_pos (by rw [packetIn_length]; omega)

/-- Settles O38: the packet has a type byte, and it decides between the two cases of the reception. -/
theorem receptionOfAPacket : Obligations.ReceptionOfAPacket := by
  intro s hv h hc
  refine ⟨fun hm => congrArg Host.Outcome.next (final_done (p2Rxproc_other_mode h hm)),
    fun hm => ⟨packetIn_length s, ?_⟩⟩
  obtain ⟨type, rest, hp⟩ := exists_packetIn_eq_cons hv hc
  have hhead : (packetIn s).head? = some type := by rw [hp]; rfl
  refine ⟨type, rest, hp, fun ht => ?_, fun ht => ?_⟩
  · have hother := rxPacket_other h hhead (Bool.eq_false_iff.2 (mt isChannelData_iff.1 ht))
    exact congrArg Host.Outcome.next (final_done ((p2Rxproc_received h hm).trans hother))
  · have hdata := rxPacket_channels h hhead (isChannelData_iff.2 ht) (unpackCheck_packet hv hc)
    exact congrArg Host.Outcome.next (final_done ((p2Rxproc_received h hm).trans hdata))

/-- The sampling point compared over the integers is `rssiDue` (rule R199, log entry 20). -/
theorem rssiDue_iff_int {s : State} : rssiDue s = true ↔
    s.lost.toNat < 2 ∧ (s.interval.toNat : Int) - 1500 ≤ ((s.now - s.tLast).toNat : Int) ∧
      (s.cfg.rssiOnce = false ∨ s.tRssi ≠ s.tLast) := by
  have hpoint : s.interval.toNat ≤ (s.now - s.tLast).toNat + 1500 ↔
      (s.interval.toNat : Int) - 1500 ≤ ((s.now - s.tLast).toNat : Int) := by omega
  rw [rssiDue_iff, hpoint]

/-- A due sample is `RSSISAMP` from the state with the baseline recorded (rule R199). -/
theorem exec_p3Rssi_due {s : State} (h : s.gaps = []) (hd : rssiDue s = true) :
    exec .p3Rssi s = exec .rssisamp { s with tRssi := s.tLast } := by
  refine congrArg Host.Outcome.next ((final_done (p3Rssi_quiet h)).trans ?_)
  rw [if_pos hd, final_done (rssisamp_quiet (by exact h))]
  rfl

theorem exec_p3Rssi_not_due {s : State} (h : s.gaps = []) (hd : rssiDue s = false) : exec .p3Rssi s = .next s := by
  refine congrArg Host.Outcome.next ((final_done (p3Rssi_quiet h)).trans ?_)
  rw [if_neg (ne_true_of_eq_false hd)]

/-- Settles O39: the three conditions are `rssiDue`. -/
theorem rssiSamplingPoint : Obligations.RssiSamplingPoint := fun _ h =>
  ⟨fun hdue => ⟨_, rfl, exec_p3Rssi_due h (rssiDue_iff_int.2 hdue)⟩,
    fun hdue => exec_p3Rssi_not_due h (Bool.eq_false_iff.2 (mt rssiDue_iff_int.1 hdue))⟩

namespace Settled

/-- Settles O40, case by case; in a namespace of its own, since the model has a `lossPolicy`. -/
theorem lossPolicy : Obligations.LossPolicy := by
  rintro s _ rfl
  exact ⟨fun ha hl he => congrArg Host.Outcome.next (lossPolicy_miss ha hl he),
    fun ha hl he => congrArg Host.Outcome.next (lossPolicy_resync ha hl he),
    fun ha he => congrArg Host.Outcome.next (lossPolicy_scan ha he),
    fun hmiss hresync hscan => congrArg Host.Outcome.next (lossPolicy_none hmiss hresync hscan)⟩

end Settled

section

variable {s : State} (h : s.gaps = []) (hi : s.idx.toNat < s.cfg.maxHops)

include h hi

/-- The next index is in range with the present one (rules R152, R201). -/
theorem exec_p5Hop_no_hop (hn : s.hopnow = false) : exec .p5Hop s = .next s := by
  refine congrArg Host.Outcome.next ((final_done (p5Hop_quiet h (nextIndex_lt_maxHops hi))).trans ?_)
  rw [if_neg (ne_true_of_eq_false hn)]

theorem exec_p5Hop_hop (hn : s.hopnow = true) : exec .p5Hop s = .next { s with
    idx := nextIndex s.cfg s.sp.hop s.hopcount s.idx, hopnow := false
    out := s.out ++ progchEvents (nextIndex s.cfg s.sp.hop s.hopcount s.idx) s } := by
  refine congrArg Host.Outcome.next ((final_done (p5Hop_quiet h (nextIndex_lt_maxHops hi))).trans ?_)
  rw [if_pos hn]
  rfl

end

/-- Settles O41. -/
theorem hopPhase : Obligations.HopPhase := fun _ _ h hi => ⟨exec_p5Hop_no_hop h hi, exec_p5Hop_hop h hi⟩

/-! ## The five phases in order -/

/-- Where nothing happens inside an operation, an instant changes nothing. -/
theorem pointKeeps_quiet {P : State → Prop} (hq : ∀ s, P s → s.gaps = []) : PointKeeps P fun _ => False := by
  intro s h
  unfold Ends
  rw [atPoint_quiet (hq s h)]
  exact h

/-- Where nothing happens inside, nothing does later, and nothing is abandoned. -/
theorem quiet_closed : PollClosed Quiet fun _ => False where
  point := pointKeeps_quiet fun _ h => h
  same := fun _ _ h e => e.gaps.trans h
  put := fun _ _ _ h => h
  note := fun _ _ h => h
  hang := fun _ h => h
  rx := fun _ _ h _ => h
  unpack := fun _ _ _ h _ => h

/-- A sequence that is never abandoned ends. -/
theorem Ends.exists_done {m : Steps Unit} {s : State} {P : State → Prop}
    (h : Ends m s (fun _ => P) fun _ => False) : ∃ t, m s = .done () t ∧ P t := by
  unfold Ends at h
  cases hm : m s with
  | done a t => rw [hm] at h; exact ⟨t, rfl, h⟩
  | abandoned t => rw [hm] at h; exact h.elim

/-- Settles O36: each phase ends, and `POLL` is the phases one after another. -/
theorem pollRunsTheFivePhases : Obligations.PollRunsTheFivePhases := by
  intro s h ha
  obtain ⟨s1, e1, h1⟩ := (pollClosed_p1Health quiet_closed (s := { tookUs s with
    out := s.out ++ [.wdgKick], now := usInput s, phase := .health }) h).exists_done
  obtain ⟨s2, e2, h2⟩ := (pollClosed_p2Rxproc quiet_closed (s := { s1 with phase := .rxproc }) h1).exists_done
  obtain ⟨s3, e3, h3⟩ := (pollClosed_p3Rssi quiet_closed (s := { s2 with phase := .rssi }) h2).exists_done
  have h4 := pollClosed_lossPolicy quiet_closed (s := { s3 with phase := .loss }) h3
  obtain ⟨s5, e5, h5⟩ := (pollClosed_p5Hop quiet_closed
    (s := { lossPolicy { s3 with phase := .loss } with phase := .hop }) h4).exists_done
  have hclock : andThen (reading sampleUs) (fun now => update fun s => { s with now := now }) (put .wdgKick s) =
      .done () { tookUs s with out := s.out ++ [.wdgKick], now := usInput s } :=
    andThen_done ((reading_quiet (by exact h) _).trans (sampleUs_apply _))
  have hpoll : pollSteps s = .done () { s5 with phase := .idle } :=
    inOrder_step (wdgKick_quiet h) (inOrder_step hclock (inOrder_step rfl (inOrder_step e1 (inOrder_step rfl
      (inOrder_step e2 (inOrder_step rfl (inOrder_step e3 (inOrder_step rfl (inOrder_step rfl (inOrder_step rfl
        (inOrder_step e5 (inOrder_step rfl (inOrder_nil _)))))))))))))
  refine ⟨s1, s2, s3, lossPolicy { s3 with phase := .loss }, s5, congrArg Host.Outcome.next (final_done e1),
    congrArg Host.Outcome.next (final_done e2), congrArg Host.Outcome.next (final_done e3), rfl,
    congrArg Host.Outcome.next (final_done e5), ?_⟩
  exact congrArg Host.Outcome.next
    (command_done h (pollCheck_accepted ha) (inOrder_step hpoll (inOrder_nil _)) h5)

/-! ## A `POLL` that processes a packet -/

/-- The trace after more outputs (rule R66). -/
theorem transportTrace_of_out {s t : State} {added : List Output} (h : t.out = s.out ++ added) :
    transportTrace t = transportTrace s ++ added.filterMap Output.transportEvent := by
  rw [transportTrace, h, List.filterMap_append]
  rfl

theorem progchEvents_congr {s t : State} (hcfg : t.cfg = s.cfg) (hsp : t.sp = s.sp) (i : Byte) :
    progchEvents i t = progchEvents i s := by
  simp only [progchEvents, hcfg, hsp]

theorem consumerEvents_transportEvent (s : State) : (consumerEvents s).filterMap Output.transportEvent = [] := by
  unfold consumerEvents
  split <;> rfl

/-- `u` is what `P2_RXPROC` makes of `s` in the registers and the transport trace, whichever kind of packet it processed (rule
R198). -/
structure PacketTaken (s u : State) : Prop where
  cfg : u.cfg = s.cfg := by rfl
  sp : u.sp = s.sp := by rfl
  gaps : u.gaps = s.gaps := by rfl
  idx : u.idx = s.idx := by rfl
  hopcount : u.hopcount = s.hopcount := by rfl
  interval : u.interval = s.interval := by rfl
  rssiSum : u.rssiSum = s.rssiSum := by rfl
  rssiCnt : u.rssiCnt = s.rssiCnt := by rfl
  rssiSmooth : u.rssiSmooth = s.rssiSmooth := by rfl
  tRssi : u.tRssi = s.tRssi := by rfl
  tLoss : u.tLoss = s.tLoss := by rfl
  now : u.now = s.now := by rfl
  tLast : u.tLast = s.now := by rfl
  lost : u.lost = 0#8 := by rfl
  acq : u.acq = true := by rfl
  quality : u.quality = qualityShift s.cfg.qw s.quality true := by rfl
  mode : u.mode = .receiving := by rfl
  hopnow : u.hopnow = true := by rfl
  trace : transportTrace u = transportTrace s ++ (packetEvents s ++ rxenterEvents).filterMap Output.transportEvent

/-- The consumer's call is no transport event (rules R66, R204). -/
theorem exec_p2Rxproc_takes {s : State} (hv : s.cfg.valid = true) (h : s.gaps = [])
    (hc : cfgOf s.sp.flags ≠ s.cfg.reservedCfg) (hm : s.mode = .received) :
    ∃ u, exec .p2Rxproc s = .next u ∧ PacketTaken s u := by
  obtain ⟨-, hreceived⟩ := receptionOfAPacket s hv h hc
  obtain ⟨-, type, rest, -, hother, hdata⟩ := hreceived hm
  by_cases ht : type &&& s.cfg.typeMask = s.cfg.typeChannel
  · refine ⟨_, hdata ht, { trace := ?_ }⟩
    simp only [transportTrace, List.filterMap_append, consumerEvents_transportEvent, List.nil_append,
      List.append_assoc]
  · refine ⟨_, hother ht, { trace := ?_ }⟩
    simp only [transportTrace, List.filterMap_append, List.append_assoc]

/-- At the instant of a reception no RSSI sample is due (rules R141, R199). -/
theorem rssiDue_eq_false_of_received {s : State} (ht : s.tLast = s.now) (hi : 2000 ≤ s.interval.toNat) :
    rssiDue s = false := by
  rw [← Bool.not_eq_true, rssiDue_iff, ht, BitVec.sub_self, BitVec.toNat_zero]
  omega

/-- At the instant of a reception no case of the loss policy fires (rule R200). -/
theorem lossPolicy_received {s : State} (ht : s.tLast = s.now) : lossPolicy s = s := by
  have he : (s.now - s.tLast).toNat = 0 := by rw [ht, BitVec.sub_self, BitVec.toNat_zero]
  apply lossPolicy_none <;> rw [he] <;> omega

theorem exec_next_unique {i : Instr} {s t u : State} (ht : exec i s = .next t) (hu : exec i s = .next u) : t = u :=
  Host.Outcome.next.inj (ht.symm.trans hu)

/-- A `POLL` in which `P2_RXPROC` leaves `u` with a packet just received: `P3_RSSI` and `P4_LOSS` do nothing, `P5_HOP` hops
(rule R207). -/
theorem exec_poll_of_received {s r u : State} (h : s.gaps = []) (ha : s.sessActive = true)
    (hr : exec .p1Health { tookUs s with out := s.out ++ [.wdgKick], now := usInput s, phase := .health } = .next r)
    (hu : exec .p2Rxproc { r with phase := .rxproc } = .next u) (hq : u.gaps = []) (ht : u.tLast = u.now)
    (hint : 2000 ≤ u.interval.toNat) (hi : u.idx.toNat < u.cfg.maxHops) (hn : u.hopnow = true) :
    exec .poll s = .next { u with
      phase := .idle, idx := nextIndex u.cfg u.sp.hop u.hopcount u.idx, hopnow := false
      out := u.out ++ progchEvents (nextIndex u.cfg u.sp.hop u.hopcount u.idx) u ++ [.reply .ok []] } := by
  obtain ⟨s1, s2, s3, s4, s5, e1, e2, e3, e4, e5, epoll⟩ := pollRunsTheFivePhases s h ha
  obtain rfl := exec_next_unique e1 hr
  obtain rfl := exec_next_unique e2 hu
  obtain rfl := exec_next_unique e3 (exec_p3Rssi_not_due hq (rssiDue_eq_false_of_received ht hint))
  obtain rfl : s4 = _ := (Host.Outcome.next.inj e4).symm.trans (lossPolicy_received ht)
  obtain rfl := exec_next_unique e5 (exec_p5Hop_hop hq hi hn)
  exact epoll

/-- The state in which a `POLL` of a healthy transceiver comes to `P2_RXPROC` (rules R195, R197). -/
def atRxproc (s : State) : State :=
  { tookHealth (tookUs s) with
    now := usInput s, phase := .rxproc
    out := s.out ++ [.wdgKick] ++ [.transport (.regRead s.cfg.regHealth (healthInput (tookUs s)))] }

theorem transportTrace_atRxproc (s : State) :
    transportTrace (atRxproc s) = transportTrace s ++ [.regRead s.cfg.regHealth (healthInput (tookUs s))] :=
  transportTrace_of_out (added := [.wdgKick, .transport (.regRead s.cfg.regHealth (healthInput (tookUs s)))])
    (List.append_assoc ..)

/-- Settles O42: of the outputs of this `POLL` the watchdog strobe, the consumer's call and the answer are no transport
events. -/
theorem receiveBeatsTheDeadlines : Obligations.ReceiveBeatsTheDeadlines := by
  intro s hv hl h ha hm hhealth
  have hs := hl.session ha
  obtain ⟨u, hu, k⟩ := exec_p2Rxproc_takes (s := atRxproc s) hv h hs.cfg_ok hm
  have hr : exec .p1Health { tookUs s with out := s.out ++ [.wdgKick], now := usInput s, phase := .health } =
      .next { atRxproc s with phase := .health } := exec_p1Health_healthy (by exact h) (by exact hhealth)
  have hint : 2000 ≤ u.interval.toNat := k.interval ▸ hs.interval_low
  have hi : u.idx.toNat < u.cfg.maxHops := by rw [k.idx, k.cfg]; exact hl.idx_lt
  have hpoll := exec_poll_of_received h ha hr hu (k.gaps.trans h) (k.tLast.trans k.now.symm) hint hi k.hopnow
  have hnext : nextIndex u.cfg u.sp.hop u.hopcount u.idx = nextIndex s.cfg s.sp.hop s.hopcount s.idx := by
    rw [k.cfg, k.sp, k.hopcount, k.idx]
    rfl
  refine ⟨_, packetIn (atRxproc s), afcIn (atRxproc s), hpoll, k.rssiSum, k.rssiCnt, k.rssiSmooth, k.tRssi, k.tLast,
    k.lost, k.tLoss, k.acq, k.quality, hnext, rfl, k.mode, ?_⟩
  rw [transportTrace_of_out (s := u) (List.append_assoc ..), k.trace, transportTrace_atRxproc,
    progchEvents_congr (s := s) k.cfg k.sp]
  simp only [List.filterMap_append, List.append_assoc]
  rfl

end Sys2Proof.Machine
end

section
/-! What a `POLL` makes of `mode` and of the hop index: both change in few places, `mode` where receive is entered, the index
where a hop is taken, and the transceiver's registers where a hop is programmed (rules R195 to R201). -/

namespace Sys2Proof.Machine

/-- Whether an output leaves what is known of the transceiver's registers: it writes none and re-initialises none (rule R55). -/
def Output.keepsShadow : Output → Bool
  | .transport (.regWrite _ _) | .transport (.act (.reinit _)) => false
  | .transport .claim | .transport .release | .transport (.regRead _ _) | .transport (.act _) => true
  | .wdgKick | .consumer _ _ | .reply _ _ | .noWake => true

/-- `t` has what `s` has of the session, the hop index, the outputs and the instants to come; `mode` may have become
`Receiving`. -/
structure SameHop (s t : State) : Prop where
  cfg : t.cfg = s.cfg := by rfl
  sp : t.sp = s.sp := by rfl
  sessActive : t.sessActive = s.sessActive := by rfl
  idx : t.idx = s.idx := by rfl
  out : t.out = s.out := by rfl
  gaps : t.gaps = s.gaps := by rfl
  mode : t.mode = s.mode ∨ t.mode = .receiving := by exact .inl rfl

/-- `P` is kept by what happens inside a `POLL` but for hops and the programming of one; `R` holds where a `RESET` abandons
it. -/
structure HopKept (P R : State → Prop) : Prop where
  point : PointKeeps P R
  same : ∀ {s t}, P s → SameHop s t → P t
  put : ∀ {o s}, o.keepsShadow = true → P s → P (put o s)

/-- `P` is also kept by a hop and by restoring the present hop, each with its programming: by every phase of a `POLL`. -/
structure PhaseClosed (P R : State → Prop) : Prop extends HopKept P R where
  retune : ∀ {s}, P s → Ends (inOrder [reinit, withState fun t => progch t.idx]) s (fun _ => P) R
  hop : ∀ {s}, P s → Ends (inOrder [update advanceWrite, withState fun t => progch t.idx]) s (fun _ => P) R

section

variable {P R : State → Prop} (K : HopKept P R) {s : State} (h : P s)

include K h

theorem HopKept.update {f : State → State} (e : SameHop s (f s)) : Ends (update f) s (fun _ => P) R :=
  update_ends (K.same h e)

theorem HopKept.emit {o : Output} (ho : o.keepsShadow = true) : Ends (emit o) s (fun _ => P) R :=
  emit_ends K.point h fun _ ht => K.put ho ht

theorem HopKept.rxenter : Ends rxenter s (fun _ => P) R :=
  Ends.step (writeMode_ends (Q := fun _ => P) K.point h fun _ ht => K.same ht { mode := .inr rfl }) fun _ ht =>
    Ends.step (K.emit ht rfl) fun _ hu => Ends.step (K.emit hu rfl) fun _ hv => Ends.last (K.emit hv rfl)

theorem HopKept.rxDecode (bytes : List Byte) : Ends (rxDecode bytes) s (fun _ => P) R := by
  have hty : Ends (typeByte bytes) s (fun _ => P) R := by
    cases bytes with
    | nil => exact K.same h {}
    | cons b r => exact h
  refine Ends.andThen (hty.mono (fun ty t ht => ?_) fun _ => id)
  refine Ends.onlyIf (fun _ => Ends.step (P := P) ?_ fun u hu => Ends.last (P := P) ?_) fun _ => ht
  · exact Ends.inPlace (fun _ _ => K.same ht {}) fun _ => K.update ht {}
  · exact Ends.onlyIf (fun _ => K.emit hu rfl) fun _ => hu

theorem HopKept.rxPacket : Ends rxPacket s (fun _ => P) R := by
  refine Ends.andThen (reading_ends K.point h fun t ht => ?_)
  have hread : P (Machine.put (.transport (.act (.rxfifoRead (s.cfg.pktsizeOf (cfgOf s.sp.flags))
      (packetInput (s.cfg.pktsizeOf (cfgOf s.sp.flags)) t)))) (tookPacket t)) := K.put rfl (K.same ht {})
  refine Ends.step (K.update hread {}) fun t ht => ?_
  refine Ends.step (P := P) (Ends.andThen (reading_ends K.point ht fun u hu => ?_)) fun t ht => ?_
  · exact K.same (K.put (o := .transport (.act (.afcRead (afcInput u)))) rfl hu) {}
  refine Ends.step (K.update ht {}) fun t ht => Ends.step (K.rxDecode ht _) fun t ht => ?_
  exact Ends.step (K.update ht {}) fun t ht => Ends.step (K.rxenter ht) fun t ht => Ends.last (K.update ht {})

theorem HopKept.p2Rxproc : Ends p2Rxproc s (fun _ => P) R :=
  Ends.andThen (readMode_ends K.point h fun _ ht => Ends.onlyIf (fun _ => K.rxPacket ht) fun _ => ht)

theorem HopKept.rssisamp : Ends rssisamp s (fun _ => P) R := by
  refine Ends.andThen (reading_ends K.point h fun u hu => ?_)
  have hread : P (Machine.put (.transport (.regRead u.cfg.regRssi (rssiInput u))) (tookRssi u)) := K.put rfl (K.same hu {})
  refine K.same hread ?_
  unfold rssiAccumulate
  simp only
  split <;> exact {}

theorem HopKept.p3Rssi : Ends p3Rssi s (fun _ => P) R :=
  Ends.onlyIf (fun _ => Ends.step (K.update h {}) fun _ ht => Ends.last (K.rssisamp ht)) fun _ => h

theorem HopKept.lossPolicy : P (lossPolicy s) := by
  rcases lossPolicy_cases s with ⟨-, -, he⟩ | ⟨-, -, he⟩ | ⟨-, he⟩ | he <;> rw [he]
  · exact K.same h {}
  · exact K.same h {}
  · exact K.same h {}
  · exact h

end

section

variable {P R : State → Prop} (C : PhaseClosed P R) {s : State} (h : P s)

include C h

theorem PhaseClosed.p1Health : Ends p1Health s (fun _ => P) R := by
  have K := C.toHopKept
  refine Ends.andThen (reading_ends K.point h fun t ht => ?_)
  have hread : P (Machine.put (.transport (.regRead t.cfg.regHealth (healthInput t))) (tookHealth t)) :=
    K.put rfl (K.same ht {})
  refine Ends.onlyIf (fun _ => Ends.step (K.update hread {}) fun u hu => ?_) fun _ => hread
  exact Ends.append (l := [_, _]) ((C.retune hu).mono (fun _ _ hv => Ends.last (K.rxenter hv)) fun _ => id)

theorem PhaseClosed.p5Hop : Ends p5Hop s (fun _ => P) R :=
  Ends.onlyIf (fun _ => Ends.append (l := [_, _]) ((C.hop h).mono
    (fun _ _ ht => Ends.last (C.toHopKept.update ht {})) fun _ => id)) fun _ => h

theorem PhaseClosed.pollSteps : Ends pollSteps s (fun _ => P) R := by
  have K := C.toHopKept
  refine Ends.step (K.emit h rfl) fun t ht => ?_
  refine Ends.step (P := P) (Ends.andThen (reading_ends K.point ht fun u hu => K.same hu {})) fun t ht => ?_
  refine Ends.step (K.update ht {}) fun t ht => Ends.step (C.p1Health ht) fun t ht => ?_
  refine Ends.step (K.update ht {}) fun t ht => Ends.step (K.p2Rxproc ht) fun t ht => ?_
  refine Ends.step (K.update ht {}) fun t ht => Ends.step (K.p3Rssi ht) fun t ht => ?_
  refine Ends.step (K.update ht {}) fun t ht => ?_
  refine Ends.step (P := P) (update_ends (K.lossPolicy ht)) fun t ht => ?_
  exact Ends.step (K.update ht {}) fun t ht => Ends.step (C.p5Hop ht) fun t ht => Ends.last (K.update ht {})

end

end Sys2Proof.Machine
end

section
/-! Which operations write `mode`, and to what, when nothing happens inside them (rule R205). -/

namespace Sys2Proof.Machine

/-! ## Sequences of steps -/

/-- Nothing happens inside, and `mode` is one that `Q` allows. -/
structure QuietMode (Q : RadioMode → Prop) (s : State) : Prop where
  gaps : s.gaps = []
  mode : Q s.mode

section

variable {Q : RadioMode → Prop}

theorem quietMode_point : PointKeeps (QuietMode Q) fun _ => False := pointKeeps_quiet fun _ h => h.gaps

theorem QuietMode.put {s : State} (o : Output) (h : QuietMode Q s) : QuietMode Q (put o s) := { h with }

theorem QuietMode.progch {s : State} (h : QuietMode Q s) (i : Byte) :
    Ends (progch i) s (fun _ => QuietMode Q) fun _ => False :=
  progch_ends quietMode_point (fun o _ _ ht => ht.put o) (fun _ _ ht => { ht with }) h i

theorem QuietMode.reinit {s : State} (h : QuietMode Q s) : Ends reinit s (fun _ => QuietMode Q) fun _ => False :=
  reinit_ends quietMode_point (fun o _ _ ht => ht.put o) h

theorem QuietMode.p5Hop {s : State} (h : QuietMode Q s) : Ends p5Hop s (fun _ => QuietMode Q) fun _ => False :=
  Ends.onlyIf (fun _ => Ends.step (P := QuietMode Q) (update_ends { h with }) fun t ht =>
    Ends.step (ht.progch t.idx) fun _ hu => Ends.last (P := QuietMode Q) (update_ends { hu with })) fun _ => h

/-- Receive is entered by writing `Receiving`: where that is allowed the phases of a `POLL` keep to what is. -/
theorem quietMode_closed (hr : Q .receiving) : PhaseClosed (QuietMode Q) fun _ => False where
  point := quietMode_point
  same := fun h e => ⟨e.gaps.trans h.gaps, e.mode.elim (fun he => he ▸ h.mode) fun he => he ▸ hr⟩
  put := fun _ h => h.put _
  retune := fun h => Ends.step h.reinit fun t ht => Ends.last (ht.progch t.idx)
  hop := fun h => Ends.step (P := QuietMode Q) (update_ends { h with }) fun t ht => Ends.last (ht.progch t.idx)

theorem QuietMode.setupSteps {s : State} (hr : Q .receiving) (h : QuietMode Q s) :
    Ends setupSteps s (fun _ => QuietMode Q) fun _ => False := by
  have K := (quietMode_closed hr).toHopKept
  refine Ends.step (K.update h {}) fun t ht => Ends.step (K.update ht {}) fun t ht => ?_
  refine Ends.step (P := QuietMode Q) (Ends.andThen (reading_ends K.point ht fun u hu => ?_)) fun t ht => ?_
  · exact { hu with }
  · exact Ends.step ht.reinit fun u hu => Ends.step (hu.progch _) fun v hv => Ends.last (K.rxenter hv)

end

/-! ## Operations -/

/-- A sequence that is never abandoned ends as it keeps. -/
theorem Ends.final_of_never {P : State → Prop} {m : Steps Unit} {s : State}
    (h : Ends m s (fun _ => P) fun _ => False) : P (Machine.final m s) :=
  (h.mono (fun _ _ => id) fun _ => False.elim).final

/-- A command leaves a mode that `Q` allows, refused or not, if its steps do. -/
theorem command_mode {Q : RadioMode → Prop} {check : State → Option RefuseCode} {steps : List (Steps Unit)}
    {value : State → List Byte} {s : State} (h : QuietMode Q s)
    (hs : check s = none → Ends (inOrder steps) s (fun _ => QuietMode Q) fun _ => False) :
    Q (command check steps value s).mode := by
  cases hc : check s with
  | some c => rw [command_refusedWith h.gaps hc]; exact h.mode
  | none =>
    obtain ⟨t, ht, hq⟩ := (hs hc).exists_done
    rw [command_done h.gaps hc ht hq.gaps]
    exact hq.mode

/-- The operations that write `mode` (rule R205). -/
def writesMode : Instr → Bool
  | .reset | .irq | .rxenter | .setup | .p1Health | .p2Rxproc | .poll | .txstart _ | .send _ => true
  | _ => false

theorem wrregWrite_quietMode {Q : RadioMode → Prop} {s : State} (h : QuietMode Q s) (rn : Half) (v : List Byte) :
    QuietMode Q (wrregWrite rn v s) := by
  unfold wrregWrite
  split
  · exact h
  · exact { h with }

theorem rssiAccumulate_mode (v : Byte) (s : State) : (rssiAccumulate v s).mode = s.mode := by
  unfold rssiAccumulate
  simp only
  split <;> rfl

theorem lossPolicy_mode (s : State) : (lossPolicy s).mode = s.mode := by
  rcases lossPolicy_cases s with ⟨-, -, he⟩ | ⟨-, -, he⟩ | ⟨-, he⟩ | he <;> rw [he] <;> rfl

/-- Every other operation leaves `mode` as it is. -/
theorem exec_keeps_mode {i : Instr} {s t : State} (h : s.gaps = []) (hi : writesMode i = false)
    (he : exec i s = .next t) : t.mode = s.mode := by
  have hs : QuietMode (· = s.mode) s := ⟨h, rfl⟩
  cases i <;> simp only [writesMode, reduceCtorEq] at hi <;> clear hi <;> injection he with he <;> subst he
  case nop | rdreg | pktsize | pack => exact command_mode hs fun _ => Ends.nil hs
  case wrreg rn v =>
    exact command_mode hs fun _ => Ends.last (P := QuietMode _) (update_ends (wrregWrite_quietMode hs rn v))
  case attach | endsess | unpack | interval | hopcnt | advance =>
    exact command_mode hs fun _ => Ends.last (P := QuietMode _) (update_ends { hs with })
  case progch k =>
    exact command_mode hs fun _ => Ends.last (progchSteps_ends quietMode_point (fun o _ _ ht => ht.put o) hs k)
  case p3Rssi =>
    rw [final_done (p3Rssi_quiet h)]
    split
    · exact rssiAccumulate_mode _ _
    · rfl
  case p4Loss => exact lossPolicy_mode s
  case p5Hop => exact hs.p5Hop.final_of_never.mode
  case txwait => rw [final_done (txwait_quiet h)]; rfl
  case rssisamp => rw [final_done (rssisamp_quiet h)]; exact rssiAccumulate_mode _ _
  case qhit | qmiss | qclr | rssiclr => rfl

/-- Entering receive is the only write of `mode` of five operations (rules R191, R192, R195, R197, R198). -/
theorem exec_mode_or_receiving {i : Instr} {s t : State} (h : s.gaps = [])
    (hi : i = .rxenter ∨ i = .setup ∨ i = .p1Health ∨ i = .p2Rxproc ∨ i = .poll) (he : exec i s = .next t) :
    t.mode = s.mode ∨ t.mode = .receiving := by
  have hs : QuietMode (fun m => m = s.mode ∨ m = .receiving) s := ⟨h, .inl rfl⟩
  have C := quietMode_closed (Q := fun m => m = s.mode ∨ m = .receiving) (.inr rfl)
  rcases hi with rfl | rfl | rfl | rfl | rfl <;> injection he with he <;> subst he
  · exact command_mode hs fun _ => Ends.last (C.toHopKept.rxenter hs)
  · exact command_mode hs fun _ => Ends.last (hs.setupSteps (.inr rfl))
  · exact (C.p1Health hs).final_of_never.mode
  · exact (C.toHopKept.p2Rxproc hs).final_of_never.mode
  · exact command_mode hs fun _ => Ends.last (C.pollSteps hs)

/-- A transmission starts from a mode that allows it and with a length in range (rules R193, R194). -/
theorem exec_transmit_mode {d : List Byte} {i : Instr} {s t : State} (h : s.gaps = [])
    (hi : i = .txstart d ∨ i = .send d) (he : exec i s = .next t) :
    t.mode = s.mode ∨ txCheck d.length s = none ∧ t.mode = .transmitting := by
  cases hc : txCheck d.length s with
  | some c =>
    left
    rcases hi with rfl | rfl
    · rw [exec_next_unique he (exec_txstart_refused h hc)]; rfl
    · rw [exec_next_unique he (exec_send_refused h hc)]; rfl
  | none =>
    refine .inr ⟨rfl, ?_⟩
    rcases hi with rfl | rfl
    · rw [exec_next_unique he (exec_txstart_accepted h hc)]; rfl
    · rw [exec_next_unique he (exec_send_accepted h hc)]

/-- What an `IRQ` writes (rule R203). -/
theorem irqMode_cases (m : RadioMode) : irqMode m = m ∨ m = .receiving ∧ irqMode m = .received ∨
    m = .transmitting ∧ irqMode m = .transmitted := by
  cases m <;> simp [irqMode]

/-- Settles O44: the operations that write `mode`, one kind after another. -/
theorem writesOfMode : Obligations.WritesOfMode := by
  intro i s t h he
  have htransmit : ∀ d, i = .txstart d ∨ i = .send d → t.mode = s.mode ∨
      (1 ≤ d.length ∧ d.length ≤ s.cfg.txbufLen) ∧
        (s.mode = .idle ∨ s.mode = .receiving ∨ s.cfg.txFromReceived = true ∧ s.mode = .received) ∧
        t.mode = .transmitting := fun d hi =>
    (exec_transmit_mode h hi he).imp_right fun ⟨hc, hm⟩ =>
      have ⟨hallowed, hlen⟩ := txCheck_eq_none.1 hc
      ⟨hlen, txAllowed_iff.1 hallowed, hm⟩
  cases i with
  | reset =>
    obtain rfl := exec_next_unique he rfl
    exact .inr (.inl ⟨rfl, rfl⟩)
  | irq =>
    obtain rfl := exec_next_unique he rfl
    exact (irqMode_cases s.mode).imp_right fun hm => .inr (.inr (.inl ⟨rfl, hm⟩))
  | rxenter | setup | p1Health | p2Rxproc | poll =>
    exact (exec_mode_or_receiving h (by simp) he).imp_right fun hm => .inr (.inl ⟨by simp, hm⟩)
  | txstart d =>
    exact (htransmit d (.inl rfl)).imp_right fun ⟨hlen, hm⟩ => .inr (.inr (.inr ⟨⟨d, .inl rfl, hlen⟩, hm⟩))
  | send d =>
    exact (htransmit d (.inr rfl)).imp_right fun ⟨hlen, hm⟩ => .inr (.inr (.inr ⟨⟨d, .inr rfl, hlen⟩, hm⟩))
  | _ => exact .inl (exec_keeps_mode h rfl he)

end Sys2Proof.Machine
end

section
/-! What an accepted `SETUP` and a `POLL` leave in the transceiver's registers: the values of hop `idx`, last written by a
`PROGCH` (rules R55, R153, R191, R197, R201). -/

namespace Sys2Proof.Machine

/-! ## What is known of the registers -/

theorem xcvrShadow_put_of_keepsShadow {o : Output} (ho : o.keepsShadow = true) (s : State) (a : Nat) :
    xcvrShadow (transportTrace (put o s)) a = xcvrShadow (transportTrace s) a := by
  rw [xcvrShadow_put]
  cases o with
  | transport e =>
    cases e with
    | regWrite a' v => cases ho
    | act x => cases x with
      | reinit sp => cases ho
      | _ => rfl
    | _ => rfl
  | _ => rfl

theorem xcvrShadow_put_regWrite (a : Nat) (v : Byte) (s : State) (a' : Nat) :
    xcvrShadow (transportTrace (put (.transport (.regWrite a v)) s)) a' =
      if a = a' then some v else xcvrShadow (transportTrace s) a' := xcvrShadow_put _ _ _

/-- `t` has what `s` has of the session, the hop index and what is known of the transceiver's registers. -/
structure SameTuning (s t : State) : Prop where
  cfg : t.cfg = s.cfg := by rfl
  sp : t.sp = s.sp := by rfl
  sessActive : t.sessActive = s.sessActive := by rfl
  idx : t.idx = s.idx := by rfl
  shadow : ∀ a, xcvrShadow (transportTrace t) a = xcvrShadow (transportTrace s) a := by exact fun _ => rfl

theorem SameHop.sameTuning {s t : State} (e : SameHop s t) : SameTuning s t :=
  { e with shadow := fun a => by rw [transportTrace, e.out]; rfl }

theorem sameTuning_put {o : Output} (ho : o.keepsShadow = true) (s : State) : SameTuning s (put o s) where
  shadow := xcvrShadow_put_of_keepsShadow ho s

theorem sameTuning_irqStep (s : State) : SameTuning s (irqStep s) where
  shadow := xcvrShadow_put_of_keepsShadow rfl _

theorem sameTuning_refuseBusy (s : State) : SameTuning s (refuseBusy s) where
  shadow := xcvrShadow_put_of_keepsShadow rfl _

/-- `P` speaks of the session, the hop index and what is known of the transceiver's registers only. -/
abbrev OfTuning (P : State → Prop) : Prop := ∀ s t, P s → SameTuning s t → P t

/-- What may happen inside an operation: `N` says it of the instants to come, `R` of where a `RESET` among it leads. -/
structure Inside (N R : State → Prop) : Prop where
  point : ∀ {P}, OfTuning P → PointKeeps (fun s => P s ∧ N s) R
  gaps : ∀ {s t}, N s → t.gaps = s.gaps → N t

theorem inside_noReset : Inside (fun s => noResetInside s = true) fun _ => False where
  point := fun hP => pointKeeps_noReset (fun s _ h => hP s _ h {}) (fun s h => hP s _ h (sameTuning_irqStep s))
    (fun s h => hP s _ h (sameTuning_refuseBusy s))
  gaps := fun h e => by rw [noResetInside, e]; exact h

/-! ## Programming a hop -/

/-- `t` has what `g` has of the session and the hop index, and the registers `known` hold the values named with them. -/
structure Programming (g : State) (known : List (Nat × Byte)) (t : State) : Prop where
  cfg : t.cfg = g.cfg := by rfl
  sp : t.sp = g.sp := by rfl
  sessActive : t.sessActive = g.sessActive := by rfl
  idx : t.idx = g.idx := by rfl
  known : ∀ p ∈ known, xcvrShadow (transportTrace t) p.1 = some p.2

/-- Before the first write no register counts as known. -/
theorem programming_nil {g t : State} (cfg : t.cfg = g.cfg) (sp : t.sp = g.sp) (sessActive : t.sessActive = g.sessActive)
    (idx : t.idx = g.idx) : Programming g [] t := ⟨cfg, sp, sessActive, idx, nofun⟩

theorem programming_ofTuning (g : State) (known : List (Nat × Byte)) : OfTuning (Programming g known) := fun _ _ h e =>
  { cfg := e.cfg.trans h.cfg
    sp := e.sp.trans h.sp
    sessActive := e.sessActive.trans h.sessActive
    idx := e.idx.trans h.idx
    known := fun p hp => (e.shadow p.1).trans (h.known p hp) }

/-- The registers that `PROGCH i` writes, with what it writes (rule R153), the last one first. -/
def hopRegisters (i : Byte) (s : State) : List (Nat × Byte) :=
  [(s.cfg.regRxhdr, headerByte s.sp.magic i), (s.cfg.regTxhdr, headerByte s.sp.magic i),
    (s.cfg.regChsel, hopAt s.sp.hop i.toNat)]

/-- The three registers of a hop are different ones (rule R8). -/
theorem hopRegisters_ne {cfg : Config} (hv : cfg.valid = true) :
    cfg.regChsel ≠ cfg.regTxhdr ∧ cfg.regChsel ≠ cfg.regRxhdr ∧ cfg.regTxhdr ≠ cfg.regRxhdr := by
  have hnodup := Config.valid_regs hv
  simp only [Config.regs, List.nodup_cons, List.mem_cons, not_or] at hnodup
  obtain ⟨⟨htx, hrx, -⟩, ⟨htr, -⟩, -⟩ := hnodup
  exact ⟨htx, hrx, htr⟩

theorem Programming.tuned {g t : State} (h : Programming g (hopRegisters g.idx g) t) : Tuned t where
  chsel := by rw [h.cfg, h.sp, h.idx]; exact h.known _ (.tail _ (.tail _ (.head _)))
  txhdr := by rw [h.cfg, h.sp, h.idx]; exact h.known _ (.tail _ (.head _))
  rxhdr := by rw [h.cfg, h.sp, h.idx]; exact h.known _ (.head _)

section

variable {N R : State → Prop} (I : Inside N R)

include I

theorem Inside.hopKept {P : State → Prop} (hP : OfTuning P) : HopKept (fun s => P s ∧ N s) R where
  point := I.point hP
  same := fun h e => ⟨hP _ _ h.1 e.sameTuning, I.gaps h.2 e.gaps⟩
  put := fun ho h => ⟨hP _ _ h.1 (sameTuning_put ho _), I.gaps h.2 rfl⟩

variable {g s : State} {known : List (Nat × Byte)}

/-- A write to a register of which nothing is known. -/
theorem Inside.regWrite (h : Programming g known s ∧ N s) {a : Nat} (ha : ∀ p ∈ known, p.1 ≠ a) (v : Byte) :
    Ends (regWrite a v) s (fun _ t => Programming g ((a, v) :: known) t ∧ N t) R := by
  refine emit_ends (I.point (programming_ofTuning g known)) h fun t ht => ⟨{ ht.1 with known := ?_ }, I.gaps ht.2 rfl⟩
  intro p hp
  rw [xcvrShadow_put_regWrite]
  rcases List.mem_cons.1 hp with rfl | hp
  · exact if_pos rfl
  · rw [if_neg (ha p hp).symm]
    exact ht.1.known p hp

variable (h : Programming g [] s ∧ N s)

include h

theorem Inside.reinit : Ends reinit s (fun _ t => Programming g [] t ∧ N t) R :=
  reinit_ends (I.point (programming_ofTuning g []))
    (fun _ _ _ ht => ⟨{ ht.1 with known := nofun }, I.gaps ht.2 rfl⟩) h

variable (hv : g.cfg.valid = true) {i : Byte}

include hv

theorem Inside.progchSteps (i : Byte) :
    Ends (progchSteps i) s (fun _ t => Programming g (hopRegisters i g) t ∧ N t) R := by
  have K := fun known => I.hopKept (programming_ofTuning g known)
  obtain ⟨htx, hrx, htr⟩ := hopRegisters_ne hv
  show Ends (inOrder _) s _ _
  rw [h.1.cfg, h.1.sp]
  refine Ends.step ((K _).emit h rfl) fun t ht => Ends.step (I.regWrite ht (by simp) _) fun t ht => ?_
  refine Ends.step (I.regWrite ht (by simpa using htx) _) fun t ht => ?_
  refine Ends.step (I.regWrite ht (by simpa using ⟨htr, hrx⟩) _) fun t ht => ?_
  exact Ends.last ((K _).emit ht rfl)

/-- `PROGCH` in place with an index in range (rules R153, R190 d). -/
theorem Inside.progch (hi : i.toNat < g.cfg.maxHops) :
    Ends (progch i) s (fun _ t => Programming g (hopRegisters i g) t ∧ N t) R := by
  refine Ends.inPlace (fun c hc => ?_) fun _ => I.progchSteps h hv i
  rw [progchCheck_accepted (h.1.cfg ▸ hi)] at hc
  cases hc

end

/-! ## `POLL` -/

/-- The transceiver is tuned to hop `idx`, which can be programmed. -/
structure OnHop (s : State) : Prop where
  valid : s.cfg.valid = true
  idx_lt : s.idx.toNat < s.cfg.maxHops
  tuned : Tuned s

theorem onHop_ofTuning : OfTuning OnHop := fun s t h e =>
  { valid := e.cfg ▸ h.valid
    idx_lt := by rw [e.idx, e.cfg]; exact h.idx_lt
    tuned :=
      { chsel := by rw [e.shadow, e.cfg, e.sp, e.idx]; exact h.tuned.chsel
        txhdr := by rw [e.shadow, e.cfg, e.sp, e.idx]; exact h.tuned.txhdr
        rxhdr := by rw [e.shadow, e.cfg, e.sp, e.idx]; exact h.tuned.rxhdr } }

section

variable {N R : State → Prop} (I : Inside N R)

include I

/-- Programming the present hop tunes the transceiver to it, whatever was known of its registers. -/
theorem Inside.progch_present {g s : State} (hv : g.cfg.valid = true) (hi : g.idx.toNat < g.cfg.maxHops)
    (h : Programming g [] s ∧ N s) :
    Ends (withState fun t => Machine.progch t.idx) s (fun _ t => OnHop t ∧ N t) R := by
  show Ends (Machine.progch s.idx) s _ _
  rw [h.1.idx]
  refine (I.progch h hv hi).mono (fun _ t ht => ⟨⟨?_, ?_, ht.1.tuned⟩, ht.2⟩) fun _ => id
  · rw [ht.1.cfg]; exact hv
  · rw [ht.1.idx, ht.1.cfg]; exact hi

/-- Every phase of a `POLL` keeps the transceiver tuned (rules R197, R201). -/
theorem Inside.onHop_closed : PhaseClosed (fun s => OnHop s ∧ N s) R where
  toHopKept := I.hopKept onHop_ofTuning
  retune := fun {s} h => Ends.step (I.reinit (g := s) ⟨programming_nil rfl rfl rfl rfl, h.2⟩) fun _ ht =>
    Ends.last (I.progch_present h.1.valid h.1.idx_lt ht)
  hop := fun {s} h => Ends.step (P := fun t => Programming (advanceWrite s) [] t ∧ N t)
    (update_ends ⟨programming_nil rfl rfl rfl rfl, I.gaps h.2 rfl⟩) fun _ ht =>
      Ends.last (I.progch_present (g := advanceWrite s) h.1.valid (nextIndex_lt_maxHops h.1.idx_lt) ht)

end

/-- A command keeps, refused or not, what its steps keep. -/
theorem HopKept.command {P : State → Prop} (K : HopKept P fun _ => False) {check : State → Option RefuseCode}
    {steps : List (Steps Unit)} {value : State → List Byte} {s : State} (h : P s)
    (hs : ∀ t, P t → Ends (inOrder steps) t (fun _ => P) fun _ => False) : P (command check steps value s) := by
  have hans : ∀ r v t, P t → P (Machine.put (.reply r v) t) := fun _ _ _ ht => K.put rfl ht
  refine (tested_ends (Q := fun _ => P) K.point h (fun c t ht _ => ?_) fun t ht _ => ?_).final_of_never
  · exact refuse_ends K.point (fun _ _ hu => K.same hu {}) (hans _) ht c
  · exact Ends.append ((hs t ht).mono (fun _ _ hu => Ends.last (reply_ends K.point hu (hans _))) fun _ => id)

/-! ## `SETUP` -/

/-- The tests of `SETUP` look at the configuration and SessionParameters only (rule R191). -/
theorem setupCheck_eq_none_congr {s t : State} (hcfg : t.cfg = s.cfg) (hsp : t.sp = s.sp) (hc : setupCheck s = none) :
    setupCheck t = none := by
  rw [setupCheck_eq_none] at hc ⊢
  rwa [hcfg, hsp]

/-- The registers of a session that begins, as far as the programming of its first hop depends on them (rule R191). -/
def atFirstHop (s : State) : State := { s with idx := 0#8, sessActive := true }

/-- An accepted `SETUP` programs hop 0 (rules R153, R191). -/
theorem Inside.setupSteps {N R : State → Prop} (I : Inside N R) {s t : State} (hv : s.cfg.valid = true)
    (h : Programming s [] t ∧ N t) :
    Ends setupSteps t (fun _ u => Programming (atFirstHop s) (hopRegisters 0#8 s) u ∧ N u) R := by
  have K := I.hopKept (programming_ofTuning s [])
  refine Ends.step (K.update h {}) fun t ht => Ends.step (K.update ht {}) fun t ht => ?_
  refine Ends.step (P := fun u => Programming (atFirstHop s) [] u ∧ N u)
    (Ends.andThen (reading_ends K.point ht fun u hu => ?_)) fun t ht => ?_
  · exact ⟨programming_nil hu.1.cfg hu.1.sp rfl rfl, I.gaps hu.2 rfl⟩
  · refine Ends.step (I.reinit ht) fun t ht => ?_
    refine Ends.step (I.progch ht hv (Config.valid_maxHops hv).1) fun t ht => ?_
    exact Ends.last ((I.hopKept (programming_ofTuning _ _)).rxenter ht)

/-! ## The statement -/

/-- An accepted `SETUP` in which no `RESET` stands leaves the transceiver at the first hop of a session. -/
theorem programming_setup {s : State} (hv : s.cfg.valid = true) (hc : setupCheck s = none)
    (hno : noResetInside s = true) :
    Programming (atFirstHop s) (hopRegisters 0#8 s) (command setupCheck [setupSteps] noValue s) := by
  have I := inside_noReset
  have K := I.hopKept (programming_ofTuning (atFirstHop s) (hopRegisters 0#8 s))
  refine ((tested_ends (Q := fun _ t => Programming (atFirstHop s) (hopRegisters 0#8 s) t ∧ noResetInside t = true)
    (I.point (programming_ofTuning s [])) ⟨programming_nil rfl rfl rfl rfl, hno⟩
    (fun c t ht hrefused => ?_) fun t ht _ => ?_).final_of_never).1
  · rw [setupCheck_eq_none_congr ht.1.cfg ht.1.sp hc] at hrefused
    cases hrefused
  · exact Ends.step (I.setupSteps hv ht) fun u hu => Ends.last (reply_ends K.point hu fun _ _ hw => K.put rfl hw)

/-- Settles O45: hop 0 after a `SETUP`, and in a `POLL` every phase keeps the transceiver on hop `idx`. -/
theorem setupAndPollTuneTheTransceiver : Obligations.SetupAndPollTuneTheTransceiver := by
  refine ⟨fun s t hv hc hno he => ?_, fun s t hv hl htuned hno he => ?_⟩ <;> injection he with he <;> subst he
  · have h := programming_setup hv hc hno
    exact ⟨h.tuned, h.idx, h.sessActive⟩
  · have C := inside_noReset.onHop_closed
    have h := C.toHopKept.command (check := pollCheck) (steps := [pollSteps]) (value := noValue)
      ⟨⟨hv, hl.idx_lt, htuned⟩, hno⟩ fun t ht => Ends.last (C.pollSteps ht)
    exact h.1.tuned

end Sys2Proof.Machine
end

section
/-! The quality bitmask and the RSSI filter: what each update makes of the bits of the mask and of the smoothed value
(rules R230 to R235). -/

namespace Sys2Proof.Machine

/-! ## The bits of the mask -/

/-- A shift is one more binary digit, cut to `QW` bits (rules R99, R230, R231). -/
theorem qualityShift_eq_bit (qw q : Nat) (b : Bool) : qualityShift qw q b = Nat.bit b q % 2 ^ qw := by
  rw [qualityShift, Nat.bit_val]

/-- Bit 0 is the last outcome (rule R99). -/
theorem testBit_zero_qualityShift {qw : Nat} (h : 0 < qw) (q : Nat) (b : Bool) :
    (qualityShift qw q b).testBit 0 = b := by
  rw [qualityShift_eq_bit, Nat.testBit_mod_two_pow, Nat.testBit_bit_zero, decide_eq_true h, Bool.true_and]

/-- The earlier outcomes move up by one bit (rule R99). -/
theorem testBit_succ_qualityShift {qw k : Nat} (h : k + 1 < qw) (q : Nat) (b : Bool) :
    (qualityShift qw q b).testBit (k + 1) = q.testBit k := by
  rw [qualityShift_eq_bit, Nat.testBit_mod_two_pow, Nat.testBit_bit_succ, decide_eq_true h, Bool.true_and]

/-- From bit `QW` on nothing is kept (rule R36). -/
theorem testBit_qualityShift_of_le {qw k : Nat} (h : qw ≤ k) (q : Nat) (b : Bool) :
    (qualityShift qw q b).testBit k = false := by
  rw [qualityShift_eq_bit, Nat.testBit_mod_two_pow, decide_eq_false h.not_gt, Bool.false_and]

/-- Settles O48, by induction on the outcomes, the last one taken off. -/
theorem qualityBitsAreOutcomes : Obligations.QualityBitsAreOutcomes := by
  intro qw start outcomes
  induction outcomes using List.reverseRecOn with
  | nil => exact fun _ hk _ => absurd hk (Nat.not_lt_zero _)
  | append_singleton earlier last ih =>
    intro k hk hqw
    rw [List.foldl_concat, List.reverse_concat]
    cases k with
    | zero => exact testBit_zero_qualityShift hqw _ last
    | succ k =>
      rw [testBit_succ_qualityShift hqw, List.getD_cons_succ]
      exact ih k (by simpa using hk) (Nat.lt_of_succ_lt hqw)

/-- Settles O47: each update is a write of one register. -/
theorem qualityUpdatesAndRssiClear : Obligations.QualityUpdatesAndRssiClear := fun _ => ⟨rfl, rfl, rfl, rfl⟩

/-! ## The RSSI filter -/

/-- The smoothed value fits its register (rules R37, R233). -/
theorem rssiSmoothed_toNat (smooth : Byte) {avg : Nat} (h : avg ≤ 255) :
    (rssiSmoothed smooth avg).toNat = (smooth.toNat * 3 + avg) / 4 := by
  have := smooth.isLt
  rw [rssiSmoothed, BitVec.toNat_ofNat]
  omega

/-- Up to nine samples fit the accumulator (rules R38, R53, R233). -/
theorem rssiSum_add_toNat {sum : Half} (h : sum.toNat ≤ 255 * 8) (v : Byte) :
    (sum + v.setWidth 16).toNat = sum.toNat + v.toNat := by
  have := v.isLt
  rw [BitVec.toNat_add, BitVec.toNat_setWidth]
  omega

/-- Settles O50: the new value is a weighted mean of the old one and the average. -/
theorem filterNeverOvershoots : Obligations.FilterNeverOvershoots := by
  intro smooth avg h
  rw [rssiSmoothed_toNat smooth h]
  omega

/-- `RSSISAMP` reads the register once and hands the byte to the filter (rule R233). -/
theorem exec_rssisamp {s : State} (h : s.gaps = []) : exec .rssisamp s = .next
    (rssiAccumulate (rssiInput s) (put (.transport (.regRead s.cfg.regRssi (rssiInput s))) (tookRssi s))) :=
  congrArg Host.Outcome.next (final_done (rssisamp_quiet h))

/-- Settles O49: under the bounds of rule R53 no sum overflows, and the average fits a byte. -/
theorem rssiFilter : Obligations.RssiFilter := by
  intro s h hcnt hsum
  have hadd := rssiSum_add_toNat (hsum.trans (Nat.mul_le_mul_left 255 hcnt)) (rssiInput s)
  refine ⟨fun hfewer => ⟨_, exec_rssisamp h, ?_⟩, fun hninth => ⟨_, exec_rssisamp h, ?_⟩⟩
  · rw [rssiAccumulate_fewer (by exact hfewer)]
    refine ⟨hadd, ?_, rfl⟩
    show (s.rssiCnt + 1#8).toNat = _
    rw [BitVec.toNat_add, BitVec.toNat_ofNat]
    omega
  · rw [rssiAccumulate_ninth (by exact hninth)]
    refine ⟨?_, rfl⟩
    have hv := (rssiInput s).isLt
    have havg : rssiAverage (s.rssiSum + (rssiInput s).setWidth 16) =
        (s.rssiSum.toNat + (rssiInput s).toNat) / 9 := by rw [rssiAverage, hadd, Config.rssiNsamp]
    exact (congrArg (fun avg => (rssiSmoothed s.rssiSmooth avg).toNat) havg).trans (rssiSmoothed_toNat _ (by omega))

end Sys2Proof.Machine
end

section
/-! What the quality bitmask says of the slots lost in a row (rule R235 ii, iii): few writes touch the registers it
speaks of, those of a reception, of `P4_LOSS`, of `HOPCNT`, of `SETUP` and of `ENDSESS`; a `RESET` inside an operation
leaves no session. -/

namespace Sys2Proof.Machine

/-! ## The writes of the outcomes -/

/-- `t` has what `s` has in the fields `QualityInv` speaks of, and the hop list that `hopcount` counts. -/
structure SameOutcomes (s t : State) : Prop where
  cfg : t.cfg = s.cfg := by rfl
  sp : t.sp = s.sp := by rfl
  sessActive : t.sessActive = s.sessActive := by rfl
  acq : t.acq = s.acq := by rfl
  hopcount : t.hopcount = s.hopcount := by rfl
  lost : t.lost = s.lost := by rfl
  quality : t.quality = s.quality := by rfl

namespace QualityInv

variable {s : State}

theorem congr {t : State} (h : QualityInv s) (e : SameOutcomes s t) : QualityInv t where
  missed := by rw [e.sessActive, e.acq, e.hopcount, e.lost, e.quality]; exact h.missed
  received := by rw [e.sessActive, e.acq, e.hopcount, e.lost, e.quality, e.cfg]; exact h.received

/-- Before acquisition the mask says nothing. -/
theorem of_not_acq (h : s.acq = false) : QualityInv s where
  missed := fun _ ha => absurd (h.symm.trans ha) nofun
  received := fun _ ha => absurd (h.symm.trans ha) nofun

/-- Once `hopcount` slots are lost the mask says nothing. -/
theorem of_lost_eq (h : s.lost = s.hopcount) : QualityInv s where
  missed := fun _ _ hl => absurd hl (h ▸ Nat.lt_irrefl _)
  received := fun _ _ hl => absurd hl (h ▸ Nat.lt_irrefl _)

/-- A missed slot: its 0 comes in at bit 0, and all that the mask said moves up with the count (rule R200). -/
theorem lossMiss (h : QualityInv s) (ha : s.acq = true) (hl : s.lost.toNat < s.hopcount.toNat) :
    QualityInv (lossMiss s) := by
  have hlost : (Machine.lossMiss s).lost.toNat = s.lost.toNat + 1 := by
    have := s.hopcount.isLt
    rw [lossMiss_lost, BitVec.toNat_add, BitVec.toNat_ofNat]
    omega
  have hq : (Machine.lossMiss s).quality = qualityShift s.cfg.qw s.quality false := lossMiss_quality s
  constructor
  · intro hs _ _ k hk
    rw [hlost] at hk
    rw [hq]
    rcases Nat.lt_or_ge k s.cfg.qw with hw | hw
    · cases k with
      | zero => exact testBit_zero_qualityShift hw _ _
      | succ k =>
        rw [testBit_succ_qualityShift hw]
        exact h.missed hs ha hl k (Nat.lt_of_succ_lt_succ hk)
    · exact testBit_qualityShift_of_le hw _ _
  · intro hs _ _ hw
    rw [hlost, lossMiss_cfg] at hw
    rw [hlost, hq, testBit_succ_qualityShift hw]
    exact h.received hs ha hl (Nat.lt_of_succ_lt hw)

/-- `P4_LOSS` counts a lost slot, or it resyncs where `hopcount` slots are lost, or the link is not acquired (rule R200). -/
theorem lossPolicy (h : QualityInv s) : QualityInv (lossPolicy s) := by
  rcases lossPolicy_cases s with ⟨ha, hl, he⟩ | ⟨-, hl, he⟩ | ⟨-, he⟩ | he <;> rw [he]
  · exact h.lossMiss ha hl
  · exact of_lost_eq hl
  · exact h.congr {}
  · exact h

end QualityInv

/-- The last slot was a reception: no slot is lost since, and bit 0 of the mask is 1 (rules R198, R230). -/
structure LastReceived (s : State) : Prop where
  lost : s.lost = 0#8
  quality : 0 < s.cfg.qw → s.quality.testBit 0 = true

theorem lastReceived_rxRecord (s : State) : LastReceived (rxRecord s) where
  lost := rfl
  quality := fun hw => testBit_zero_qualityShift hw _ _

/-- A reception is all the mask has to say of, acquired or not. -/
theorem LastReceived.qualityInv {s : State} (h : LastReceived s) : QualityInv s where
  missed := fun _ _ _ k hk => by rw [h.lost] at hk; exact absurd hk (Nat.not_lt_zero k)
  received := fun _ _ _ hw => by rw [h.lost] at hw ⊢; exact h.quality hw

/-- The quality history, with `hopcount` caching the length of the hop list: a `HOPCNT` inside a session then writes what
stands there (rules R53, R151). -/
structure QualityCached (s : State) : Prop extends QualityInv s where
  valid : s.cfg.valid = true
  cached : s.sessActive = true → s.hopcount.toNat = hopCount s.sp.hop s.cfg.maxHops

theorem QualityCached.hopcnt {s : State} (h : QualityCached s) : QualityInv (hopcntWrite s) := by
  cases hs : s.sessActive with
  | false => exact qualityInv_of_inactive hs
  | true =>
    have hc : (hopcntWrite s).hopcount.toNat = hopCount s.sp.hop s.cfg.maxHops := hopCount_toNat h.valid _
    exact h.toQualityInv.congr { hopcount := BitVec.eq_of_toNat_eq (hc.trans (h.cached hs).symm) }

/-! ## What keeps every property of the outcomes -/

/-- `P` speaks of the outcomes only. -/
structure OfOutcomes (P : State → Prop) : Prop where
  same : ∀ {s t}, P s → SameOutcomes s t → P t

theorem ofOutcomes_qualityInv : OfOutcomes QualityInv := ⟨QualityInv.congr⟩

theorem ofOutcomes_lastReceived : OfOutcomes LastReceived where
  same := fun h e => ⟨e.lost.trans h.lost, by rw [e.cfg, e.quality]; exact h.quality⟩

theorem ofOutcomes_qualityCached : OfOutcomes QualityCached where
  same := fun h e =>
    { h.toQualityInv.congr e with
      valid := by rw [e.cfg]; exact h.valid
      cached := by rw [e.sessActive, e.hopcount, e.sp, e.cfg]; exact h.cached }

/-- No session: what a `RESET` inside an operation leaves (rule R290). -/
abbrev Inactive (s : State) : Prop := s.sessActive = false

/-- How an operation ends that keeps `P`. -/
abbrev EndsKeeping (P : State → Prop) (m : Steps Unit) (s : State) : Prop := Ends m s (fun _ => P) Inactive

/-- The quality history stands however an operation ends that keeps it. -/
theorem EndsKeeping.qualityInv_final {m : Steps Unit} {s : State} (h : EndsKeeping QualityInv m s) :
    QualityInv (final m s) :=
  (h.mono (fun _ _ => id) fun _ => qualityInv_of_inactive).final

namespace OfOutcomes

variable {P : State → Prop} (K : OfOutcomes P)

include K

theorem point : PointKeeps P Inactive :=
  pointKeeps_of (fun _ _ h => K.same h {}) (fun _ h => K.same h {}) (fun _ h => K.same h {}) fun _ _ _ => rfl

theorem put (o : Output) (s : State) (_ : o.isAnswer = false) (h : P s) : P (put o s) := K.same h {}

theorem note (c : RefuseCode) (s : State) (h : P s) : P (noteRefusal c s) := K.same h {}

variable {s : State} (h : P s)

include h

theorem emit (o : Output) : EndsKeeping P (emit o) s := emit_ends K.point h fun _ ht => K.same ht {}

theorem writeMode (m : RadioMode) : EndsKeeping P (writeMode m) s := writeMode_ends K.point h fun _ ht => K.same ht {}

theorem update {f : State → State} (e : SameOutcomes s (f s)) : EndsKeeping P (update f) s := update_ends (K.same h e)

theorem reinit : EndsKeeping P reinit s := reinit_ends K.point K.put h

theorem progch (i : Byte) : EndsKeeping P (progch i) s := progch_ends K.point K.put K.note h i

theorem rxenter : EndsKeeping P rxenter s := rxenter_ends K.point K.put (fun _ ht => K.same ht {}) h

/-- Decoding a packet and handing its channels over write no outcome (rules R198, R204). -/
theorem rxDecode (bytes : List Byte) : EndsKeeping P (rxDecode bytes) s := by
  have hty : Ends (typeByte bytes) s (fun _ => P) Inactive := by
    cases bytes with
    | nil => exact K.same h {}
    | cons b r => exact h
  refine Ends.andThen (hty.mono (fun ty t ht => ?_) fun _ => id)
  refine Ends.onlyIf (fun _ => Ends.step (P := P) ?_ fun u hu => Ends.last (P := P) ?_) fun _ => ht
  · exact Ends.inPlace (fun c _ => K.note c t ht) fun _ => K.update ht {}
  · exact Ends.onlyIf (fun _ => K.emit hu _) fun _ => hu

theorem p1Health : EndsKeeping P p1Health s := by
  refine Ends.andThen (reading_ends K.point h fun t ht => ?_)
  have hread : P (Machine.put (.transport (.regRead t.cfg.regHealth (healthInput t))) (tookHealth t)) := K.same ht {}
  refine Ends.onlyIf (fun _ => Ends.step (K.update hread {}) fun u hu => ?_) fun _ => hread
  exact Ends.step (K.reinit hu) fun v hv => Ends.step (K.progch hv v.idx) fun _ hw => Ends.last (K.rxenter hw)

theorem rssisamp : EndsKeeping P rssisamp s := by
  refine Ends.andThen (reading_ends K.point h fun u hu => ?_)
  refine K.same (t := rssiAccumulate _ _) hu ?_
  unfold rssiAccumulate
  simp only
  split <;> exact {}

theorem p3Rssi : EndsKeeping P p3Rssi s :=
  Ends.onlyIf (fun _ => Ends.step (K.update h {}) fun _ ht => Ends.last (K.rssisamp ht)) fun _ => h

theorem p5Hop : EndsKeeping P p5Hop s :=
  Ends.onlyIf (fun _ => Ends.step (K.update h {}) fun t ht => Ends.step (K.progch ht t.idx) fun _ hu =>
    Ends.last (K.update hu {})) fun _ => h

theorem txstartSteps (d : List Byte) : EndsKeeping P (txstartSteps d) s :=
  Ends.step (K.update h {}) fun _ ht => Ends.step (K.emit ht _) fun _ hu =>
    Ends.step (K.writeMode hu _) fun _ hv => Ends.last (K.emit hv _)

theorem sendSteps (d : List Byte) : EndsKeeping P (sendSteps d) s :=
  Ends.step (K.txstartSteps h d) fun _ ht => Ends.last (P := P) (Ends.andThen
    (reading_ends K.point ht fun _ hu => K.same hu {}))

theorem txwait : EndsKeeping P txwait s :=
  Ends.step (K.emit h _) fun _ ht => Ends.last (P := P) (Ends.andThen (readMode_ends K.point ht fun _ hu =>
    Ends.andThen (reading_ends K.point hu fun _ hv => K.same hv {})))

end OfOutcomes

/-! ## The operations -/

namespace QualityInv

variable {s : State} (h : QualityInv s)

include h

/-- A packet is recorded before the link counts as acquired; from its record on the last slot is a reception (rule R198). -/
theorem rxPacket : EndsKeeping QualityInv rxPacket s := by
  have K := ofOutcomes_qualityInv
  have L := ofOutcomes_lastReceived
  refine Ends.andThen (reading_ends K.point h fun t ht => ?_)
  refine Ends.step (P := QualityInv) (ht.congr {}) fun t ht => ?_
  refine Ends.step (P := QualityInv) (Ends.andThen (reading_ends K.point ht fun _ hu => hu.congr {})) fun t _ => ?_
  refine Ends.step (P := LastReceived) (update_ends (lastReceived_rxRecord t)) fun t ht => ?_
  refine Ends.step (L.rxDecode ht _) fun t ht => ?_
  refine Ends.step (P := LastReceived) (update_ends ⟨ht.lost, ht.quality⟩) fun t ht => ?_
  refine Ends.step (L.rxenter ht) fun t ht => ?_
  exact (Ends.last (L.update ht {})).mono (fun _ _ => LastReceived.qualityInv) fun _ => id

theorem p2Rxproc : EndsKeeping QualityInv p2Rxproc s :=
  Ends.andThen (readMode_ends ofOutcomes_qualityInv.point h fun _ ht => Ends.onlyIf (fun _ => ht.rxPacket) fun _ => ht)

theorem pollSteps : EndsKeeping QualityInv pollSteps s := by
  have K := ofOutcomes_qualityInv
  refine Ends.step (K.emit h _) fun t ht => ?_
  refine Ends.step (P := QualityInv) (Ends.andThen (reading_ends K.point ht fun _ hu => hu.congr {})) fun t ht => ?_
  refine Ends.step (K.update ht {}) fun t ht => Ends.step (K.p1Health ht) fun t ht => ?_
  refine Ends.step (K.update ht {}) fun t ht => Ends.step ht.p2Rxproc fun t ht => ?_
  refine Ends.step (K.update ht {}) fun t ht => Ends.step (K.p3Rssi ht) fun t ht => ?_
  refine Ends.step (K.update ht {}) fun t ht => ?_
  refine Ends.step (P := QualityInv) (update_ends ht.lossPolicy) fun t ht => ?_
  exact Ends.step (K.update ht {}) fun t ht => Ends.step (K.p5Hop ht) fun _ hu => Ends.last (K.update hu {})

theorem refuse (c : RefuseCode) : QualityInv (final (refuse c) s) :=
  have K := ofOutcomes_qualityInv
  EndsKeeping.qualityInv_final (refuse_ends K.point K.note (fun _ _ ht => ht.congr {}) h c)

theorem finish (r : ResultCode) : QualityInv (final (finish r) s) :=
  have K := ofOutcomes_qualityInv
  EndsKeeping.qualityInv_final (Ends.step (K.update h {}) fun _ ht => Ends.last (K.emit ht _))

end QualityInv

/-- A session begins with the link not acquired (rule R191). -/
theorem QualityCached.setupSteps {s : State} (h : QualityCached s) : EndsKeeping QualityInv setupSteps s := by
  have K := ofOutcomes_qualityInv
  refine Ends.step (P := QualityInv) (update_ends h.hopcnt) fun t ht => Ends.step (K.update ht {}) fun t ht => ?_
  refine Ends.step (P := QualityInv) (Ends.andThen (reading_ends K.point ht fun _ _ => ?_)) fun t ht => ?_
  · exact QualityInv.of_not_acq rfl
  · exact Ends.step (K.reinit ht) fun _ hu => Ends.step (K.progch hu _) fun _ hv => Ends.last (K.rxenter hv)

/-- A tested operation leaves the quality history, refused or not, if its steps do. -/
theorem QualityCached.tested {check : State → Option RefuseCode} {m : Steps Unit} {s : State} (h : QualityCached s)
    (hm : ∀ t, QualityCached t → EndsKeeping QualityInv m t) : QualityInv (final (tested check m) s) :=
  have K := ofOutcomes_qualityCached
  EndsKeeping.qualityInv_final (tested_ends K.point h
    (fun c _ ht _ => refuse_ends K.point K.note (fun _ _ hu => hu.toQualityInv.congr {}) ht c) fun t ht _ => hm t ht)

theorem QualityCached.command {check : State → Option RefuseCode} {steps : List (Steps Unit)}
    {value : State → List Byte} {s : State} (h : QualityCached s)
    (hs : ∀ t, QualityCached t → EndsKeeping QualityInv (inOrder steps) t) : QualityInv (command check steps value s) :=
  h.tested fun t ht => Ends.append ((hs t ht).mono
    (fun _ _ hu => Ends.last (ofOutcomes_qualityInv.emit hu _)) fun _ => id)

/-- A command of one step. -/
theorem QualityCached.command_single {check : State → Option RefuseCode} {m : Steps Unit} {value : State → List Byte}
    {s : State} (h : QualityCached s) (hm : ∀ t, QualityCached t → EndsKeeping QualityInv m t) :
    QualityInv (Machine.command check [m] value s) := h.command fun t ht => Ends.last (hm t ht)

/-- A `WRREG` writes SessionParameters only (rule R176). -/
theorem QualityInv.wrregWrite {s : State} (h : QualityInv s) (rn : Half) (v : List Byte) :
    QualityInv (wrregWrite rn v s) := by
  unfold Machine.wrregWrite
  split
  · exact h
  · exact ⟨h.missed, h.received⟩

/-- Every command keeps the quality history (rule R235). -/
theorem QualityCached.exec_cmd {s t : State} (h : QualityCached s) {i : Instr} (hi : opClass i = .cmd)
    (he : exec i s = .next t) : QualityInv t := by
  have K := ofOutcomes_qualityInv
  cases i <;> simp only [opClass, reduceCtorEq] at hi <;> clear hi <;> injection he with he <;> subst he
  case nop | rdreg | pktsize | pack => exact h.command fun _ ht => Ends.nil ht.toQualityInv
  case wrreg => exact h.command_single fun _ ht => update_ends (ht.wrregWrite _ _)
  case attach | unpack | interval | advance => exact h.command_single fun _ ht => K.update ht.toQualityInv {}
  case hopcnt => exact h.command_single fun _ ht => update_ends ht.hopcnt
  case progch k => exact h.command_single fun _ ht => progchSteps_ends K.point K.put ht.toQualityInv k
  case setup => exact h.command_single fun _ ht => ht.setupSteps
  case rxenter => exact h.command_single fun _ ht => K.rxenter ht.toQualityInv
  case txstart d => exact h.command_single fun _ ht => K.txstartSteps ht.toQualityInv d
  case send d => exact h.tested fun _ ht => K.sendSteps ht.toQualityInv d
  case poll => exact h.command_single fun _ ht => ht.pollSteps
  case endsess => exact h.command_single fun _ _ => update_ends (qualityInv_of_inactive rfl)

/-! ## Steps -/

/-- A `SEND` in progress goes on or ends (rule R194). -/
theorem QualityInv.resume {s : State} (h : QualityInv s) : QualityInv (resume s) := by
  unfold Machine.resume
  cases s.phase with
  | idle => exact h
  | hop => exact h.finish _
  | txwait =>
    cases s.txRet with
    | none => exact h
    | some r => exact h.finish _
  | _ => exact h.congr {}

/-- What a step takes up keeps the quality history: between steps only a `SEND` is in progress, and no micro-operation is
presented by itself (rules R31, R235). -/
theorem QualityInv.takenUp {s t : State} (h : QualityInv s) (hv : s.cfg.valid = true) (hinv : LinkInv s) {f : Fetched}
    (hf : TakenUp s f) (hl : f.Leaves t) : QualityInv t := by
  have hcached : ∀ a, QualityCached { s with agenda := a } := fun _ =>
    ofOutcomes_qualityCached.same ⟨h, hv, fun hs => (hinv.session hs).hopcount_cached⟩ {}
  have htail : QualityInv { s with agenda := s.agenda.tail } := (hcached _).toQualityInv
  cases hf with
  | idle => exact hl ▸ htail
  | refuse c => exact hl ▸ htail.refuse c
  | stuck => exact hl.elim
  | @own i hp =>
    obtain ⟨v, hv, rfl⟩ := hl
    rcases hinv.phase with hi | hi <;> rw [hi] at hp <;> simp only [phaseUop, reduceCtorEq, Option.some.injEq] at hp
    subst hp
    injection hv with hv
    subst hv
    exact (EndsKeeping.qualityInv_final (ofOutcomes_qualityInv.txwait htail)).resume
  | irq ha =>
    injection hl with hl
    subst hl
    exact h.congr {}
  | reset ha =>
    injection hl with hl
    subst hl
    exact qualityInv_of_inactive rfl
  | uop ha hc =>
    have hout := hinv.agenda
    rw [ha] at hout
    exact absurd hout nofun
  | cmd ha hp hd hc => exact (hcached _).exec_cmd hc hl

/-- Settles O56: a reception and a lost slot each shift in the outcome that the count of lost slots then speaks of. -/
theorem stepKeepsTheQualityHistory : Obligations.StepKeepsTheQualityHistory := by
  intro s t hinv h hstep
  obtain ⟨hv, f, hf, hl⟩ := step_next hstep
  exact h.takenUp hv hinv hf hl

end Sys2Proof.Machine
end

section
/-! What command decode refuses, and what stops a step (rules R8, R103, R108, R250, R251, R256). -/

namespace Sys2Proof.Machine

/-! ## Command decode -/

/-- `RC_BUSY` comes first, whatever the bytes (rule R256). -/
theorem fetchCommand_busy {s : State} (hp : s.phase ≠ .idle) (bytes : List Byte) :
    fetchCommand bytes s = .refuse .busy s := if_pos hp

/-- An operation that is not of class CMD has no operand bytes, so its code alone is its frame (rules R104, R105). -/
theorem decodeOperands_of_not_cmd {i : Instr} (h : opClass i ≠ .cmd) (r : List Byte) :
    decodeOperands i r = .ok (i, r) := by
  cases i with
  | wrreg | rdreg | pktsize | unpack | pack | progch | txstart | send => exact absurd rfl h
  | _ => rfl

/-- The code of no CMD operation is refused whatever follows it: it is unassigned, or an operation of another class decodes
(rules R104, R105, R108). -/
theorem fetchCommand_badOpcode {s : State} {c : Byte} (hp : s.phase = .idle) (hc : ∀ i, opClass i = .cmd → opcode i ≠ c)
    (operands : List Byte) : fetchCommand (c :: operands) s = .refuse .badOpcode s := by
  by_cases hassigned : ∃ i, opcode i = c
  · obtain ⟨i, rfl⟩ := hassigned
    have hclass : opClass i ≠ .cmd := fun h => hc i h rfl
    have hd : decode (opcode i :: operands) = .ok (i, operands) :=
      (decode_opcode_cons i operands).trans (decodeOperands_of_not_cmd hclass operands)
    simp only [fetchCommand, hp, hd, hclass, ne_eq, not_true_eq_false, if_false]
  · have hd : decode (c :: operands) = .error .badOpcode := decode_unassigned (not_exists.1 hassigned) operands
    simp only [fetchCommand, hp, hd, ne_eq, not_true_eq_false, if_false]

/-! ## A step by what it takes up -/

section

variable {s t : State} (hv : s.cfg.valid = true)

include hv

theorem step_eq_of_idle (hf : fetch s = .idle t) : step s = .next t := by
  simp only [step, hv, if_true, hf]

theorem step_eq_of_refuse {c : RefuseCode} (hf : fetch s = .refuse c t) : step s = .next (final (refuse c) t) := by
  simp only [step, hv, if_true, hf]

theorem step_eq_of_stuck (hf : fetch s = .stuck) : step s = .fault .frameIncomplete := by
  simp only [step, hv, if_true, hf]

theorem step_eq_of_own {i : Instr} {u : State} (hf : fetch s = .own i t) (hu : exec i t = .next u) :
    step s = .next (resume u) := by
  simp only [step, hv, if_true, hf, hu]

end

/-- A command that command decode refuses leaves the refusal and nothing else (rule R251). -/
theorem step_cmd_refused {s t : State} {bytes : List Byte} {r : List Presented} {c : RefuseCode}
    (hv : s.cfg.valid = true) (ha : s.agenda = .cmd bytes :: r) (hc : fetchCommand bytes { s with agenda := r } = .refuse c t)
    (hq : t.gaps = []) : step s = .next (refusedWith c.code t) := by
  have hf : fetch s = .refuse c t := by simp only [fetch, ha, hc]
  rw [step_eq_of_refuse hv hf, final_done (refuse_quiet hq c)]

/-! ## What stops a step -/

/-- No operation stops the machine: every arm of `exec` answers a next state (rule R250). -/
theorem exists_exec_eq_next (i : Instr) (s : State) : ∃ t, exec i s = .next t := by
  cases i <;> exact ⟨_, rfl⟩

theorem fetchOwn_ne_stuck (s : State) : fetchOwn s ≠ .stuck := by
  unfold fetchOwn
  split <;> nofun

theorem fetchUop_ne_stuck (code : Byte) (s : State) : fetchUop code s ≠ .stuck := by
  unfold fetchUop
  split
  · split <;> nofun
  · nofun

/-- Command decode stops only on bytes that end before their frame does, and only in `PH_IDLE` (log entry 8). -/
theorem fetchCommand_eq_stuck {bytes : List Byte} {s : State} (h : fetchCommand bytes s = .stuck) :
    s.phase = .idle ∧ decode bytes = .error .truncated := by
  unfold fetchCommand at h
  split at h
  · cases h
  · rename_i hp
    refine ⟨not_not.1 hp, ?_⟩
    split at h
    · split at h <;> cases h
    · cases h
    · cases h
    · assumption

theorem fetch_eq_stuck {s : State} (h : fetch s = .stuck) :
    s.phase = .idle ∧ ∃ bytes r, s.agenda = .cmd bytes :: r ∧ decode bytes = .error .truncated := by
  unfold fetch at h
  split at h
  · exact absurd h (fetchOwn_ne_stuck _)
  · exact absurd h (fetchOwn_ne_stuck _)
  · cases h
  · cases h
  · exact absurd h (fetchUop_ne_stuck _ _)
  · rename_i bytes r ha
    obtain ⟨hp, hd⟩ := fetchCommand_eq_stuck h
    exact ⟨hp, bytes, r, ha, hd⟩

/-- Under a valid configuration a step answers a next state, or is stuck on an incomplete frame. -/
theorem step_next_or_stuck {s : State} (hv : s.cfg.valid = true) :
    (∃ t, step s = .next t) ∨ step s = .fault .frameIncomplete ∧ fetch s = .stuck := by
  cases hf : fetch s with
  | idle u => exact .inl ⟨u, step_eq_of_idle hv hf⟩
  | refuse c u => exact .inl ⟨final (refuse c) u, step_eq_of_refuse hv hf⟩
  | stuck => exact .inr ⟨step_eq_of_stuck hv hf, rfl⟩
  | run i u =>
    obtain ⟨t, ht⟩ := exists_exec_eq_next i u
    exact .inl ⟨t, (step_eq_exec hv hf).trans ht⟩
  | own i u =>
    obtain ⟨t, ht⟩ := exists_exec_eq_next i u
    exact .inl ⟨resume t, step_eq_of_own hv hf ht⟩

theorem step_of_not_valid {s : State} (hv : s.cfg.valid = false) : step s = .refused .badConfiguration :=
  if_neg (ne_true_of_eq_false hv)

/-- Settles O10: the configuration is tested before anything else, and after it only `Fetched.stuck` stops a step. -/
theorem nothingElseStopsTheMachine : Obligations.NothingElseStopsTheMachine := by
  refine ⟨exists_exec_eq_next, fun s f h => ?fault, fun s r => ?refused⟩
  case fault =>
    cases hv : s.cfg.valid with
    | false => cases (step_of_not_valid hv).symm.trans h
    | true =>
      obtain ⟨t, ht⟩ | ⟨-, hstuck⟩ := step_next_or_stuck hv
      · cases ht.symm.trans h
      · exact ⟨rfl, fetch_eq_stuck hstuck⟩
  case refused =>
    cases hv : s.cfg.valid with
    | false =>
      rw [step_of_not_valid hv]
      exact ⟨fun h => ⟨rfl, (Host.Outcome.refused.inj h).symm⟩, fun ⟨_, hr⟩ => hr ▸ rfl⟩
    | true =>
      refine ⟨fun h => ?_, nofun⟩
      obtain ⟨t, ht⟩ | ⟨hfault, -⟩ := step_next_or_stuck hv
      · cases ht.symm.trans h
      · cases hfault.symm.trans h

/-- Settles O9. -/
theorem commandDecodeRefuses : Obligations.CommandDecodeRefuses := by
  intro s bytes r hv h ha
  refine ⟨fun hp => ?busy, ?badOpcode⟩
  case busy => exact step_cmd_refused hv ha (fetchCommand_busy (by exact hp) bytes) h
  case badOpcode =>
    rintro c operands hp rfl hc
    exact step_cmd_refused hv ha (fetchCommand_badOpcode (by exact hp) hc operands) h

end Sys2Proof.Machine
end

section
/-! An `IRQ` or a command in one instant inside an operation: what the operation makes of the state which that instant leaves
(rules R258, R303, R316). -/

namespace Sys2Proof.Machine

/-! ## The instant before the first atomic step -/

/-- A command in an instant is refused with `RC_BUSY`, whatever its bytes (rules R251, R256, R258). -/
theorem atPoint_cmd {s : State} {f : List Byte} {l : List (List Gap)} (h : s.gaps = [.cmd f] :: l) :
    atPoint s = .done () (refuseBusy { s with gaps := l }) := by
  simp only [atPoint, h, serveGap]

section

variable {s t : State} (h : atPoint s = .done () t) (hq : t.gaps = [])

include h hq

/-- Where nothing happens after its first instant, an operation is the one run from the state that instant leaves. -/
theorem andThen_atPoint_congr {α : Type} (f : Unit → Steps α) : andThen atPoint f s = andThen atPoint f t := by
  rw [andThen_done h, andThen_done (atPoint_quiet hq)]

/-- For a command that first instant is the one before its tests. -/
theorem command_of_atPoint (check : State → Option RefuseCode) (steps : List (Steps Unit)) (value : State → List Byte) :
    command check steps value s = command check steps value t := by
  simp only [command, final, tested, andThen_atPoint_congr h hq]

/-- For `P2_RXPROC` it is the one before the read of `mode` (rule R198). -/
theorem exec_p2Rxproc_of_atPoint : exec .p2Rxproc s = exec .p2Rxproc t := by
  have hread : readMode s = readMode t := andThen_atPoint_congr h hq _
  simp only [exec, execP2Rxproc, final, p2Rxproc, andThen, hread]

end

/-! ## An `IRQ` inside `RXENTER`, `TXSTART` and a refusal -/

/-- An `IRQ` after `RXENTER` has written `mode` is taken for a reception (rules R192, R303). -/
theorem exec_rxenter_irq {s : State} (h : s.gaps = [[], [], [.irq]]) : exec .rxenter s = .next { s with
    gaps := [], mode := .received, out := s.out ++ [.noWake] ++ rxenterEvents ++ [.reply .ok []] } := by
  have htests := tested_of_atPoint (check := neverRefused) (m := inOrder [rxenter, reply .ok noValue]) (atPoint_empty h) rfl
  have hrun := final_done (htests.trans (inOrder_step
    (inOrder_step (writeMode_of_atPoint (by exact atPoint_empty rfl) _)
      (inOrder_step (act_of_atPoint (by exact atPoint_irq rfl) _)
        (inOrder_step (act_quiet (by exact rfl) _) (inOrder_step (act_quiet (by exact rfl) _) (inOrder_nil _)))))
    (inOrder_step (reply_quiet (by exact rfl) _ _) (inOrder_nil _))))
  refine congrArg Host.Outcome.next (hrun.trans ?_)
  simp [put, irqStep, irqMode, rxenterEvents, noValue]

/-- `TXSTART` writes `mode` over whatever the instants before `A_TXFIFO_WRITE` and before that write leave (rule R193). -/
theorem exec_txstart_of_atPoint {s t u : State} {d : List Byte} {l : List (List Gap)} (h : s.gaps = [] :: l)
    (hc : txCheck d.length s = none) (ht : atPoint (txLoad d { s with gaps := l }) = .done () t)
    (hu : atPoint (put (.transport (.act (.txfifoWrite d))) t) = .done () u) (hq : u.gaps = []) :
    exec (.txstart d) s =
      .next (put (.reply .ok []) (put (.transport (.act .txOn)) { u with mode := .transmitting })) := by
  have htests := tested_of_atPoint (check := txCheck d.length) (m := inOrder [txstartSteps d, reply .ok noValue])
    (atPoint_empty h) hc
  exact congrArg Host.Outcome.next (final_done (htests.trans (inOrder_step
    (inOrder_step rfl (inOrder_step (act_of_atPoint ht _) (inOrder_step (writeMode_of_atPoint hu _)
      (inOrder_step (act_quiet (by exact hq) _) (inOrder_nil _)))))
    (inOrder_step (reply_quiet (by exact hq) _ _) (inOrder_nil _)))))

/-- An answer is made of the state before the instant it waits for. -/
theorem reply_of_atPoint {s t : State} (h : atPoint s = .done () t) (r : ResultCode) (value : State → List Byte) :
    reply r value s = .done () (put (.reply r (value s)) t) := emit_of_atPoint h _

/-- An `IRQ` before the record or before the answer of a refusal changes `mode` alone (rules R203, R251). -/
theorem refuse_irq {s : State} (h : s.gaps = [[.irq]] ∨ s.gaps = [[], [.irq]]) (c : RefuseCode) :
    refuse c s = .done () (refusedWith c.code (irqStep { s with gaps := [] })) := by
  obtain h | h := h
  · exact inOrder_step (atPoint_irq h) (inOrder_step rfl (inOrder_step (reply_quiet (by exact rfl) _ _) (inOrder_nil _)))
  · exact inOrder_step (atPoint_empty h) (inOrder_step rfl
      (inOrder_step (reply_of_atPoint (by exact atPoint_irq rfl) _ _) (inOrder_nil _)))

/-- The same of a command whose tests fail. -/
theorem command_refused_irq {check : State → Option RefuseCode} {steps : List (Steps Unit)} {value : State → List Byte}
    {s : State} {l : List (List Gap)} {c : RefuseCode} (h : s.gaps = [] :: l) (hl : l = [[.irq]] ∨ l = [[], [.irq]])
    (hc : check { s with gaps := l } = some c) :
    command check steps value s = refusedWith c.code (irqStep { s with gaps := [] }) := by
  have htests : tested check (inOrder (steps ++ [reply .ok value])) s = refuse c { s with gaps := l } := by
    rw [tested, andThen_done (atPoint_empty h), hc]
  exact final_done (htests.trans (refuse_irq hl c))

/-! ## The statement -/

/-- What an `IRQ` in mode `Receiving` leaves (rule R203). -/
theorem irqStep_receiving {s : State} (hm : s.mode = .receiving) :
    irqStep s = { s with mode := .received, out := s.out ++ [.noWake] } := by
  rw [irqStep, hm]
  rfl

/-- Settles O53. -/
theorem eventsInsideOperations : Obligations.EventsInsideOperations := by
  intro s d f
  have hirq (hm : s.mode = .receiving) : irqStep { s with gaps := [] } =
      { s with gaps := [], mode := .received, out := s.out ++ [.noWake] } := irqStep_receiving hm
  refine ⟨fun h hm => ?modeRead, exec_rxenter_irq, fun h hm hx => ?modeTest, fun h hm h1 hn => ?modeWrite,
    fun h hm ha => ?refusal, fun h => ?busy⟩
  case modeRead =>
    rw [exec_p2Rxproc_of_atPoint (atPoint_irq h) rfl, hirq hm]
  case modeTest =>
    have hbad : txAllowed s.cfg .received = false := by rw [txAllowed, hx]; rfl
    have hrun : exec (.txstart d) s = exec (.txstart d) (irqStep { s with gaps := [] }) :=
      congrArg Host.Outcome.next (command_of_atPoint (atPoint_irq h) rfl _ _ _)
    rw [hrun, hirq hm]
    exact exec_txstart_refused rfl (txCheck_badMode hbad _)
  case modeWrite =>
    have hc : txCheck d.length s = none := txCheck_eq_none.2 ⟨txAllowed_iff.2 (.inr (.inl hm)), h1, hn⟩
    obtain h | h := h
    · exact ⟨_, exec_txstart_of_atPoint h hc (atPoint_irq rfl) (atPoint_quiet rfl) rfl, rfl⟩
    · exact ⟨_, exec_txstart_of_atPoint h hc (atPoint_empty rfl) (atPoint_irq rfl) rfl, rfl⟩
  case refusal =>
    rw [← hirq hm]
    have hc (l : List (List Gap)) : pollCheck { s with gaps := l } = some .noSession := pollCheck_noSession ha
    obtain h | h := h
    · exact congrArg Host.Outcome.next (command_refused_irq h (.inl rfl) (hc _))
    · exact congrArg Host.Outcome.next (command_refused_irq h (.inr rfl) (hc _))
  case busy =>
    have hrun : exec .rxenter s = exec .rxenter (refuseBusy { s with gaps := [] }) :=
      congrArg Host.Outcome.next (command_of_atPoint (atPoint_cmd h) rfl _ _ _)
    exact hrun.trans (exec_rxenter rfl)

end Sys2Proof.Machine
end

section
/-! Every step keeps the transceiver tuned to hop `idx` while a session is active, unless the host moves the index or programs
a hop itself (rules R191, R197, R201, R310): what is known of the transceiver's registers changes only in `SETUP` and in the
phases of a `POLL`, which program the hop they leave, and a `RESET` leaves no session. -/

namespace Sys2Proof.Machine

/-- The transceiver is tuned if a session is active (rule R310). -/
abbrev TunedWhileActive (s : State) : Prop := s.sessActive = true → Tuned s

/-- The same, with what it takes to program hop `idx`. -/
structure TunedInSession (s : State) : Prop where
  valid : s.cfg.valid = true
  idx_lt : s.idx.toNat < s.cfg.maxHops
  tuned : TunedWhileActive s

theorem OnHop.inSession {s : State} (h : OnHop s) : TunedInSession s := ⟨h.valid, h.idx_lt, fun _ => h.tuned⟩

theorem TunedInSession.onHop {s : State} (h : TunedInSession s) (hs : s.sessActive = true) : OnHop s :=
  ⟨h.valid, h.idx_lt, h.tuned hs⟩

theorem tunedWhileActive_of_inactive {s : State} (h : s.sessActive = false) : TunedWhileActive s :=
  fun hs => absurd (h.symm.trans hs) nofun

theorem tunedInSession_ofTuning : OfTuning TunedInSession := fun s t h e =>
  { valid := e.cfg ▸ h.valid
    idx_lt := by rw [e.idx, e.cfg]; exact h.idx_lt
    tuned := fun ht => (onHop_ofTuning s t (h.onHop (e.sessActive ▸ ht)) e).tuned }

/-! ## A `RESET` may stand inside -/

/-- What speaks of the tuning only is kept by every instant, but that a `RESET` leaves no session (rules R256, R290). -/
theorem pointKeeps_ofTuning {P : State → Prop} (hP : OfTuning P) : PointKeeps P Inactive :=
  pointKeeps_of (fun s _ h => hP s _ h {}) (fun s h => hP s _ h (sameTuning_irqStep s))
    (fun s h => hP s _ h (sameTuning_refuseBusy s)) fun _ _ _ => rfl

theorem hopKept_tunedInSession : HopKept TunedInSession Inactive where
  point := pointKeeps_ofTuning tunedInSession_ofTuning
  same := fun h e => tunedInSession_ofTuning _ _ h e.sameTuning
  put := fun ho h => tunedInSession_ofTuning _ _ h (sameTuning_put ho _)

/-- Anything may happen inside. -/
theorem inside_any : Inside (fun _ => True) Inactive where
  point := fun hP => by simpa only [and_true] using pointKeeps_ofTuning hP
  gaps := fun _ _ => trivial

/-! ## The operations -/

/-- What an operation keeps holds of the state it leaves, or a `RESET` inside it left no session. -/
theorem EndsKeeping.final_or_inactive {P : State → Prop} {m : Steps Unit} {s : State} (h : EndsKeeping P m s) :
    P (final m s) ∨ Inactive (final m s) :=
  (h.mono (fun _ _ => .inl) fun _ => .inr).final (P := fun t => P t ∨ Inactive t)

theorem EndsKeeping.tuned_final {m : Steps Unit} {s : State} (h : EndsKeeping TunedInSession m s) :
    TunedWhileActive (final m s) := h.final_or_inactive.elim TunedInSession.tuned tunedWhileActive_of_inactive

namespace TunedInSession

variable {s : State} (h : TunedInSession s)

include h

/-- The first hop of a session is programmed after `idx` is written (rule R191). -/
theorem setupSteps : EndsKeeping TunedInSession setupSteps s :=
  (inside_any.setupSteps h.valid ⟨programming_nil rfl rfl rfl rfl, trivial⟩).mono (fun _ u hu =>
    { valid := by rw [hu.1.cfg]; exact h.valid
      idx_lt := by rw [hu.1.cfg, hu.1.idx]; exact (Config.valid_maxHops h.valid).1
      tuned := fun _ => hu.1.tuned }) fun _ => id

/-- A `POLL` is of a session, and each of its phases keeps the transceiver tuned (rules R195, R197, R201). -/
theorem pollSteps (hc : pollCheck s = none) : EndsKeeping TunedInSession pollSteps s := by
  have hs : s.sessActive = true := by
    cases ha : s.sessActive with
    | true => rfl
    | false => rw [pollCheck_noSession ha] at hc; cases hc
  exact (inside_any.onHop_closed.pollSteps ⟨h.onHop hs, trivial⟩).mono (fun _ _ hu => hu.1.inSession) fun _ => id

/-- An accepted `WRREG` is outside a session (rule R176). -/
theorem wrregWrite {rn : Half} {v : List Byte} (hc : wrregCheck rn v.length s = none) :
    TunedInSession (wrregWrite rn v s) := by
  have hs := sessActive_of_wrregCheck hc
  unfold Machine.wrregWrite
  split
  · exact h
  · exact ⟨h.valid, h.idx_lt, tunedWhileActive_of_inactive hs⟩

theorem txstartSteps (d : List Byte) : EndsKeeping TunedInSession (txstartSteps d) s := by
  have K := hopKept_tunedInSession
  refine Ends.step (K.update h {}) fun t ht => Ends.step (K.emit ht rfl) fun u hu => ?_
  refine Ends.step (P := TunedInSession) (writeMode_ends K.point hu fun v hv => ?_) fun v hv => Ends.last (K.emit hv rfl)
  exact tunedInSession_ofTuning _ _ hv {}

theorem sendSteps (d : List Byte) : EndsKeeping TunedInSession (sendSteps d) s := by
  have K := hopKept_tunedInSession
  refine Ends.step (h.txstartSteps d) fun t ht => Ends.last (P := TunedInSession) (Ends.andThen ?_)
  exact reading_ends K.point ht fun u hu => K.same hu {}

theorem txwait : EndsKeeping TunedInSession txwait s := by
  have K := hopKept_tunedInSession
  refine Ends.step (K.emit h rfl) fun t ht => Ends.last (P := TunedInSession) ?_
  exact Ends.andThen (readMode_ends K.point ht fun u hu => Ends.andThen (reading_ends K.point hu fun v hv =>
    K.same hv {}))

theorem refuse (c : RefuseCode) : EndsKeeping TunedInSession (refuse c) s := by
  have K := hopKept_tunedInSession
  exact refuse_ends K.point (fun _ _ ht => K.same ht {}) (fun _ _ ht => K.put rfl ht) h c

theorem tested {check : State → Option RefuseCode} {m : Steps Unit}
    (hm : ∀ t, TunedInSession t → check t = none → EndsKeeping TunedInSession m t) :
    TunedWhileActive (final (tested check m) s) :=
  EndsKeeping.tuned_final (tested_ends hopKept_tunedInSession.point h (fun c _ ht _ => ht.refuse c) hm)

theorem command {check : State → Option RefuseCode} {steps : List (Steps Unit)} {value : State → List Byte}
    (hs : ∀ t, TunedInSession t → check t = none → EndsKeeping TunedInSession (inOrder steps) t) :
    TunedWhileActive (command check steps value s) :=
  h.tested fun t ht hc => Ends.append ((hs t ht hc).mono
    (fun _ _ hu => Ends.last (hopKept_tunedInSession.emit hu rfl)) fun _ => id)

/-- A command of one step. -/
theorem command_single {check : State → Option RefuseCode} {m : Steps Unit} {value : State → List Byte}
    (hm : ∀ t, TunedInSession t → check t = none → EndsKeeping TunedInSession m t) :
    TunedWhileActive (Machine.command check [m] value s) := h.command fun t ht hc => Ends.last (hm t ht hc)

/-- Every command but `ADVANCE` and `PROGCH` keeps the transceiver tuned while a session is active (rule R310). -/
theorem exec_cmd {t : State} {i : Instr} (hi : opClass i = .cmd) (hadvance : opcode i ≠ 0x31#8)
    (hprogch : opcode i ≠ 0x32#8) (he : exec i s = .next t) : TunedWhileActive t := by
  have K := hopKept_tunedInSession
  cases i <;> simp only [opClass, reduceCtorEq] at hi <;> clear hi <;> injection he with he <;> subst he
  case nop | rdreg | pktsize | pack => exact h.command fun _ ht _ => Ends.nil ht
  case wrreg => exact h.command_single fun _ ht hc => update_ends (ht.wrregWrite hc)
  case attach | unpack | interval | hopcnt => exact h.command_single fun _ ht _ => K.update ht {}
  case advance => exact absurd rfl hadvance
  case progch => exact absurd rfl hprogch
  case setup => exact h.command_single fun _ ht _ => ht.setupSteps
  case rxenter => exact h.command_single fun _ ht _ => K.rxenter ht
  case txstart d => exact h.command_single fun _ ht _ => ht.txstartSteps d
  case send d => exact h.tested fun _ ht _ => ht.sendSteps d
  case poll => exact h.command_single fun _ ht hc => ht.pollSteps hc
  case endsess =>
    exact h.command_single fun _ ht _ => update_ends ⟨ht.valid, ht.idx_lt, tunedWhileActive_of_inactive rfl⟩

end TunedInSession

/-! ## Steps -/

theorem hopKept_inactive : HopKept Inactive Inactive where
  point := pointKeeps_ofTuning fun _ _ h e => e.sessActive.trans h
  same := fun h e => e.sessActive.trans h
  put := fun _ h => h

/-- The operation in progress goes on or ends (rules R194, R195): its answer is no transport call. -/
theorem HopKept.resume {P : State → Prop} (K : HopKept P Inactive) {s : State} (h : P s) :
    P (resume s) ∨ Inactive (resume s) := by
  have hfinish (r : ResultCode) : EndsKeeping P (finish r) s :=
    Ends.step (K.update h {}) fun _ ht => Ends.last (K.emit ht rfl)
  unfold Machine.resume
  cases s.phase with
  | idle => exact .inl h
  | hop => exact (hfinish _).final_or_inactive
  | txwait =>
    cases s.txRet with
    | none => exact .inl h
    | some r => exact (hfinish _).final_or_inactive
  | _ => exact .inl (K.same h {})

/-- An iteration of a wait, and then the `SEND` going on or ending (rules R194, R202). -/
theorem TunedInSession.resume_txwait {s : State} (h : TunedInSession s) :
    TunedWhileActive (resume (final Machine.txwait s)) := by
  rcases h.txwait.final_or_inactive with ht | ht
  · exact (hopKept_tunedInSession.resume ht).elim TunedInSession.tuned tunedWhileActive_of_inactive
  · exact tunedWhileActive_of_inactive (or_self_iff.1 (hopKept_inactive.resume ht))

/-- A frame begins with the code of its operation (rule R103). -/
theorem head?_of_decode {bytes rest : List Byte} {i : Instr} (h : decode bytes = .ok (i, rest)) :
    bytes.head? = some (opcode i) := by
  obtain ⟨-, ops, -, rfl⟩ := decode_eq_ok_iff.1 h
  rfl

/-- What a step takes up, if it is no `ADVANCE` and no `PROGCH`, keeps the transceiver tuned while a session is active; between
steps only a `SEND` is in progress, and no micro-operation is presented by itself (rules R31, R310). -/
theorem TunedInSession.takenUp {s t : State} (h : TunedInSession s) (hinv : LinkInv s)
    (hcmd : ∀ bytes r, s.agenda = .cmd bytes :: r → bytes.head? ≠ some 0x31#8 ∧ bytes.head? ≠ some 0x32#8) {f : Fetched}
    (hf : TakenUp s f) (hl : f.Leaves t) : TunedWhileActive t := by
  have hagenda (a : List Presented) : TunedInSession { s with agenda := a } := tunedInSession_ofTuning _ _ h {}
  cases hf with
  | idle => exact hl ▸ (hagenda _).tuned
  | refuse c => exact hl ▸ ((hagenda _).refuse c).tuned_final
  | stuck => exact hl.elim
  | @own i hp =>
    obtain ⟨v, hv, rfl⟩ := hl
    rcases hinv.phase with hi | hi <;> rw [hi] at hp <;> simp only [phaseUop, reduceCtorEq, Option.some.injEq] at hp
    subst hp
    injection hv with hv
    subst hv
    exact (hagenda _).resume_txwait
  | irq ha =>
    injection hl with hl
    subst hl
    exact (tunedInSession_ofTuning _ _ (hagenda _) (sameTuning_irqStep _)).tuned
  | reset ha =>
    injection hl with hl
    subst hl
    exact tunedWhileActive_of_inactive rfl
  | uop ha hc =>
    have hout := hinv.agenda
    rw [ha] at hout
    exact absurd hout nofun
  | cmd ha hp hd hc =>
    obtain ⟨hadvance, hprogch⟩ := hcmd _ _ ha
    rw [head?_of_decode hd] at hadvance hprogch
    exact (hagenda _).exec_cmd hc (fun he => hadvance (congrArg some he)) (fun he => hprogch (congrArg some he)) hl

/-- Settles O46. -/
theorem stepKeepsTheTransceiverTuned : Obligations.StepKeepsTheTransceiverTuned := by
  intro s t hinv htuned hcmd hstep
  obtain ⟨hv, f, hf, hl⟩ := step_next hstep
  have h : TunedInSession s := ⟨hv, hinv.idx_lt, htuned⟩
  exact h.takenUp hinv hcmd hf hl

end Sys2Proof.Machine
end

section
/-! A `RESET` in an instant that an operation comes to abandons it there (rules R256, R258, R290): in whichever instant it
stands, by what the instants before it leave; and the instants in which a `RESET` is surely come to. -/

namespace Sys2Proof.Machine

/-! ## The instants before the `RESET` -/

section

variable (earlier : List (List Gap)) (before after : List Gap) (later : List (List Gap)) (A : List Presented → Prop)

/-- An operation begun in `s` has come to `t` through some of the instants `earlier`, its answers the refusals of the commands
in them; the instant of the `RESET` still comes, and the agenda is as `A` says. -/
structure BeforeReset (s t : State) : Prop where
  cfg : t.cfg = s.cfg
  agenda : A t.agenda
  passed : ∃ past rest added, earlier = past ++ rest ∧ t.gaps = rest ++ (before ++ .reset :: after) :: later ∧
    t.out = s.out ++ added ∧
    added.filter Output.isAnswer = List.replicate (past.flatten.countP Gap.isCommand) (.reply .refused [])

/-- What the `RESET` leaves of an operation begun in `s`, before an agenda as `A` says. -/
abbrev AbandonedThere (s t : State) : Prop := ∃ rest, A rest ∧ AbandonedAfter earlier before after later rest s t

/-- Whatever has used the instant of the `RESET` was abandoned in it. -/
abbrev AbandonedOnceReached (s t : State) : Prop :=
  t.gaps.length ≤ later.length → AbandonedThere earlier before after later A s t

end

section

variable {earlier : List (List Gap)} {before after : List Gap} {later : List (List Gap)} {A : List Presented → Prop}
  {s t u : State}

/-- At first all the instants still come. -/
theorem BeforeReset.start (hs : s.gaps = earlier ++ (before ++ .reset :: after) :: later) (ha : A u.agenda)
    (hcfg : u.cfg = s.cfg := by rfl) (hgaps : u.gaps = s.gaps := by rfl) (hout : u.out = s.out := by rfl) :
    BeforeReset earlier before after later A s u :=
  ⟨hcfg, ha, [], earlier, [], rfl, hgaps.trans hs, by rw [hout, List.append_nil], rfl⟩

theorem BeforeReset.congr (h : BeforeReset earlier before after later A s t) (hcfg : u.cfg = t.cfg := by rfl)
    (hagenda : u.agenda = t.agenda := by rfl) (hgaps : u.gaps = t.gaps := by rfl) (hout : u.out = t.out := by rfl) :
    BeforeReset earlier before after later A s u where
  cfg := hcfg.trans h.cfg
  agenda := hagenda ▸ h.agenda
  passed := by rw [hgaps, hout]; exact h.passed

theorem BeforeReset.put (h : BeforeReset earlier before after later A s t) {o : Output} (ho : o.isAnswer = false) :
    BeforeReset earlier before after later A s (put o t) where
  cfg := h.cfg
  agenda := h.agenda
  passed := by
    obtain ⟨past, rest, added, hsplit, hgaps, hout, hans⟩ := h.passed
    refine ⟨past, rest, added ++ [o], hsplit, hgaps, by rw [put_out, hout, List.append_assoc], ?_⟩
    rw [List.filter_append, hans, List.filter_cons_of_neg (by simp [ho]), List.filter_nil, List.append_nil]

/-- The instant of the `RESET` has not been used. -/
theorem BeforeReset.lt_length (h : BeforeReset earlier before after later A s t) : later.length < t.gaps.length := by
  obtain ⟨past, rest, added, -, hgaps, -⟩ := h.passed
  rw [hgaps, List.length_append, List.length_cons]
  omega

theorem BeforeReset.abandonedOnceReached (h : BeforeReset earlier before after later A s t)
    (hgaps : u.gaps = t.gaps := by rfl) : AbandonedOnceReached earlier before after later A s u :=
  fun hle => absurd (hgaps ▸ hle) (Nat.not_le.2 h.lt_length)

/-- The reset registers, with the events after the `RESET` presented, are what is left of the operation. -/
theorem abandonedAfter_resetRegisters {added : List Output} (hcfg : t.cfg = s.cfg) (hgaps : t.gaps = later)
    (hout : t.out = s.out ++ added)
    (hans : added.filter Output.isAnswer =
      List.replicate ((earlier.flatten ++ before).countP Gap.isCommand) (.reply .refused [])) :
    AbandonedAfter earlier before after later t.agenda s
      { resetRegisters t with agenda := after.map Gap.presented ++ t.agenda } := by
  refine ⟨added, ?_, hans⟩
  subst hgaps
  simp only [resetRegisters, hcfg, hout]

/-- An instant of `earlier` passes, and in the instant of the `RESET` the operation is abandoned (rules R256, R258, R290). -/
theorem beforeReset_point (he : ∀ g ∈ earlier, .reset ∉ g) (hb : .reset ∉ before) :
    PointKeeps (BeforeReset earlier before after later A s) (AbandonedThere earlier before after later A s) := by
  intro t h
  obtain ⟨past, rest, added, rfl, hgaps, hout, hans⟩ := h.passed
  cases rest with
  | nil =>
    obtain ⟨u, new, hserve, hcfg, hagenda, hlater, hnew, hrefused⟩ := serveGap_noReset hb { t with gaps := later }
    have hpoint : atPoint t = .abandoned { resetRegisters u with agenda := after.map Gap.presented ++ u.agenda } := by
      simp only [atPoint, hgaps, List.nil_append, hserve, serveGap]
    unfold Ends
    rw [hpoint]
    refine ⟨u.agenda, hagenda ▸ h.agenda,
      abandonedAfter_resetRegisters (added := added ++ new) (hcfg.trans h.cfg) hlater ?_ ?_⟩
    · rw [hnew, hout, List.append_assoc]
    · rw [List.filter_append, hans, hrefused, List.replicate_append_replicate, List.append_nil, List.countP_append]
  | cons g rest =>
    obtain ⟨u, new, hserve, hcfg, hagenda, hcome, hnew, hrefused⟩ := serveGap_noReset (he g (by simp))
      { t with gaps := rest ++ (before ++ .reset :: after) :: later }
    have hpoint : atPoint t = .done () u := by
      simpa only [atPoint, hgaps, List.cons_append, List.append_nil, serveGap] using hserve []
    unfold Ends
    rw [hpoint]
    refine ⟨hcfg.trans h.cfg, hagenda ▸ h.agenda, past ++ [g], rest, added ++ new, by simp, hcome, ?_, ?_⟩
    · rw [hnew, hout, List.append_assoc]
    · rw [List.filter_append, hans, hrefused, List.replicate_append_replicate, List.flatten_append, List.flatten_singleton,
        List.countP_append]

/-- No atomic step but an instant looks at the instants, and only a command's answer is one (rules R103, R258). -/
theorem beforeReset_closed (he : ∀ g ∈ earlier, .reset ∉ g) (hb : .reset ∉ before) :
    StepClosed (BeforeReset earlier before after later A s) (AbandonedThere earlier before after later A s) where
  point := beforeReset_point he hb
  same := fun _ _ h e => h.congr e.cfg e.agenda e.gaps e.out
  put := fun _ _ ho h => h.put ho
  note := fun _ _ h => h.congr
  hang := fun _ h => h.congr
  rx := fun _ _ h _ => h.congr
  unpack := fun _ _ _ h _ => h.congr
  txwait := fun _ _ _ h => h.congr
  txLoad := fun _ _ h _ _ => h.congr
  txT0 := fun _ _ h => h.congr
  hopcnt := fun _ h => h.congr
  interval := fun _ h => h.congr
  endsess := fun _ h => h.congr
  attach := fun _ h => h.congr
  setup := fun _ _ h => h.congr

theorem BeforeReset.wrregWrite (h : BeforeReset earlier before after later A s t) (rn : Half) (v : List Byte) :
    BeforeReset earlier before after later A s (wrregWrite rn v t) := by
  unfold Machine.wrregWrite
  split
  · exact h
  · exact h.congr

/-- An operation abandoned by a `RESET` does not go on (rule R290). -/
theorem AbandonedAfter.resume_eq {rest : List Presented} (h : AbandonedAfter earlier before after later rest s t) :
    resume t = t := by
  obtain ⟨added, ht, -⟩ := h
  have hp : t.phase = .idle := congrArg State.phase ht
  simp only [resume, hp]

section

variable (hs : s.gaps = earlier ++ (before ++ .reset :: after) :: later) (he : ∀ g ∈ earlier, .reset ∉ g)
  (hb : .reset ∉ before)

include hs he hb

/-- An operation that has used the instant of the `RESET` was abandoned there. -/
theorem exec_abandonedOnceReached {i : Instr} (hexec : exec i s = .next t) :
    AbandonedOnceReached earlier before after later (· = s.agenda) s t := by
  have hstart : BeforeReset earlier before after later (· = s.agenda) s s := .start hs rfl
  refine stepClosed_exec (beforeReset_closed he hb) ?_ ?_ ?_ hstart ?_ (.inr ?_) ?_ hexec
  · exact fun _ hu => hu.abandonedOnceReached
  · exact fun _ _ _ hu => hu.abandonedOnceReached
  · exact fun _ hu _ => hu
  · exact fun _ => hstart.abandonedOnceReached
  · exact fun _ _ hu => hu.congr
  · exact fun rn v _ hu _ _ _ _ => hu.wrregWrite rn v

/-- So was the operation of a step, and the answer that ends it; bytes after its frame stay presented (rule R103). -/
theorem step_abandonedOnceReached (hstep : step s = .next t) :
    AbandonedOnceReached earlier before after later (fun a => ∃ extra, a = requeue extra s.agenda.tail) s t := by
  have hstart (extra : List Byte) : BeforeReset earlier before after later
      (fun a => ∃ extra, a = requeue extra s.agenda.tail) s { s with agenda := requeue extra s.agenda.tail } :=
    .start hs ⟨extra, rfl⟩
  refine stepClosed_ends (beforeReset_closed he hb) ?_ ?_ ?_ ?_ (fun _ => hstart) ?_ ?_ hstep
  · exact fun _ hu => hu.abandonedOnceReached
  · exact fun _ _ _ hu => hu.abandonedOnceReached
  · exact fun _ hu _ => hu
  · rintro u ⟨rest, hrest, hu⟩ -
    exact ⟨rest, hrest, hu.resume_eq.symm ▸ hu⟩
  · exact fun _ _ _ => (hstart []).abandonedOnceReached
  · exact fun _ rn v _ hu _ _ _ _ => hu.wrregWrite rn v

end

end

/-! ## Where a `RESET` is come to -/

theorem andThen_abandoned {α β : Type} {m : Steps α} {f : α → Steps β} {s t : State} (h : m s = .abandoned t) :
    andThen m f s = .abandoned t := by
  simp only [andThen, h]

/-- `i` is its tests, which look at no instant, and then its steps; accepted, with nothing happening inside it, it does not end
in the answer `REFUSED` (rules R251, R256). -/
structure TestedCommand (i : Instr) (check : State → Option RefuseCode) (m : Steps Unit) : Prop where
  exec_eq : ∀ s, exec i s = .next (final (tested check m) s)
  check_gaps : ∀ s g, check { s with gaps := g } = check s
  answer : ∀ s, s.gaps = [] → check s = none → (final (tested check m) s).out.getLast? ≠ some (.reply .refused [])

/-- A command that answers `OK` after its steps. -/
theorem TestedCommand.of_command {i : Instr} {check : State → Option RefuseCode} {steps : List (Steps Unit)}
    {value : State → List Byte} (hexec : ∀ s, exec i s = .next (command check steps value s))
    (hgaps : ∀ s g, check { s with gaps := g } = check s)
    (hs : ∀ s, QuietMode (fun _ => True) s → Ends (inOrder steps) s (fun _ => QuietMode fun _ => True) fun _ => False) :
    TestedCommand i check (inOrder (steps ++ [reply .ok value])) where
  exec_eq := hexec
  check_gaps := hgaps
  answer := by
    intro s h hc
    obtain ⟨t, ht, hq⟩ := (hs s ⟨h, trivial⟩).exists_done
    have hrun : final (tested check (inOrder (steps ++ [reply .ok value]))) s = put (.reply .ok (value t)) t :=
      command_done h hc ht hq.gaps
    rw [hrun, put_out, List.getLast?_concat]
    nofun

/-- Every command is tests and then steps; `SEND` has no answer `OK`, its wait comes after them (rules R194, R256). -/
theorem exists_testedCommand {i : Instr} (hi : opClass i = .cmd) : ∃ check m, TestedCommand i check m := by
  have C := quietMode_closed (Q := fun _ => True) trivial
  cases i <;> simp only [opClass, reduceCtorEq] at hi <;> clear hi
  case nop | rdreg | pktsize | pack =>
    exact ⟨_, _, .of_command (fun _ => rfl) (fun _ _ => rfl) fun _ h => Ends.nil h⟩
  case wrreg rn v =>
    exact ⟨_, _, .of_command (fun _ => rfl) (fun _ _ => rfl) fun _ h =>
      Ends.last (P := QuietMode _) (update_ends (wrregWrite_quietMode h rn v))⟩
  case attach | endsess | unpack | interval | hopcnt | advance =>
    exact ⟨_, _, .of_command (fun _ => rfl) (fun _ _ => rfl) fun _ h =>
      Ends.last (P := QuietMode _) (update_ends { h with })⟩
  case progch k =>
    exact ⟨_, _, .of_command (fun _ => rfl) (fun _ _ => rfl) fun _ h =>
      Ends.last (progchSteps_ends quietMode_point (fun o _ _ ht => ht.put o) h k)⟩
  case setup => exact ⟨_, _, .of_command (fun _ => rfl) (fun _ _ => rfl) fun _ h => Ends.last (h.setupSteps trivial)⟩
  case rxenter => exact ⟨_, _, .of_command (fun _ => rfl) (fun _ _ => rfl) fun _ h => Ends.last (C.toHopKept.rxenter h)⟩
  case poll => exact ⟨_, _, .of_command (fun _ => rfl) (fun _ _ => rfl) fun _ h => Ends.last (C.pollSteps h)⟩
  case txstart d =>
    refine ⟨_, _, .of_command (fun _ => rfl) (fun _ _ => rfl) fun s h => Ends.last ?_⟩
    unfold Ends
    rw [txstartSteps_quiet h.gaps]
    exact ⟨h.gaps, trivial⟩
  case send d =>
    refine ⟨_, _, fun _ => rfl, fun _ _ => rfl, fun s h hc => ?_⟩
    rw [final_done ((tested_passed h hc).trans (sendSteps_quiet h d))]
    simp

/-- An operation that leaves, when nothing happens inside it, what a refusal does, is refused by its tests. -/
theorem TestedCommand.exists_check_eq_some {i : Instr} {check : State → Option RefuseCode} {m : Steps Unit} {s : State}
    {n : Byte} (h : TestedCommand i check m) (hq : s.gaps = []) (hexec : exec i s = .next (refusedWith n s)) :
    ∃ c, check s = some c := by
  cases hc : check s with
  | some c => exact ⟨c, rfl⟩
  | none =>
    have hfinal : final (tested check m) s = refusedWith n s :=
      Host.Outcome.next.inj ((h.exec_eq s).symm.trans hexec)
    exact absurd (hfinal ▸ List.getLast?_concat) (h.answer s hq hc)

section

variable {s : State} {before after : List Gap} {later : List (List Gap)} (hb : ∀ e ∈ before, e = .irq)

include hb

/-- The first atomic step of an operation comes after an instant (log entry 5). -/
theorem exec_abandoned_at_first {i : Instr}
    (hi : opClass i = .cmd ∨ i = .p1Health ∨ i = .p2Rxproc ∨ i = .txwait ∨ i = .rssisamp)
    (hs : s.gaps = (before ++ .reset :: after) :: later) : exec i s = .next (abandonedIn before after later s) := by
  have hpoint := atPoint_reset hb hs
  rcases hi with hi | rfl | rfl | rfl | rfl
  · obtain ⟨check, m, h⟩ := exists_testedCommand hi
    rw [h.exec_eq, final_abandoned (tested_abandoned hpoint)]
  · exact congrArg Host.Outcome.next (final_abandoned (andThen_abandoned (andThen_abandoned hpoint)))
  · exact congrArg Host.Outcome.next (final_abandoned (andThen_abandoned (andThen_abandoned hpoint)))
  · exact congrArg Host.Outcome.next (final_abandoned (inOrder_abandoned (inOrder_abandoned hpoint)))
  · exact congrArg Host.Outcome.next (final_abandoned (andThen_abandoned (andThen_abandoned hpoint)))

/-- A refusal has an instant before its record and one before its answer; the record is undone with every register. -/
theorem refuse_abandoned {k : Nat} (hk : k ≤ 1) (hs : s.gaps = List.replicate k [] ++ (before ++ .reset :: after) :: later)
    (c : RefuseCode) : refuse c s = .abandoned (abandonedIn before after later s) := by
  match k, hk with
  | 0, _ => exact inOrder_abandoned (atPoint_reset hb hs)
  | 1, _ =>
    have hpoint := atPoint_reset (s := noteRefusal c { s with gaps := (before ++ .reset :: after) :: later }) hb rfl
    exact inOrder_step (atPoint_empty hs) (inOrder_step rfl (inOrder_abandoned (inOrder_abandoned hpoint)))

/-- A refused command has one more, before its tests. -/
theorem TestedCommand.abandoned {i : Instr} {check : State → Option RefuseCode} {m : Steps Unit} {c : RefuseCode} {k : Nat}
    (h : TestedCommand i check m) (hc : check s = some c) (hk : k ≤ 2)
    (hs : s.gaps = List.replicate k [] ++ (before ++ .reset :: after) :: later) :
    exec i s = .next (abandonedIn before after later s) := by
  rw [h.exec_eq]
  refine congrArg Host.Outcome.next (final_abandoned ?_)
  cases k with
  | zero => exact tested_abandoned (atPoint_reset hb hs)
  | succ k =>
    rw [tested, andThen_done (atPoint_empty hs), h.check_gaps, hc]
    exact refuse_abandoned hb (Nat.le_of_succ_le_succ hk) rfl c

/-- What command decode refuses is refused without tests (rule R256). -/
theorem step_cmd_abandoned {bytes : List Byte} {r : List Presented} {k : Nat} (hv : s.cfg.valid = true)
    (ha : s.agenda = .cmd bytes :: r) (hk : k ≤ 1)
    (hrefused : s.phase ≠ .idle ∨ ∃ c operands, bytes = c :: operands ∧ ∀ i, opClass i = .cmd → opcode i ≠ c)
    (hs : s.gaps = List.replicate k [] ++ (before ++ .reset :: after) :: later) :
    step s = .next (abandonedIn before after later { s with agenda := r }) := by
  have hfetch : fetch s = fetchCommand bytes { s with agenda := r } := by simp only [fetch, ha]
  have hrefuse : ∃ c, fetchCommand bytes { s with agenda := r } = .refuse c { s with agenda := r } := by
    by_cases hp : s.phase = .idle
    · obtain hbusy | ⟨c, operands, rfl, hc⟩ := hrefused
      · exact absurd hp hbusy
      · exact ⟨_, fetchCommand_badOpcode (by exact hp) hc operands⟩
    · exact ⟨_, fetchCommand_busy (by exact hp) bytes⟩
  obtain ⟨c, hc⟩ := hrefuse
  rw [step_eq_of_refuse hv (hfetch.trans hc), final_abandoned (refuse_abandoned hb hk (by exact hs) c)]

end

/-- Settles O52: `BeforeReset` holds at each atomic step until the instant of the `RESET` comes. -/
theorem resetInsideAbandonsTheOperation : Obligations.ResetInsideAbandonsTheOperation := by
  refine ⟨fun s t earlier before after later hs he hb hused => ⟨fun i hexec => ?operation, fun hstep => ?step⟩,
    fun s before after later hb => ⟨fun i hi => exec_abandoned_at_first hb hi, fun i n k hi hexec hk => ?refused,
      fun bytes r k hv ha hk hrefused => step_cmd_abandoned hb hv ha hk hrefused⟩⟩
  case operation =>
    obtain ⟨_, rfl, h⟩ := exec_abandonedOnceReached hs he hb hexec hused
    exact h
  case step =>
    obtain ⟨_, ⟨extra, rfl⟩, h⟩ := step_abandonedOnceReached hs he hb hstep hused
    exact ⟨extra, h⟩
  case refused =>
    obtain ⟨check, m, h⟩ := exists_testedCommand hi
    obtain ⟨c, hc⟩ := h.exists_check_eq_some rfl hexec
    exact h.abandoned hb ((h.check_gaps s []).symm.trans hc) hk

end Sys2Proof.Machine
end

section
/-! No step changes the configuration, and outputs are only added (rules R66, R291). -/

namespace Sys2Proof.Machine

/-- `t` has the configuration of `s`, and its outputs begin with those of `s`. -/
structure ConfigAndHistoryKept (s t : State) : Prop where
  cfg : t.cfg = s.cfg
  out : s.out <+: t.out

namespace ConfigAndHistoryKept

variable {s t u : State} (h : ConfigAndHistoryKept s t)

include h

/-- A change of state that neither writes the configuration nor puts out anything. -/
theorem congr (hcfg : u.cfg = t.cfg := by rfl) (hout : u.out = t.out := by rfl) : ConfigAndHistoryKept s u :=
  ⟨hcfg.trans h.cfg, hout ▸ h.out⟩

theorem put (o : Output) : ConfigAndHistoryKept s (put o t) := ⟨h.cfg, h.out.trans (List.prefix_append _ _)⟩

theorem wrregWrite (rn : Half) (v : List Byte) : ConfigAndHistoryKept s (wrregWrite rn v t) := by
  unfold Machine.wrregWrite
  split
  · exact h
  · exact h.congr

end ConfigAndHistoryKept

/-- A `RESET` inside an operation keeps both as well (rules R290, R291). -/
theorem configAndHistoryKept_closed (s : State) : StepClosed (ConfigAndHistoryKept s) (ConfigAndHistoryKept s) where
  point := pointKeeps_of (fun _ _ h => h.congr) (fun _ h => h.congr.put .noWake)
    (fun _ h => h.congr.put (.reply .refused [])) (fun _ _ h => h.congr)
  same := fun _ _ h e => h.congr e.cfg e.out
  put := fun o _ _ h => h.put o
  note := fun _ _ h => h.congr
  hang := fun _ h => h.congr
  rx := fun _ _ h _ => h.congr
  unpack := fun _ _ _ h _ => h.congr
  txwait := fun _ _ _ h => h.congr
  txLoad := fun _ _ h _ _ => h.congr
  txT0 := fun _ _ h => h.congr
  hopcnt := fun _ h => h.congr
  interval := fun _ h => h.congr
  endsess := fun _ h => h.congr
  attach := fun _ h => h.congr
  setup := fun _ _ h => h.congr

/-- Settles O59: no change of state writes the configuration, and `put` alone writes the outputs, at their end. -/
theorem stepKeepsConfigurationAndHistory : Obligations.StepKeepsConfigurationAndHistory := by
  intro s t hstep
  have h : ConfigAndHistoryKept s t := by
    refine stepClosed_step (configAndHistoryKept_closed s) ?_ (fun _ => id) (fun _ => ⟨rfl, List.prefix_rfl⟩) ?_ ?_ ?_ hstep
    · exact fun _ _ _ hu => hu.put _
    · exact fun _ hu => hu.congr
    · exact fun _ hu _ => hu.congr
    · exact fun _ rn v _ hu _ _ _ _ => hu.wrregWrite rn v
  exact ⟨h.cfg, h.out⟩

end Sys2Proof.Machine
end
